-- ==== Sys2Proof/Word.lean ====
section
/-! DEFINITION. Words and bytes of BFEKS (00_scope.md R9, R10): 32-bit words, 8-bit bytes, and their plain arithmetic.
Addition is modulo 2^32, `^^^` is exclusive or, shifts fill with zeros: the operations of `BitVec` as they stand. -/

namespace Sys2Proof

/-- A byte (00_scope.md R9). -/
abbrev Byte := BitVec 8

/-- A data word of the engine: an unsigned 32-bit word (00_scope.md R10). -/
abbrev Word := BitVec 32

end Sys2Proof
end

