-- ==== Sys2Proof/Config.lean ====
section
/-! DEFINITION. What is fixed for the machine (00_scope.md R7, R8) and the one source of free values. -/

namespace Sys2Proof.Config

/-- The free values of the model: what a host read gives where the spec says it returns any value (10_state.md R41, R42;
70_reset_and_hazards.md R256; 93_implementation_defined.md I1, I2). `freeWord k` is draw number `k`. It has no body, so
nothing can be proved of it; log entry 3, DESIGN CHOICE. -/
opaque freeWord : Nat → Word

/-- The identification value, "BFE1" (10_state.md R24). -/
def idValue : Word := 0x42464531#32

/-- Feistel rounds (00_scope.md R7). -/
def rounds : Nat := 16

/-- Words of the P-array (00_scope.md R7). -/
def pWords : Nat := 18

/-- Block encryptions of one fill (41_key_schedule.md R124). -/
def fillBlocks : Nat := 521

/-- Password bytes used (00_scope.md R7). -/
def passwordBytes : Nat := 72

/-- The longest key: 72 password bytes and the NUL (00_scope.md R7, 10_state.md R35). -/
def maxKeyLen : Nat := 73

/-- The least cost accepted (00_scope.md R7, 60_exceptions.md R227). -/
def minCost : Nat := 4

/-- The greatest cost accepted (00_scope.md R7, 60_exceptions.md R227). -/
def maxCost : Nat := 31

/-- Passes of the digest (00_scope.md R7, 42_eks_bcrypt.md R156). -/
def digestPasses : Nat := 64

/-- Bytes of the register window, 8 KiB (00_scope.md R7, 20_memory.md R60). -/
def windowBytes : Nat := 0x2000

end Sys2Proof.Config
end

