-- ==== Sys2Proof/Syntax.lean ====
section
/-! DEFINITION. The command set BFEKS-1 as an inductive type (00_scope.md R2, 30_encoding.md R82). -/

namespace Sys2Proof

/-- The eight commands of 30_encoding.md R82. The argument of the last five is the X bit, the source's
"sign extend flag" (R83); the first three have none, since X = 1 is a reserved encoding for them (R87). -/
inductive Instr where
  /-- `bf.nop`, OP 0x00 (40_blowfish.md R106) -/
  | nop
  /-- `bf.init`, OP 0x01 (40_blowfish.md R107) -/
  | init
  /-- `bf.enc`, OP 0x02 (40_blowfish.md R108) -/
  | enc
  /-- `bf.expkey[.x]`, OP 0x03 (41_key_schedule.md R131) -/
  | expkey (x : Bool)
  /-- `bf.expsalt[.x]`, OP 0x04 (41_key_schedule.md R132) -/
  | expsalt (x : Bool)
  /-- `bf.expstate[.x]`, OP 0x05 (41_key_schedule.md R133) -/
  | expstate (x : Bool)
  /-- `bf.eks[.x]`, OP 0x06 (42_eks_bcrypt.md R160) -/
  | eks (x : Bool)
  /-- `bf.bcrypt[.x]`, OP 0x07 (42_eks_bcrypt.md R161) -/
  | bcrypt (x : Bool)
  deriving DecidableEq, Repr

end Sys2Proof
end

