-- ==== Sys2Proof/WellFormed.lean ====
section
/-! DEFINITION. What is well formed: a command word (30_encoding.md R85 to R87) and a host access (20_memory.md R60 to
R62), said as predicates apart from the decoder and the access rules, which are proved to agree with them in Laws. -/

namespace Sys2Proof

/-- The opcode of a command word is one of the assigned ones, 0x00 to 0x07 (30_encoding.md R82, R86). -/
def opAssigned (w : Word) : Bool := decide (w.toNat % 256 ≤ 7)

/-- The reserved bits [31:9] of a command word are zero (30_encoding.md R81, R87). -/
def reservedZero (w : Word) : Bool := decide (w.toNat / 512 = 0)

/-- X is set only for the opcodes 0x03 to 0x07 (30_encoding.md R83). -/
def xAllowed (w : Word) : Bool := decide (w.toNat / 256 % 2 = 1 → 3 ≤ w.toNat % 256)

/-- A well-formed command word: none of the tests of 30_encoding.md R85 refuses it. -/
def wordWf (w : Word) : Bool := opAssigned w && reservedZero w && xAllowed w

/-- Every term of `Instr` is well formed: it holds an X bit exactly where its opcode allows one (30_encoding.md R83). -/
def Instr.wf : Instr → Bool
  | .nop | .init | .enc => true
  | .expkey _ | .expsalt _ | .expstate _ | .eks _ | .bcrypt _ => true

/-- A host access moves exactly four bytes (20_memory.md R61, R62). -/
def accessWidthOk (width : Nat) : Bool := width == 4

/-- A host access is at a multiple of four (20_memory.md R61, R62). -/
def accessAligned (a : Nat) : Bool := a % 4 == 0

/-- A host access is inside the register window (20_memory.md R60). -/
def accessInWindow (a : Nat) : Bool := decide (a < Config.windowBytes)

/-- A well-formed host access (20_memory.md R60 to R62). -/
def accessWf (a width : Nat) : Bool := accessWidthOk width && accessAligned a && accessInWindow a

end Sys2Proof
end

