-- ==== Sys2Proof/Decode.lean ====
section
/-! DEFINITION. Decoding a command word (30_encoding.md R80 to R87) and encoding a command, each written from the field
table R81 and the opcode map R82. -/

namespace Sys2Proof

/-- Why a command is rejected at issue (60_exceptions.md R222). Decoding raises the first two only. -/
inductive Reject where
  /-- ECODE 1: OP is 0x08 to 0xFF (R223) -/
  | illegalOpcode
  /-- ECODE 2: a legal OP with RSV not zero, or X = 1 with OP 0x00 to 0x02 (R224) -/
  | reservedBits
  /-- ECODE 3: the command reads P and S while STATUS.INIT = 0 (R225) -/
  | notInitialised
  /-- ECODE 4: the command reads KEY and KEYLEN is outside [1, 73] (R226) -/
  | invalidKeylen
  /-- ECODE 5: the command reads COST and COST is outside [4, 31] (R227) -/
  | invalidCost
  deriving DecidableEq, Repr

/-- OP, bits [7:0] (30_encoding.md R81). -/
def opField (w : Word) : BitVec 8 := w.extractLsb' 0 8

/-- X, bit [8] (30_encoding.md R81). -/
def xField (w : Word) : Bool := w.getLsbD 8

/-- RSV, bits [31:9] (30_encoding.md R81). -/
def rsvField (w : Word) : BitVec 23 := w.extractLsb' 9 23

/-- The opcode map of 30_encoding.md R82, for opcodes 0x00 to 0x07, with the X tests of R85 for the first three. -/
def decodeOp (op : BitVec 8) (x : Bool) : Except Reject Instr :=
  match op.toNat with
  | 0 => if x then .error .reservedBits else .ok .nop
  | 1 => if x then .error .reservedBits else .ok .init
  | 2 => if x then .error .reservedBits else .ok .enc
  | 3 => .ok (.expkey x)
  | 4 => .ok (.expsalt x)
  | 5 => .ok (.expstate x)
  | 6 => .ok (.eks x)
  | 7 => .ok (.bcrypt x)
  | _ => .error .illegalOpcode

/-- Decoding, a total function of the command word (30_encoding.md R85): the opcode is tested first, then RSV, then X. -/
def decode (w : Word) : Except Reject Instr :=
  if 0x07#8 < opField w then .error .illegalOpcode
  else if rsvField w ≠ 0#23 then .error .reservedBits
  else decodeOp (opField w) (xField w)

/-- OP of a command (30_encoding.md R82). -/
def Instr.op : Instr → BitVec 8
  | .nop => 0x00#8
  | .init => 0x01#8
  | .enc => 0x02#8
  | .expkey _ => 0x03#8
  | .expsalt _ => 0x04#8
  | .expstate _ => 0x05#8
  | .eks _ => 0x06#8
  | .bcrypt _ => 0x07#8

/-- X of a command, 0 where its opcode allows none (30_encoding.md R83). -/
def Instr.x : Instr → Bool
  | .nop | .init | .enc => false
  | .expkey x | .expsalt x | .expstate x | .eks x | .bcrypt x => x

/-- The command word of a command: RSV = 0, X, OP from the most significant bit down (30_encoding.md R81, R82). -/
def encode (i : Instr) : Word := 0#23 ++ BitVec.ofBool i.x ++ i.op

/-- The instruction the decoder reads from an instruction of the opcode table whose bits are `w`: every command is one
32-bit word (30_encoding.md R80), so bits above `nbits` are zero and a number of more than 32 bits is no command. -/
def decodeTableWord (nbits w : Nat) : Option Instr :=
  if w % 2 ^ nbits < 2 ^ 32 then
    match decode (BitVec.ofNat 32 (w % 2 ^ nbits)) with
    | .ok i => some i
    | .error _ => none
  else none

end Sys2Proof
end

