-- ==== Sys2Proof/Machine/State.lean ====
section
/-! DEFINITION. The state of BFEKS (10_state.md), the inputs its two agents take steps from, and the state after reset.
Every field is plain data. INVENTORY.md lists each with its rule, width and reset value. -/

namespace Sys2Proof.Machine

/-- The cipher state (10_state.md R21, R22): the P-array, 18 words, and four S-boxes of 256 words. -/
structure Cipher where
  p : Vector Word 18
  s : Vector (Vector Word 256) 4
  deriving DecidableEq, Repr

/-- The fields of STATUS (10_state.md R26). Its reserved bits [31:9] have no storage and read as zero. -/
structure Status where
  /-- BUSY, bit 0 (R27) -/
  busy : Bool
  /-- DONE, bit 1 (R28) -/
  done : Bool
  /-- ERR, bit 2 (R29) -/
  err : Bool
  /-- INIT, bit 3 (R30) -/
  init : Bool
  /-- ECODE, bits [7:4] (R29) -/
  ecode : BitVec 4
  /-- DROP, bit 8 (R31) -/
  drop : Bool
  deriving DecidableEq, Repr

/-- The sequencer phases (10_state.md R34). -/
inductive Phase where
  | idle | load | enc | keyxor | fill | loopk | loops | digest | finish
  deriving DecidableEq, Repr

/-- The key source of a key-XOR (10_state.md R38, `src`). -/
inductive KeySource where
  | key | salt
  deriving DecidableEq, Repr

/-- Which expansion a key-XOR and fill belong to (10_state.md R38, `stage`). -/
inductive Stage where
  | single | state | lk | ls
  deriving DecidableEq, Repr

/-- The sequencer: the phase (10_state.md R34) and the hidden working registers (10_state.md R38). -/
structure Seq where
  phase : Phase
  /-- the accepted command, none after reset -/
  cur : Option Instr
  bl : Word
  br : Word
  src : KeySource
  sx : Bool
  fillSalt : Bool
  stage : Stage
  koff : Nat
  soff : Nat
  n : Nat
  iter : BitVec 32
  pass : Nat
  c : Vector Word 6
  deriving DecidableEq, Repr

/-- A host access (20_memory.md R61): at byte offset `a`, of `width` bytes. Any width and offset can be written here;
those outside the interface are refused when the access is made (R62). -/
inductive Access where
  | read (a width : Nat)
  | write (a width : Nat) (v : Word)
  deriving DecidableEq, Repr

/-- What takes the next step, and with what (00_scope.md R6, 20_memory.md R70). The list of inputs in `State` is the host's
program and the scheduler's choices together; log entry 4, DESIGN CHOICE. -/
inductive Input where
  /-- the host makes one access (44_host_protocol.md R180) -/
  | access (a : Access)
  /-- the host asserts reset (44_host_protocol.md R180, 70_reset_and_hazards.md R250) -/
  | reset
  /-- the engine takes one sequencer step (42_eks_bcrypt.md R152) -/
  | engine
  /-- the host writes `w` to CMD and the engine runs an accepted command to its completion before the host's next action:
  LAT = 0 (00_scope.md R8), merged into one step (00_scope.md R14); log entry 5, DEDUCED -/
  | run (w : Word)
  deriving DecidableEq, Repr

/-- What a command left that the host may not yet rely on: the results of the commands accepted since the host last saw
STATUS.BUSY = 0 (70_reset_and_hazards.md R255, 93_implementation_defined.md I11). It says what the host has seen, and is no
register; log entry 11, DESIGN CHOICE. -/
structure Unseen where
  /-- BLK_L is an unseen result of ENCRYPT -/
  blkL : Bool
  /-- BLK_R is an unseen result of ENCRYPT -/
  blkR : Bool
  /-- DIGEST is an unseen result of BCRYPT -/
  digest : Bool
  /-- P and S are an unseen result of a command that writes them -/
  cipher : Bool
  deriving DecidableEq, Repr

/-- No result waits to be seen: as after reset, and after a STATUS read that shows BUSY = 0 (70_reset_and_hazards.md R255). -/
def Unseen.nothing : Unseen where
  blkL := false
  blkR := false
  digest := false
  cipher := false

/-- The state of the machine. BFEKS has no memory but its registers and arrays (20_memory.md R60); log entry 13, DEDUCED. -/
structure State where
  cipher : Cipher
  status : Status
  /-- COST [7:0] (10_state.md R32) -/
  cost : BitVec 8
  /-- KEYLEN [6:0] (10_state.md R35) -/
  keylen : BitVec 7
  /-- KEY[0..72] (10_state.md R36) -/
  key : Vector Byte 73
  /-- SALT[0..15] (10_state.md R37) -/
  salt : Vector Byte 16
  /-- BLK_L (10_state.md R39) -/
  blkL : Word
  /-- BLK_R (10_state.md R39) -/
  blkR : Word
  /-- DIGEST[0..5] (10_state.md R40) -/
  digest : Vector Word 6
  seq : Seq
  /-- the results the host has not seen completed (70_reset_and_hazards.md R255); log entry 11, DESIGN CHOICE -/
  unseen : Unseen
  /-- the ghost mark of a dropped write, never cleared (93_implementation_defined.md I10); log entry 9, DESIGN CHOICE -/
  dropMark : Bool
  /-- the model's own: the inputs to come, oldest first; log entry 4, DESIGN CHOICE -/
  inputs : List Input
  /-- the model's own: offset and word of each host read so far, newest first; log entry 10, DESIGN CHOICE -/
  reads : List (Nat × Word)
  /-- the model's own: how many free values have been drawn; log entry 3, DESIGN CHOICE -/
  draws : Nat
  deriving DecidableEq, Repr

/-- Why the machine stops with a fault. -/
inductive Fault where
  /-- raised by the sequencer where BUSY = 1 and no row of the table of 42_eks_bcrypt.md R152 applies: the spec gives that
  state no step. Safe: the model stops. No state that meets `State.Inv` raises it; log entry 7, DESIGN CHOICE. -/
  | noSequencerRow
  deriving DecidableEq, Repr

/-- Why the model has no meaning for a step. -/
inductive Refusal where
  /-- raised by an arm of `exec` for a command that has no meaning in the model; no arm does so now. Safe. -/
  | notModelled (mnemonic : String)
  /-- raised by a host access whose width is not 4 bytes (20_memory.md R62, 93_implementation_defined.md I5). Safe. -/
  | accessWidth
  /-- raised by a host access at an offset that is no multiple of 4 (20_memory.md R62, 93_implementation_defined.md I5). Safe. -/
  | accessMisaligned
  /-- raised by a host access outside offsets 0x0000 to 0x1FFF (20_memory.md R60, 93_implementation_defined.md I6). Safe. -/
  | accessOutsideWindow
  deriving DecidableEq, Repr

/-- The cipher state after reset. The spec gives it no value (10_state.md R44); these zeros are the model's, and no host
read and no command can observe them: DESIGN CHOICE, log entry 1. -/
def Cipher.reset : Cipher where
  p := Vector.replicate 18 0#32
  s := Vector.replicate 4 (Vector.replicate 256 0#32)

/-- STATUS after reset, 0x00000000 (10_state.md R43). -/
def Status.reset : Status where
  busy := false
  done := false
  err := false
  init := false
  ecode := 0#4
  drop := false

/-- The sequencer after reset: IDLE with no command (10_state.md R34, R38, R43). The other working registers are
unspecified and not observable; their values here are a DESIGN CHOICE, log entry 2. -/
def Seq.reset : Seq where
  phase := .idle
  cur := none
  bl := 0#32
  br := 0#32
  src := .key
  sx := false
  fillSalt := false
  stage := .single
  koff := 0
  soff := 0
  n := 0
  iter := 0#32
  pass := 0
  c := Vector.replicate 6 0#32

/-- The state after reset (10_state.md R43, 70_reset_and_hazards.md R251). -/
def State.reset : State where
  cipher := Cipher.reset
  status := Status.reset
  cost := 0#8
  keylen := 0#7
  key := Vector.replicate 73 0#8
  salt := Vector.replicate 16 0#8
  blkL := 0#32
  blkR := 0#32
  digest := Vector.replicate 6 0#32
  seq := Seq.reset
  unseen := .nothing
  dropMark := false
  inputs := []
  reads := []
  draws := 0

end Sys2Proof.Machine
end

