-- ==== Sys2Proof/Machine/Operands.lean ====
section
/-! DEFINITION. Operand assembly: byte widening and packing (00_scope.md R11, R12), the byte buffers and their word views
(20_memory.md R65), what a command reads (30_encoding.md R84), and the cyclic byte stream (41_key_schedule.md R121). -/

namespace Sys2Proof.Machine

/-- `zext_32` (00_scope.md R11). -/
def zext32 (b : Byte) : Word := b.setWidth 32

/-- `sext_32` (00_scope.md R11): `b` below 0x80, else `b | 0xFFFFFF00`. -/
def sext32 (b : Byte) : Word := if b < 0x80#8 then zext32 b else zext32 b ||| 0xFFFFFF00#32

/-- The widening that `sx` selects: 1 is `sext_32`, 0 is `zext_32` (10_state.md R38, 30_encoding.md R83). -/
def widen (sx : Bool) (b : Byte) : Word := if sx then sext32 b else zext32 b

/-- `be32`: the word whose most significant byte is the first byte (00_scope.md R12). -/
def be32 (b0 b1 b2 b3 : Byte) : Word := b0 ++ b1 ++ b2 ++ b3

/-- Byte `k` of `unbe32 w`, `k` in 0..3: `w[31:24]` first (00_scope.md R12). -/
def byteOf (w : Word) (k : Nat) : Byte := w.extractLsb' (24 - 8 * k) 8

/-- `unbe32`: the bytes `w[31:24], w[23:16], w[15:8], w[7:0]` in that order (00_scope.md R12). -/
def unbe32 (w : Word) : List Byte := [byteOf w 0, byteOf w 1, byteOf w 2, byteOf w 3]

/-- Word `k` of a byte buffer: bytes 4k to 4k+3, big-endian, a byte the buffer does not have reading as zero
(20_memory.md R64, R65). -/
def bufferWord {m : Nat} (buf : Vector Byte m) (k : Nat) : Word :=
  be32 (buf.getD (4 * k) 0) (buf.getD (4 * k + 1) 0) (buf.getD (4 * k + 2) 0) (buf.getD (4 * k + 3) 0)

/-- A byte buffer after its word `k` is written: all four bytes at once, a byte the buffer does not have ignored
(20_memory.md R64, R65). -/
def setBufferWord {m : Nat} (buf : Vector Byte m) (k : Nat) (w : Word) : Vector Byte m :=
  Vector.ofFn fun i => if i.val / 4 = k then byteOf w (i.val % 4) else buf.get i

/-- The key, `KEY[0..KEYLEN-1]` (10_state.md R35, R36). -/
def State.keyBytes (s : State) : List Byte := s.key.toList.take s.keylen.toNat

/-- The salt, `SALT[0..15]` (10_state.md R37). -/
def State.saltBytes (s : State) : List Byte := s.salt.toList

/-- `bytes(src)` (42_eks_bcrypt.md R152). -/
def State.sourceBytes (s : State) : KeySource → List Byte
  | .key => s.keyBytes
  | .salt => s.saltBytes

/-- COST as an unsigned integer (10_state.md R32, 30_encoding.md R84). -/
def State.costNat (s : State) : Nat := s.cost.toNat

/-- One byte of a stream word: shift the word left by 8, OR in the widened byte, and move to the next byte of the cycle
(41_key_schedule.md R121). The spec gives it for data of at least one byte; log entry 14, DESIGN CHOICE. -/
def streamByte (data : List Byte) (sx : Bool) (wo : Word × Nat) : Word × Nat :=
  ((wo.1 <<< 8) ||| widen sx (data.getD wo.2 0), (wo.2 + 1) % data.length)

/-- `streamWord(data, off, sx)`: four bytes read cyclically from offset `off`, and the offset after them
(41_key_schedule.md R121). -/
def streamWord (data : List Byte) (off : Nat) (sx : Bool) : Word × Nat :=
  streamByte data sx (streamByte data sx (streamByte data sx (streamByte data sx (0#32, off))))

/-- `for i in 0..n-1`, counting up (00_scope.md R13): `f 0` first, `f (n-1)` last. -/
def forUp {α : Type} (f : Nat → α → α) : Nat → α → α
  | 0, a => a
  | n + 1, a => f n (forUp f n a)

end Sys2Proof.Machine
end

