-- ==== Sys2Proof/Machine/Flags.lean ====
section
/-! DEFINITION. The STATUS word and every change of its fields (10_state.md R26 to R31, 60_exceptions.md R221, R222). -/

namespace Sys2Proof.Machine

/-- STATUS as the host reads it: DROP in bit 8, ECODE in [7:4], INIT, ERR, DONE and BUSY in bits 3 to 0, zero above
(10_state.md R26). -/
def Status.word (t : Status) : Word :=
  0#23 ++ BitVec.ofBool t.drop ++ t.ecode ++ BitVec.ofBool t.init ++ BitVec.ofBool t.err ++ BitVec.ofBool t.done
    ++ BitVec.ofBool t.busy

/-- The ECODE of a rejection (60_exceptions.md R222). -/
def rejectCode : Reject → BitVec 4
  | .illegalOpcode => 1#4
  | .reservedBits => 2#4
  | .notInitialised => 3#4
  | .invalidKeylen => 4#4
  | .invalidCost => 5#4

/-- What an issue clears: DONE, ERR, ECODE and DROP (60_exceptions.md R221). -/
def Status.cleared (t : Status) : Status := { t with done := false, err := false, ecode := 0#4, drop := false }

/-- `Reject(code)`: ERR and ECODE (60_exceptions.md R221). -/
def Status.rejected (r : Reject) (t : Status) : Status := { t with err := true, ecode := rejectCode r }

/-- Acceptance: BUSY (60_exceptions.md R221). -/
def Status.accepted (t : Status) : Status := { t with busy := true }

/-- A write dropped while BUSY: DROP (10_state.md R31). -/
def Status.dropped (t : Status) : Status := { t with drop := true }

/-- The commands whose completion sets STATUS.INIT: INIT, EKS and BCRYPT (10_state.md R30, 42_eks_bcrypt.md R152). -/
def setsInit : Instr → Bool
  | .init | .eks _ | .bcrypt _ => true
  | .nop | .enc | .expkey _ | .expsalt _ | .expstate _ => false

/-- Completion of `i`: INIT set by the commands that set it, BUSY cleared, DONE set (42_eks_bcrypt.md R152, FINISH). -/
def Status.completed (i : Instr) (t : Status) : Status :=
  { t with init := t.init || setsInit i, busy := false, done := true }

end Sys2Proof.Machine
end

