-- ==== Sys2Proof/Machine/Ops.lean ====
section
/-! DEFINITION. The shared operations of issue, rejection, acceptance and completion (60_exceptions.md R220 to R231,
42_eks_bcrypt.md R152). A rejection is the one exception of BFEKS. There is no return from one (R230): its record lasts
until the next issue clears it. -/

namespace Sys2Proof.Machine

/-- Go on from a next state, and stop at a fault or a refusal. -/
def andThen {σ τ : Type} (o : Host.Outcome σ Fault Refusal) (f : σ → Host.Outcome τ Fault Refusal) :
    Host.Outcome τ Fault Refusal :=
  match o with
  | .next s => f s
  | .fault r => .fault r
  | .refused r => .refused r

/-- A write dropped while BUSY = 1: DROP is set, and the ghost mark (10_state.md R31, 93_implementation_defined.md I10). -/
def State.dropWrite (s : State) : State := { s with status := s.status.dropped, dropMark := true }

/-- What every issue does first: DONE, ERR, ECODE and DROP are cleared (60_exceptions.md R221). This ends the record of an
earlier rejection (R230). -/
def State.clearRecord (s : State) : State := { s with status := s.status.cleared }

/-- Taking the exception: a rejection sets ERR and ECODE and changes nothing else (60_exceptions.md R221, R229). -/
def State.reject (r : Reject) (s : State) : State := { s with status := s.status.rejected r }

/-- The commands that need STATUS.INIT = 1 (60_exceptions.md R225). -/
def needsInit : Instr → Bool
  | .enc | .expkey _ | .expsalt _ | .expstate _ => true
  | .nop | .init | .eks _ | .bcrypt _ => false

/-- The commands that need KEYLEN in [1, 73] (60_exceptions.md R226). -/
def needsKeylen : Instr → Bool
  | .expkey _ | .expstate _ | .eks _ | .bcrypt _ => true
  | .nop | .init | .enc | .expsalt _ => false

/-- The commands that need COST in [4, 31] (60_exceptions.md R227). -/
def needsCost : Instr → Bool
  | .eks _ | .bcrypt _ => true
  | .nop | .init | .enc | .expkey _ | .expsalt _ | .expstate _ => false

/-- KEYLEN is in [1, 73] (60_exceptions.md R226). -/
def State.keylenOk (s : State) : Bool := decide (1 ≤ s.keylen.toNat ∧ s.keylen.toNat ≤ Config.maxKeyLen)

/-- COST is in [4, 31] (60_exceptions.md R227). -/
def State.costOk (s : State) : Bool := decide (Config.minCost ≤ s.cost.toNat ∧ s.cost.toNat ≤ Config.maxCost)

/-- The checks of an issue that read state, in the order of 60_exceptions.md R221 and R228. -/
def issueCheck (i : Instr) (s : State) : Option Reject :=
  if needsInit i && !s.status.init then some .notInitialised
  else if needsKeylen i && !s.keylenOk then some .invalidKeylen
  else if needsCost i && !s.costOk then some .invalidCost
  else none

/-- `begin(s, x, f, g)`: start a key-XOR (42_eks_bcrypt.md R152). -/
def State.beginExpansion (src : KeySource) (x fillSalt : Bool) (stage : Stage) (s : State) : State :=
  { s with seq := { s.seq with
      src := src, sx := x, fillSalt := fillSalt, stage := stage, koff := 0, n := 0, phase := .keyxor } }

/-- Move the sequencer to a phase (00_scope.md R13). -/
def State.toPhase (p : Phase) (s : State) : State := { s with seq := { s.seq with phase := p } }

/-- The first phase of an accepted command (42_eks_bcrypt.md R152, "At acceptance"). -/
def startPhase : Instr → State → State
  | .nop => State.toPhase .finish
  | .init => State.toPhase .load
  | .enc => State.toPhase .enc
  | .expkey x => State.beginExpansion .key x false .single
  | .expsalt x => State.beginExpansion .salt x false .single
  | .expstate x => State.beginExpansion .key x true .single
  | .eks _ => State.toPhase .load
  | .bcrypt _ => State.toPhase .load

/-- The results that wait to be seen once a command is accepted (70_reset_and_hazards.md R255): BLK for ENCRYPT, DIGEST for
BCRYPT, P and S for the commands that write them, INIT among them (log entry 11, DESIGN CHOICE). -/
def Unseen.after (i : Instr) (u : Unseen) : Unseen :=
  match i with
  | .nop => u
  | .enc => { u with blkL := true, blkR := true }
  | .init | .expkey _ | .expsalt _ | .expstate _ | .eks _ => { u with cipher := true }
  | .bcrypt _ => { u with digest := true, cipher := true }

/-- Acceptance: BUSY is set, `cur` latches the command, the sequencer starts (60_exceptions.md R221). Its results wait to be
seen (70_reset_and_hazards.md R255). -/
def State.accept (i : Instr) (s : State) : State :=
  startPhase i { s with
    status := s.status.accepted, seq := { s.seq with cur := some i }, unseen := s.unseen.after i }

/-- Completion: the FINISH row of 42_eks_bcrypt.md R152. `cur` keeps the command; log entry 17, DEDUCED. -/
def State.complete (i : Instr) (s : State) : State :=
  { s with status := s.status.completed i, seq := { s.seq with phase := .idle } }

/-- The issue procedure for a decoded command (60_exceptions.md R221): dropped while BUSY, else the record is cleared and
the command is rejected, or accepted and carried on by `after`. -/
def issueCommand (i : Instr) (after : State → State) (s : State) : State :=
  if s.status.busy then s.dropWrite
  else match issueCheck i s with
    | some r => s.clearRecord.reject r
    | none => after (s.clearRecord.accept i)

/-- The issue procedure for a word that decoding refuses (60_exceptions.md R221). -/
def issueIllegal (r : Reject) (s : State) : State :=
  if s.status.busy then s.dropWrite else s.clearRecord.reject r

/-- An accepted command done whole: its effect, then its completion (00_scope.md R14). -/
def wholeCommand (i : Instr) (effect : State → State) (s : State) : State :=
  issueCommand i (fun t => (effect t).complete i) s

end Sys2Proof.Machine
end

