-- ==== Sys2Proof/Machine/Blowfish.lean ====
section
/-! DEFINITION. The Blowfish core and the commands NOP, INIT and ENCRYPT (40_blowfish.md). -/

namespace Sys2Proof.Machine

/-- `P[i]`. Its index is below 18 wherever the spec reads it (60_exceptions.md R220). -/
def Cipher.pAt (c : Cipher) (i : Nat) : Word := c.p.getD i 0#32

/-- `P[i] <- w` (00_scope.md R13). -/
def Cipher.setP (i : Nat) (w : Word) (c : Cipher) : Cipher := { c with p := c.p.setIfInBounds i w }

/-- `S[b][i]` (00_scope.md R13). -/
def Cipher.sAt (c : Cipher) (b : Fin 4) (i : Byte) : Word := (c.s.get b).get i.toFin

/-- `S[b][i] <- w` (00_scope.md R13). -/
def Cipher.setS (b i : Nat) (w : Word) (c : Cipher) : Cipher :=
  if h : b < 4 then { c with s := c.s.set b (c.s[b].setIfInBounds i w) } else c

/-- The F-function (40_blowfish.md R101): add, exclusive or, add, from the most significant byte slice down. -/
def Cipher.f (c : Cipher) (x : Word) : Word :=
  ((c.sAt 0 (x.extractLsb' 24 8) + c.sAt 1 (x.extractLsb' 16 8)) ^^^ c.sAt 2 (x.extractLsb' 8 8))
    + c.sAt 3 (x.extractLsb' 0 8)

/-- One of the sixteen rounds, with its swap (40_blowfish.md R102). -/
def Cipher.round (c : Cipher) (i : Nat) (b : Word × Word) : Word × Word :=
  (b.2 ^^^ c.f (b.1 ^^^ c.pAt i), b.1 ^^^ c.pAt i)

/-- The final unswap and the two exclusive ors (40_blowfish.md R102), from the pair the last round leaves. -/
def Cipher.whiten (c : Cipher) (b : Word × Word) : Word × Word :=
  (b.2 ^^^ c.pAt 17, b.1 ^^^ c.pAt 16)

/-- `encryptBlock(L, R)` (40_blowfish.md R102). It reads P and S and writes nothing (R103). -/
def Cipher.encryptBlock (c : Cipher) (b : Word × Word) : Word × Word := c.whiten (forUp c.round Config.rounds b)

/-- LOAD: P and S from the ROM, whatever they held (40_blowfish.md R104, 10_state.md R45). -/
def Cipher.load : Cipher where
  p := pInit
  s := sInit

/-- LOAD on the machine (40_blowfish.md R104). -/
def State.loadRom (s : State) : State := { s with cipher := Cipher.load }

/-- `(BLK_L, BLK_R) <- encryptBlock(BLK_L, BLK_R)` (40_blowfish.md R108). -/
def State.encryptBlk (s : State) : State :=
  { s with
    blkL := (s.cipher.encryptBlock (s.blkL, s.blkR)).1
    blkR := (s.cipher.encryptBlock (s.blkL, s.blkR)).2 }

/-- NOP (40_blowfish.md R106): nothing but STATUS changes. -/
def execNop (s : State) : Host.Outcome State Fault Refusal := .next (wholeCommand .nop id s)

/-- INIT (40_blowfish.md R107): load the initial constants. -/
def execInit (s : State) : Host.Outcome State Fault Refusal := .next (wholeCommand .init State.loadRom s)

/-- ENCRYPT (40_blowfish.md R108): encrypt one block in place. -/
def execEnc (s : State) : Host.Outcome State Fault Refusal := .next (wholeCommand .enc State.encryptBlk s)

end Sys2Proof.Machine
end

