-- ==== Sys2Proof/Machine/KeySchedule.lean ====
section
/-! DEFINITION. Key expansion and the commands EXPKEY, EXPSALT and EXPSTATE (41_key_schedule.md). -/

namespace Sys2Proof.Machine

/-- One step of `keyXor`: `P[i] <- P[i] ^ w` for the next stream word `w` (41_key_schedule.md R122). -/
def keyXorWord (key : List Byte) (sx : Bool) (i : Nat) (a : Cipher × Nat) : Cipher × Nat :=
  (a.1.setP i (a.1.pAt i ^^^ (streamWord key a.2 sx).1), (streamWord key a.2 sx).2)

/-- `keyXor(key, sx)`: 18 stream words, from key offset 0 (41_key_schedule.md R122). -/
def Cipher.keyXor (key : List Byte) (sx : Bool) (c : Cipher) : Cipher :=
  (forUp (keyXorWord key sx) Config.pWords (c, 0)).1

/-- What a fill carries from block to block: the cipher state, the running block and the salt offset
(41_key_schedule.md R124). -/
structure FillRun where
  cipher : Cipher
  bl : Word
  br : Word
  soff : Nat
  deriving DecidableEq, Repr

/-- The salt words of a salted block: the left half takes the first, the right half the next (41_key_schedule.md R124).
Salt bytes are zero-extended (R125). -/
def FillRun.addSalt (salt : List Byte) (r : FillRun) : FillRun :=
  { r with
    bl := r.bl ^^^ (streamWord salt r.soff false).1
    br := r.br ^^^ (streamWord salt (streamWord salt r.soff false).2 false).1
    soff := (streamWord salt (streamWord salt r.soff false).2 false).2 }

/-- `(bl, br) <- encryptBlock(bl, br)` under the current P and S (41_key_schedule.md R120, R124). -/
def FillRun.encrypt (r : FillRun) : FillRun :=
  { r with bl := (r.cipher.encryptBlock (r.bl, r.br)).1, br := (r.cipher.encryptBlock (r.bl, r.br)).2 }

/-- Block `n` of a fill is written: blocks 0 to 8 to P, two words each, then S[0] to S[3] (41_key_schedule.md R124). -/
def Cipher.storeBlock (n : Nat) (bl br : Word) (c : Cipher) : Cipher :=
  if n ≤ 8 then (c.setP (2 * n) bl).setP (2 * n + 1) br
  else (c.setS ((n - 9) / 128) (2 * ((n - 9) % 128)) bl).setS ((n - 9) / 128) (2 * ((n - 9) % 128) + 1) br

/-- The running block stored as block `n` (41_key_schedule.md R124). -/
def FillRun.store (n : Nat) (r : FillRun) : FillRun := { r with cipher := r.cipher.storeBlock n r.bl r.br }

/-- One iteration of the fill's loop (41_key_schedule.md R124). -/
def fillBlock (salted : Bool) (salt : List Byte) (n : Nat) (r : FillRun) : FillRun :=
  ((if salted then r.addSalt salt else r).encrypt).store n

/-- `fill(salted, salt)`: 521 chained block encryptions from the zero block (41_key_schedule.md R124). -/
def Cipher.fill (salted : Bool) (salt : List Byte) (c : Cipher) : Cipher :=
  (forUp (fillBlock salted salt) Config.fillBlocks ⟨c, 0#32, 0#32, 0⟩).cipher

/-- `expandKey(key, sx)` (41_key_schedule.md R126). -/
def Cipher.expandKey (key : List Byte) (sx : Bool) (c : Cipher) : Cipher := (c.keyXor key sx).fill false []

/-- `expandState(salt, key, sx)` (41_key_schedule.md R127). -/
def Cipher.expandState (salt key : List Byte) (sx : Bool) (c : Cipher) : Cipher := (c.keyXor key sx).fill true salt

/-- EXPKEY on the machine (41_key_schedule.md R131). -/
def State.expandWithKey (x : Bool) (s : State) : State := { s with cipher := s.cipher.expandKey s.keyBytes x }

/-- EXPSALT on the machine (41_key_schedule.md R132): X applies to the salt bytes here. -/
def State.expandWithSalt (x : Bool) (s : State) : State := { s with cipher := s.cipher.expandKey s.saltBytes x }

/-- EXPSTATE on the machine (41_key_schedule.md R133). -/
def State.expandWithBoth (x : Bool) (s : State) : State :=
  { s with cipher := s.cipher.expandState s.saltBytes s.keyBytes x }

/-- EXPKEY (41_key_schedule.md R131). -/
def execExpkey (x : Bool) (s : State) : Host.Outcome State Fault Refusal :=
  .next (wholeCommand (.expkey x) (State.expandWithKey x) s)

/-- EXPSALT (41_key_schedule.md R132). -/
def execExpsalt (x : Bool) (s : State) : Host.Outcome State Fault Refusal :=
  .next (wholeCommand (.expsalt x) (State.expandWithSalt x) s)

/-- EXPSTATE (41_key_schedule.md R133). -/
def execExpstate (x : Bool) (s : State) : Host.Outcome State Fault Refusal :=
  .next (wholeCommand (.expstate x) (State.expandWithBoth x) s)

end Sys2Proof.Machine
end

