-- ==== Sys2Proof/Machine/Eks.lean ====
section
/-! DEFINITION. The Eks schedule, the digest and the commands EKS and BCRYPT (42_eks_bcrypt.md). -/

namespace Sys2Proof.Machine

/-- One iteration of the Eks loop: the key alone, then the salt alone, whose bytes are never sign-extended
(42_eks_bcrypt.md R151, R154). -/
def Cipher.eksIteration (salt key : List Byte) (x : Bool) (c : Cipher) : Cipher :=
  (c.expandKey key x).expandKey salt false

/-- `repeat n times` (42_eks_bcrypt.md R151). -/
def repeatTimes {α : Type} (f : α → α) : Nat → α → α
  | 0, a => a
  | n + 1, a => f (repeatTimes f n a)

/-- `eksSetup(cost, salt, key, x)`: LOAD, one expandState, 2^cost iterations (42_eks_bcrypt.md R151). It reads no earlier
cipher state (R160). -/
def eksSetup (cost : Nat) (salt key : List Byte) (x : Bool) : Cipher :=
  repeatTimes (Cipher.eksIteration salt key x) (2 ^ cost) (Cipher.load.expandState salt key x)

/-- `CTEXT`, "OrpheanBeholderScryDoubt" in six big-endian words (42_eks_bcrypt.md R155). -/
def ctext : Vector Word 6 :=
  #v[0x4F727068#32, 0x65616E42#32, 0x65686F6C#32, 0x64657253#32, 0x63727944#32, 0x6F756274#32]

/-- Block `j` of the digest working value encrypted in place (42_eks_bcrypt.md R156). -/
def Cipher.encryptPair (ci : Cipher) (j : Nat) (c : Vector Word 6) : Vector Word 6 :=
  let e := ci.encryptBlock (c.getD (2 * j) 0#32, c.getD (2 * j + 1) 0#32)
  (c.setIfInBounds (2 * j) e.1).setIfInBounds (2 * j + 1) e.2

/-- One pass over the three blocks (42_eks_bcrypt.md R156). -/
def Cipher.digestPass (ci : Cipher) (c : Vector Word 6) : Vector Word 6 := forUp ci.encryptPair 3 c

/-- `digest()`: 64 passes from CTEXT, each taking the last one's output (42_eks_bcrypt.md R156). -/
def Cipher.digest (ci : Cipher) : Vector Word 6 := repeatTimes ci.digestPass Config.digestPasses ctext

/-- The Eks schedule on the machine (42_eks_bcrypt.md R160). -/
def State.runEks (x : Bool) (s : State) : State :=
  { s with cipher := eksSetup s.costNat s.saltBytes s.keyBytes x }

/-- The digest on the machine (42_eks_bcrypt.md R161). -/
def State.storeDigest (s : State) : State := { s with digest := s.cipher.digest }

/-- BCRYPT's effect: the Eks schedule, then the digest of the keyed state (42_eks_bcrypt.md R161). -/
def State.runBcrypt (x : Bool) (s : State) : State := (s.runEks x).storeDigest

/-- EKS (42_eks_bcrypt.md R160). -/
def execEks (x : Bool) (s : State) : Host.Outcome State Fault Refusal :=
  .next (wholeCommand (.eks x) (State.runEks x) s)

/-- BCRYPT (42_eks_bcrypt.md R161): the keyed state stays in P and S. -/
def execBcrypt (x : Bool) (s : State) : Host.Outcome State Fault Refusal :=
  .next (wholeCommand (.bcrypt x) (State.runBcrypt x) s)

end Sys2Proof.Machine
end

