-- ==== Sys2Proof/Machine/Dispatch.lean ====
section
/-! DEFINITION. One arm per command (30_encoding.md R82). -/

namespace Sys2Proof.Machine

/-- The meaning of a command issued in a state: the issue procedure (60_exceptions.md R221), and an accepted command
carried to its completion (00_scope.md R14). -/
def exec (i : Instr) (s : State) : Host.Outcome State Fault Refusal :=
  match i with
  | .nop => Sys2Proof.Machine.execNop s
  | .init => Sys2Proof.Machine.execInit s
  | .enc => Sys2Proof.Machine.execEnc s
  | .expkey x => Sys2Proof.Machine.execExpkey x s
  | .expsalt x => Sys2Proof.Machine.execExpsalt x s
  | .expstate x => Sys2Proof.Machine.execExpstate x s
  | .eks x => Sys2Proof.Machine.execEks x s
  | .bcrypt x => Sys2Proof.Machine.execBcrypt x s

end Sys2Proof.Machine
end

