-- ==== Sys2Proof/Machine/RegMap.lean ====
section
/-! DEFINITION. The register window: the map of 20_memory.md R63, what a read gives and what a write stores
(10_state.md R24 to R42, 20_memory.md R64, R65, 70_reset_and_hazards.md R256, R257). -/

namespace Sys2Proof.Machine

/-- The registers of the window (20_memory.md R63). -/
inductive Reg where
  | id
  | cmd
  | status
  | cost
  | keylen
  | blkL
  | blkR
  | keyw (k : Fin 19)
  | saltw (k : Fin 4)
  | digest (k : Fin 6)
  | p (i : Fin 18)
  | s (b : Fin 4) (i : Fin 256)
  | reserved
  deriving DecidableEq, Repr

/-- The register at an aligned offset of the window (20_memory.md R63). -/
def regAt (a : Nat) : Reg :=
  if a = 0x000 then .id
  else if a = 0x004 then .cmd
  else if a = 0x008 then .status
  else if a = 0x00C then .cost
  else if a = 0x010 then .keylen
  else if a = 0x014 then .blkL
  else if a = 0x018 then .blkR
  else if h : 0x020 ≤ a ∧ a < 0x06C then .keyw ⟨(a - 0x020) / 4, by omega⟩
  else if h : 0x070 ≤ a ∧ a < 0x080 then .saltw ⟨(a - 0x070) / 4, by omega⟩
  else if h : 0x080 ≤ a ∧ a < 0x098 then .digest ⟨(a - 0x080) / 4, by omega⟩
  else if h : 0x800 ≤ a ∧ a < 0x848 then .p ⟨(a - 0x800) / 4, by omega⟩
  else if h : 0x1000 ≤ a ∧ a < 0x2000 then .s ⟨(a - 0x1000) / 0x400, by omega⟩ ⟨(a - 0x1000) % 0x400 / 4, by omega⟩
  else .reserved

/-- The offset of a register (20_memory.md R63); a reserved offset is no one offset, and 0x01C stands for them. -/
def Reg.offset : Reg → Nat
  | .id => 0x000
  | .cmd => 0x004
  | .status => 0x008
  | .cost => 0x00C
  | .keylen => 0x010
  | .blkL => 0x014
  | .blkR => 0x018
  | .keyw k => 0x020 + 4 * k.val
  | .saltw k => 0x070 + 4 * k.val
  | .digest k => 0x080 + 4 * k.val
  | .p i => 0x800 + 4 * i.val
  | .s b i => 0x1000 + 0x400 * b.val + 4 * i.val
  | .reserved => 0x01C

/-- The registers a host write can change or that it issues through: CMD and the RW registers (20_memory.md R63,
60_exceptions.md R231). -/
def Reg.writable : Reg → Bool
  | .cmd | .cost | .keylen | .blkL | .blkR | .keyw _ | .saltw _ => true
  | .id | .status | .digest _ | .p _ | .s _ _ | .reserved => false

/-- The word a register holds, unused bits reading as zero (20_memory.md R63, R64, R65; 10_state.md R24 to R42). -/
def State.regValue (s : State) : Reg → Word
  | .id => Config.idValue
  | .cmd => 0#32
  | .status => s.status.word
  | .cost => s.cost.setWidth 32
  | .keylen => s.keylen.setWidth 32
  | .blkL => s.blkL
  | .blkR => s.blkR
  | .keyw k => bufferWord s.key k.val
  | .saltw k => bufferWord s.salt k.val
  | .digest k => s.digest.get k
  | .p i => s.cipher.p.get i
  | .s b i => (s.cipher.s.get b).get i
  | .reserved => 0#32

/-- The reads that return any value: everything but ID, STATUS, CMD and reserved offsets while BUSY = 1
(70_reset_and_hazards.md R256; CMD: log entry 8, DEDUCED), P and S while INIT = 0 (10_state.md R41, R42), and a result the
host has not yet seen completed (70_reset_and_hazards.md R255). -/
def State.readIsFree (s : State) : Reg → Bool
  | .id | .cmd | .status | .reserved => false
  | .cost | .keylen | .keyw _ | .saltw _ => s.status.busy
  | .blkL => s.status.busy || s.unseen.blkL
  | .blkR => s.status.busy || s.unseen.blkR
  | .digest _ => s.status.busy || s.unseen.digest
  | .p _ | .s _ _ => s.status.busy || !s.status.init || s.unseen.cipher

/-- What the host has seen after a read: a STATUS read that shows BUSY = 0 shows every result complete
(70_reset_and_hazards.md R255, 44_host_protocol.md R183). -/
def State.unseenAfterRead (r : Reg) (s : State) : Unseen :=
  if r = .status ∧ s.status.busy = false then .nothing else s.unseen

/-- What a host read of a register returns: its word, or a free value (70_reset_and_hazards.md R256; log entry 3, DESIGN CHOICE). -/
def State.readValue (s : State) (r : Reg) : Word :=
  if s.readIsFree r then Config.freeWord s.draws else s.regValue r

/-- A host read at offset `a`: no side effect on the engine (20_memory.md R67). The model notes what was returned and what the
host has now seen, and a free value uses up its draw. -/
def State.hostRead (a : Nat) (s : State) : State :=
  { s with
    reads := (a, s.readValue (regAt a)) :: s.reads
    draws := if s.readIsFree (regAt a) then s.draws + 1 else s.draws
    unseen := s.unseenAfterRead (regAt a) }

/-- What a write stores while BUSY = 0 (10_state.md R32, R35 to R39, 20_memory.md R64, R65). CMD stores nothing. A word of BLK
that the host stores is a command's result no longer (70_reset_and_hazards.md R255; log entry 11, DESIGN CHOICE). -/
def State.writeReg (r : Reg) (v : Word) (s : State) : State :=
  match r with
  | .cost => { s with cost := v.extractLsb' 0 8 }
  | .keylen => { s with keylen := v.extractLsb' 0 7 }
  | .blkL => { s with blkL := v, unseen := { s.unseen with blkL := false } }
  | .blkR => { s with blkR := v, unseen := { s.unseen with blkR := false } }
  | .keyw k => { s with key := setBufferWord s.key k.val v }
  | .saltw k => { s with salt := setBufferWord s.salt k.val v }
  | .id | .cmd | .status | .digest _ | .p _ | .s _ _ | .reserved => s

/-- A write of CMD that leaves an accepted command in flight, for the engine agent to carry on (60_exceptions.md R221). -/
def State.issueWord (w : Word) (s : State) : State :=
  match decode w with
  | .ok i => issueCommand i id s
  | .error r => issueIllegal r s

/-- A host write to a register (20_memory.md R67, 60_exceptions.md R231): while BUSY = 1 a write to CMD or an RW register
is dropped; a write of CMD issues; any other write stores. -/
def State.hostWrite (r : Reg) (v : Word) (s : State) : State :=
  if s.status.busy && r.writable then s.dropWrite
  else if r = .cmd then s.issueWord v
  else s.writeReg r v

/-- The refusal of a host access outside the interface (20_memory.md R60, R62); log entry 15, DESIGN CHOICE, for
the order. -/
def accessRefusal (a width : Nat) : Option Refusal :=
  if width ≠ 4 then some .accessWidth
  else if a % 4 ≠ 0 then some .accessMisaligned
  else if 0x2000 ≤ a then some .accessOutsideWindow
  else none

/-- One host access (20_memory.md R61, R62). A refusal ends the run: log entry 21, DESIGN CHOICE. -/
def hostAccess (acc : Access) (s : State) : Host.Outcome State Fault Refusal :=
  match acc with
  | .read a width =>
    match accessRefusal a width with
    | some r => .refused r
    | none => .next (s.hostRead a)
  | .write a width v =>
    match accessRefusal a width with
    | some r => .refused r
    | none => .next (s.hostWrite (regAt a) v)

end Sys2Proof.Machine
end

