-- ==== Sys2Proof/Machine/Sequencer.lean ====
section
/-! DEFINITION. The engine agent: the sequencer state machine of 42_eks_bcrypt.md R152, one row a step, over the phases and
the hidden working registers of 10_state.md R34 and R38. -/

namespace Sys2Proof.Machine

/-- Row KEYXOR, n < 18 (42_eks_bcrypt.md R152): one iteration of `keyXor`'s loop (41_key_schedule.md R122). -/
def State.keyxorStep (s : State) : State :=
  let a := keyXorWord (s.sourceBytes s.seq.src) s.seq.sx s.seq.n (s.cipher, s.seq.koff)
  { s with cipher := a.1, seq := { s.seq with koff := a.2, n := s.seq.n + 1 } }

/-- Row KEYXOR, n = 18 (42_eks_bcrypt.md R152): the fill starts from the zero block. -/
def State.beginFill (s : State) : State :=
  { s with seq := { s.seq with bl := 0#32, br := 0#32, soff := 0, n := 0, phase := .fill } }

/-- Row FILL, n < 521 (42_eks_bcrypt.md R152): one iteration of the fill's loop (41_key_schedule.md R124). -/
def State.fillStep (s : State) : State :=
  let r := fillBlock s.seq.fillSalt s.saltBytes s.seq.n ⟨s.cipher, s.seq.bl, s.seq.br, s.seq.soff⟩
  { s with cipher := r.cipher, seq := { s.seq with bl := r.bl, br := r.br, soff := r.soff, n := s.seq.n + 1 } }

/-- Rows FILL, n = 521, one for each stage (42_eks_bcrypt.md R152). `iter` has 32 bits (R153); log entry 16, DEDUCED. -/
def State.endFill (s : State) : State :=
  match s.seq.stage with
  | .single => s.toPhase .finish
  | .state => { s with seq := { s.seq with iter := BitVec.ofNat 32 (2 ^ s.costNat), phase := .loopk } }
  | .lk => s.toPhase .loops
  | .ls => { s with seq := { s.seq with iter := s.seq.iter - 1#32, phase := .loopk } }

/-- Row LOOPK, iter = 0, BCRYPT (42_eks_bcrypt.md R152): the digest starts from CTEXT. -/
def State.beginDigest (s : State) : State := { s with seq := { s.seq with c := ctext, pass := 0, phase := .digest } }

/-- Row DIGEST, pass < 64 (42_eks_bcrypt.md R152). -/
def State.digestStep (s : State) : State :=
  { s with seq := { s.seq with c := s.cipher.digestPass s.seq.c, pass := s.seq.pass + 1 } }

/-- Row DIGEST, pass = 64 (42_eks_bcrypt.md R152). -/
def State.endDigest (s : State) : State :=
  { s with digest := s.seq.c, seq := { s.seq with phase := .finish } }

/-- Phase LOAD (42_eks_bcrypt.md R152). -/
def loadRow (s : State) : Host.Outcome State Fault Refusal :=
  match s.seq.cur with
  | some .init => .next (s.loadRom.toPhase .finish)
  | some (.eks x) => .next (s.loadRom.beginExpansion .key x true .state)
  | some (.bcrypt x) => .next (s.loadRom.beginExpansion .key x true .state)
  | _ => .fault .noSequencerRow

/-- Phase KEYXOR (42_eks_bcrypt.md R152). -/
def keyxorRow (s : State) : Host.Outcome State Fault Refusal :=
  if s.seq.n < Config.pWords then .next s.keyxorStep
  else if s.seq.n = Config.pWords then .next s.beginFill
  else .fault .noSequencerRow

/-- Phase FILL (42_eks_bcrypt.md R152). -/
def fillRow (s : State) : Host.Outcome State Fault Refusal :=
  if s.seq.n < Config.fillBlocks then .next s.fillStep
  else if s.seq.n = Config.fillBlocks then .next s.endFill
  else .fault .noSequencerRow

/-- Phase LOOPK (42_eks_bcrypt.md R152). -/
def loopkRow (s : State) : Host.Outcome State Fault Refusal :=
  match s.seq.cur with
  | some (.eks x) =>
    if s.seq.iter = 0#32 then .next (s.toPhase .finish) else .next (s.beginExpansion .key x false .lk)
  | some (.bcrypt x) =>
    if s.seq.iter = 0#32 then .next s.beginDigest else .next (s.beginExpansion .key x false .lk)
  | _ => .fault .noSequencerRow

/-- Phase DIGEST (42_eks_bcrypt.md R152). -/
def digestRow (s : State) : Host.Outcome State Fault Refusal :=
  if s.seq.pass < Config.digestPasses then .next s.digestStep
  else if s.seq.pass = Config.digestPasses then .next s.endDigest
  else .fault .noSequencerRow

/-- Phase FINISH (42_eks_bcrypt.md R152). -/
def finishRow (s : State) : Host.Outcome State Fault Refusal :=
  match s.seq.cur with
  | some i => .next (s.complete i)
  | none => .fault .noSequencerRow

/-- One engine step, by the row of the phase (42_eks_bcrypt.md R152). -/
def sequencerStep (s : State) : Host.Outcome State Fault Refusal :=
  match s.seq.phase with
  | .idle => .next s
  | .load => loadRow s
  | .enc => .next (s.encryptBlk.toPhase .finish)
  | .keyxor => keyxorRow s
  | .fill => fillRow s
  | .loopk => loopkRow s
  | .loops => .next (s.beginExpansion .salt false false .ls)
  | .digest => digestRow s
  | .finish => finishRow s

/-- The engine's turn: a sequencer step while BUSY = 1, and no step while IDLE (42_eks_bcrypt.md R152). -/
def engineTurn (s : State) : Host.Outcome State Fault Refusal :=
  if s.status.busy then sequencerStep s else .next s

/-- `k` engine turns with no host action between them. -/
def engineTurns : Nat → State → Host.Outcome State Fault Refusal
  | 0, s => .next s
  | k + 1, s =>
    match engineTurn s with
    | .next t => engineTurns k t
    | .fault f => .fault f
    | .refused r => .refused r

/-- Sequencer steps from acceptance to IDLE (70_reset_and_hazards.md R259), with `c` the cost. -/
def sequencerSteps (i : Instr) (c : Nat) : Nat :=
  match i with
  | .nop => 1
  | .init => 2
  | .enc => 2
  | .expkey _ => 542
  | .expsalt _ => 542
  | .expstate _ => 542
  | .eks _ => 544 + 1084 * 2 ^ c
  | .bcrypt _ => 609 + 1084 * 2 ^ c

/-- Steps from LOOPK with no iteration left to IDLE (42_eks_bcrypt.md R152). -/
def stepsAfterLoop (cur : Option Instr) : Nat :=
  match cur with
  | some (.bcrypt _) => 67
  | _ => 2

/-- Steps from LOOPK with `n` iterations left. -/
def stepsOfLoop (cur : Option Instr) (n : Nat) : Nat := 1084 * n + stepsAfterLoop cur

/-- Steps left once a fill is done, by the stage it belongs to. -/
def stepsAfterFill (s : State) : Nat :=
  match s.seq.stage with
  | .single => 1
  | .state => stepsOfLoop s.seq.cur (2 ^ s.costNat)
  | .lk => 542 + stepsOfLoop s.seq.cur (s.seq.iter.toNat - 1)
  | .ls => stepsOfLoop s.seq.cur (s.seq.iter.toNat - 1)

/-- Engine steps left to the command in flight, none while IDLE (70_reset_and_hazards.md R258, R259). -/
def State.remaining (s : State) : Nat :=
  if s.status.busy then
    match s.seq.phase with
    | .idle => 0
    | .load => match s.seq.cur with
      | some .init => 2
      | cur => 542 + stepsOfLoop cur (2 ^ s.costNat)
    | .enc => 2
    | .keyxor => (18 - s.seq.n) + 523 + stepsAfterFill s
    | .fill => (521 - s.seq.n) + 1 + stepsAfterFill s
    | .loopk => stepsOfLoop s.seq.cur s.seq.iter.toNat
    | .loops => 542 + stepsOfLoop s.seq.cur (s.seq.iter.toNat - 1)
    | .digest => (64 - s.seq.pass) + 2
    | .finish => 1
  else 0

end Sys2Proof.Machine
end

