-- ==== Sys2Proof/Machine/Issue.lean ====
section
/-! DEFINITION. The steps of the two agents (00_scope.md R6, 44_host_protocol.md R180): a command word issued and run, and
reset; and the word that step takes its next command from. -/

namespace Sys2Proof.Machine

/-- A write of CMD whose command runs to completion before the host's next action (00_scope.md R8 with LAT = 0, R14):
the decoded command's meaning, or the rejection of a word that decoding refuses (60_exceptions.md R221). -/
def runWord (w : Word) (s : State) : Host.Outcome State Fault Refusal :=
  match decode w with
  | .ok i => exec i s
  | .error r => .next (issueIllegal r s)

/-- Reset (70_reset_and_hazards.md R250 to R252): every piece of the engine's state takes its reset value at once, whatever
was in flight. The model's own fields and the ghost mark stay; log entries 9 and 12, DESIGN CHOICE. -/
def State.applyReset (s : State) : State :=
  { State.reset with dropMark := s.dropMark, inputs := s.inputs, reads := s.reads, draws := s.draws }

/-- One step for one input. -/
def takeInput (inp : Input) (s : State) : Host.Outcome State Fault Refusal :=
  match inp with
  | .access a => hostAccess a s
  | .reset => .next s.applyReset
  | .engine => engineTurn s
  | .run w => runWord w s

/-- The command word of a table instruction of `nbits` bits (30_encoding.md R80: 32 bits, the bits above `nbits` zero); log entry 22,
DEDUCED. -/
def tableWord (nbits w : Nat) : Word := BitVec.ofNat 32 (w % 2 ^ nbits)

/-- Put a command word where the next step takes its command from: the head of the inputs; log entry 6,
DESIGN CHOICE. -/
def State.placeCommand (w : Word) (s : State) : State := { s with inputs := .run w :: s.inputs }

end Sys2Proof.Machine
end

