-- ==== Sys2Proof/Machine/Step.lean ====
section
/-! DEFINITION. The step function: the next input, and with no input left the engine goes on (70_reset_and_hazards.md R258). -/

namespace Sys2Proof.Machine

/-- One step of the machine. With no input the engine takes its turn, so a command in flight is carried on to its
completion (70_reset_and_hazards.md R258); an IDLE engine waits (R251). -/
def step (s : State) : Host.Outcome State Fault Refusal :=
  match s.inputs with
  | [] => engineTurn s
  | inp :: rest => takeInput inp { s with inputs := rest }

/-- `s` with the table instruction `w` of `nbits` bits as the very next thing to run: the host's write of it to CMD stands
first among the inputs. Nothing else changes; log entry 6, DESIGN CHOICE. -/
def State.withFetchWord (s : State) (nbits w : Nat) : State := s.placeCommand (tableWord nbits w)

end Sys2Proof.Machine
end

