-- ==== Sys2Proof/Machine/Radix64.lean ====
section
/-! DEFINITION. The radix-64 codec of the host software (44_host_protocol.md R195 to R198). Strings are lists of characters. -/

namespace Sys2Proof.Machine.Radix64

/-- The alphabet, index 0 first (44_host_protocol.md R195). -/
def alphabet : List Char := "./ABCDEFGHIJKLMNOPQRSTUVWXYZabcdefghijklmnopqrstuvwxyz0123456789".toList

/-- The symbol of an index (44_host_protocol.md R195, R196: `A[k]`). -/
def symbol (k : BitVec 6) : Char := alphabet.getD k.toNat '.'

/-- The index of a symbol, none for a character outside the alphabet (44_host_protocol.md R195, R197). -/
def index (c : Char) : Option (BitVec 6) := (alphabet.idxOf? c).map (BitVec.ofNat 6)

/-- Encoding, 6 bits a symbol from the most significant bit down; 3 bytes give 4 symbols, a last group of 1 byte gives 2
and one of 2 bytes gives 3 (44_host_protocol.md R196). -/
def encode : List Byte → List Char
  | [] => []
  | [a] => [symbol (a.extractLsb' 2 6), symbol (a.extractLsb' 0 2 ++ 0#4)]
  | [a, b] => [symbol (a.extractLsb' 2 6), symbol (a.extractLsb' 0 2 ++ b.extractLsb' 4 4), symbol (b.extractLsb' 0 4 ++ 0#2)]
  | a :: b :: c :: rest =>
    symbol (a.extractLsb' 2 6) :: symbol (a.extractLsb' 0 2 ++ b.extractLsb' 4 4)
      :: symbol (b.extractLsb' 0 4 ++ c.extractLsb' 6 2) :: symbol (c.extractLsb' 0 6) :: encode rest

/-- The bytes of a list of indices, unused low bits of the last one ignored, a lone last one giving nothing
(44_host_protocol.md R197). -/
def decodeIndices : List (BitVec 6) → List Byte
  | [] => []
  | [_] => []
  | [v0, v1] => [v0 ++ v1.extractLsb' 4 2]
  | [v0, v1, v2] => [v0 ++ v1.extractLsb' 4 2, v1.extractLsb' 0 4 ++ v2.extractLsb' 2 4]
  | v0 :: v1 :: v2 :: v3 :: rest =>
    (v0 ++ v1.extractLsb' 4 2) :: (v1.extractLsb' 0 4 ++ v2.extractLsb' 2 4) :: (v2.extractLsb' 0 2 ++ v3)
      :: decodeIndices rest

/-- Decoding to at most `maxBytes` bytes; none where a character is outside the alphabet (44_host_protocol.md R197). -/
def decode (s : List Char) (maxBytes : Nat) : Option (List Byte) :=
  (s.mapM index).map fun v => (decodeIndices v).take maxBytes

end Sys2Proof.Machine.Radix64
end

