-- ==== Sys2Proof/Machine/HashString.lean ====
section
/-! DEFINITION. Version tags, key preparation and the hash string of the host software (44_host_protocol.md R190 to R202). -/

namespace Sys2Proof.Machine

/-- The version tags, a closed set (44_host_protocol.md R192). -/
inductive Tag where
  | v2 | v2a | v2b | v2x | v2y
  deriving DecidableEq, Repr

/-- The text of a tag (44_host_protocol.md R192). -/
def Tag.text : Tag → List Char
  | .v2 => "2".toList
  | .v2a => "2a".toList
  | .v2b => "2b".toList
  | .v2x => "2x".toList
  | .v2y => "2y".toList

/-- The tag of a text (44_host_protocol.md R200, step 3). -/
def Tag.ofText (t : List Char) : Option Tag := [Tag.v2, .v2a, .v2b, .v2x, .v2y].find? fun g => g.text == t

/-- The X bit of a tag: 1 exactly for 2x (44_host_protocol.md R193). -/
def Tag.x : Tag → Bool
  | .v2x => true
  | .v2 | .v2a | .v2b | .v2y => false

/-- The spec's default for the parameter DEFAULT_TAG (00_scope.md R8, 92_eei_decisions.md D34); the functions take the tag as
an argument. -/
def specDefaultTag : Tag := .v2a

/-- Key preparation: the first 72 bytes of the password and a NUL (44_host_protocol.md R190). -/
def prepareKey (password : List Byte) : List Byte := password.take Config.passwordBytes ++ [0x00#8]

/-- The error kinds of the host software (44_host_protocol.md R201). -/
inductive HostError where
  | invalidCost
  | malformedHash
  | unsupportedVersion
  | saltGenerationFailed
  deriving DecidableEq, Repr

/-- The engine code that backs an error kind (44_host_protocol.md R201). -/
def HostError.backstop : HostError → Option Reject
  | .invalidCost => some .invalidCost
  | .malformedHash | .unsupportedVersion | .saltGenerationFailed => none

/-- A cost the host software accepts (44_host_protocol.md R200, step 5; R203, step 1). -/
def costInRange (cost : Nat) : Bool := decide (Config.minCost ≤ cost ∧ cost ≤ Config.maxCost)

/-- A decimal digit (44_host_protocol.md R199). -/
def digitChar (d : Nat) : Char := "0123456789".toList.getD d '0'

/-- The value of a decimal digit, none for another character (44_host_protocol.md R200, step 4). -/
def digitValue (c : Char) : Option Nat := "0123456789".toList.idxOf? c

/-- The cost as exactly two decimal digits (44_host_protocol.md R199). -/
def costText (cost : Nat) : List Char := [digitChar (cost / 10 % 10), digitChar (cost % 10)]

/-- The encoded hash: tag, cost, salt and the first 23 bytes of the raw digest (44_host_protocol.md R199, R207). -/
def formatHash (tag : Tag) (cost : Nat) (salt raw : List Byte) : List Char :=
  '$' :: tag.text ++ '$' :: costText cost ++ '$' :: Radix64.encode salt ++ Radix64.encode (raw.take 23)

/-- What a hash string holds (44_host_protocol.md R200). -/
structure Parsed where
  tag : Tag
  cost : Nat
  salt : List Byte
  digestPart : List Byte
  deriving DecidableEq, Repr

/-- Steps 6 to 8 of parsing (44_host_protocol.md R200): the salt and digest symbols after the third `$`. -/
def parseRest (tag : Tag) (cost : Nat) (rest : List Char) : Except HostError Parsed :=
  if 22 ≤ rest.length ∧ rest.length ≤ 53 then
    match Radix64.decode (rest.take 22) 16, Radix64.decode (rest.drop 22) 23 with
    | some salt, some digest => .ok ⟨tag, cost, salt, digest⟩
    | _, _ => .error .malformedHash
  else .error .malformedHash

/-- Steps 4 and 5 of parsing (44_host_protocol.md R200): two decimal digits and a `$`, then the range of the cost. -/
def parseCost (tag : Tag) (h : List Char) : Except HostError Parsed :=
  match h with
  | d1 :: d0 :: '$' :: rest =>
    match digitValue d1, digitValue d0 with
    | some v1, some v0 =>
      if costInRange (10 * v1 + v0) then parseRest tag (10 * v1 + v0) rest else .error .invalidCost
    | _, _ => .error .malformedHash
  | _ => .error .malformedHash

/-- Parsing a hash string, the tests in the order of 44_host_protocol.md R200. -/
def parseHash (h : List Char) : Except HostError Parsed :=
  match h with
  | '$' :: t =>
    match t.dropWhile (· ≠ '$') with
    | '$' :: rest =>
      if t.takeWhile (· ≠ '$') = [] then .error .malformedHash
      else match Tag.ofText (t.takeWhile (· ≠ '$')) with
        | some tag => parseCost tag rest
        | none => .error .unsupportedVersion
    | _ => .error .malformedHash
  | _ => .error .malformedHash

end Sys2Proof.Machine
end

