-- ==== Sys2Proof/Machine/HostProgram.lean ====
section
/-! DEFINITION. The host's side of the interface: mnemonics, register names, host program lines and their expansions
(30_encoding.md R89 to R91), and the running of a host program (70_reset_and_hazards.md R261). -/

namespace Sys2Proof.Machine

/-- The mnemonic of a command, `.x` where X = 1 (30_encoding.md R89). -/
def mnemonicOf : Instr → List Char
  | .nop => "bf.nop".toList
  | .init => "bf.init".toList
  | .enc => "bf.enc".toList
  | .expkey x => "bf.expkey".toList ++ (if x then ".x".toList else [])
  | .expsalt x => "bf.expsalt".toList ++ (if x then ".x".toList else [])
  | .expstate x => "bf.expstate".toList ++ (if x then ".x".toList else [])
  | .eks x => "bf.eks".toList ++ (if x then ".x".toList else [])
  | .bcrypt x => "bf.bcrypt".toList ++ (if x then ".x".toList else [])

/-- Every command (30_encoding.md R82). -/
def allInstrs : List Instr :=
  [.nop, .init, .enc, .expkey false, .expkey true, .expsalt false, .expsalt true, .expstate false, .expstate true,
    .eks false, .eks true, .bcrypt false, .bcrypt true]

/-- The word a mnemonic assembles to, none for an assembly error such as `bf.nop.x` (30_encoding.md R89). -/
def assemble (m : List Char) : Option Word := (allInstrs.find? fun i => mnemonicOf i == m).map encode

/-- The name of a register, spelled without brackets (30_encoding.md R90); a reserved offset has none. -/
def regName : Reg → Option (List Char)
  | .id => some "ID".toList
  | .cmd => some "CMD".toList
  | .status => some "STATUS".toList
  | .cost => some "COST".toList
  | .keylen => some "KEYLEN".toList
  | .blkL => some "BLK_L".toList
  | .blkR => some "BLK_R".toList
  | .keyw k => some ("KEYW".toList ++ Nat.toDigits 10 k.val)
  | .saltw k => some ("SALTW".toList ++ Nat.toDigits 10 k.val)
  | .digest k => some ("DIGEST".toList ++ Nat.toDigits 10 k.val)
  | .p i => some ('P' :: Nat.toDigits 10 i.val)
  | .s b i => some ('S' :: Nat.toDigits 10 b.val ++ '_' :: Nat.toDigits 10 i.val)
  | .reserved => none

/-- The offset a register name stands for (30_encoding.md R90): the one aligned offset of the window that has that name. -/
def offsetOfName (name : List Char) : Option Nat :=
  ((List.range 0x800).map (4 * ·)).find? fun a => regName (regAt a) == some name

/-- The writes of `ldkey`: the words of KEYW that hold the bytes, bytes past the last taken as 00, then KEYLEN
(30_encoding.md R91); log entry 20, DESIGN CHOICE, for fewer than 1 or more than 73 bytes. -/
def ldkeyWrites (b : List Byte) : List (Nat × Word) :=
  (List.range ((b.length + 3) / 4)).map (fun k =>
      (0x020 + 4 * k, be32 (b.getD (4 * k) 0) (b.getD (4 * k + 1) 0) (b.getD (4 * k + 2) 0) (b.getD (4 * k + 3) 0)))
    ++ [(0x010, BitVec.ofNat 32 b.length)]

/-- The writes of `ldsalt`: the four words of SALTW (30_encoding.md R91). R91 gives it for 16 bytes; bytes it lacks are taken as
00 and further ones ignored: log entry 20, DESIGN CHOICE. -/
def ldsaltWrites (b : List Byte) : List (Nat × Word) :=
  (List.range 4).map fun k =>
    (0x070 + 4 * k, be32 (b.getD (4 * k) 0) (b.getD (4 * k + 1) 0) (b.getD (4 * k + 2) 0) (b.getD (4 * k + 3) 0))

/-- A line of a host program (30_encoding.md R90, R91). `repeat` is `repeatLines`; a comment has no line. -/
inductive Line where
  /-- `wr NAME, imm32` -/
  | wr (a : Nat) (v : Word)
  /-- `rd NAME -> v` -/
  | rd (a : Nat) (v : List Char)
  /-- `bf.<name>[.x]` -/
  | cmd (i : Instr)
  /-- `wait` -/
  | wait
  /-- `run bf.<name>[.x]` -/
  | run (i : Instr)
  /-- `ldkey b0 ... b(n-1)` -/
  | ldkey (b : List Byte)
  /-- `ldsalt b0 ... b15` -/
  | ldsalt (b : List Byte)
  /-- `ldblk L, R` -/
  | ldblk (l r : Word)
  /-- `check v == imm` -/
  | check (v : List Char) (imm : Word)
  deriving DecidableEq, Repr

/-- `repeat N { body }` (30_encoding.md R91): host-side control flow. -/
def repeatLines (n : Nat) (body : List Line) : List Line := (List.replicate n body).flatten

/-- The accesses a line makes, less the polling of a `wait` (30_encoding.md R90, R91). -/
def Line.accesses : Line → List Access
  | .wr a v => [.write a 4 v]
  | .rd a _ => [.read a 4]
  | .cmd i => [.write 0x004 4 (encode i)]
  | .run i => [.write 0x004 4 (encode i)]
  | .ldkey b => (ldkeyWrites b).map fun av => .write av.1 4 av.2
  | .ldsalt b => (ldsaltWrites b).map fun av => .write av.1 4 av.2
  | .ldblk l r => [.write 0x014 4 l, .write 0x018 4 r]
  | .wait => []
  | .check _ _ => []

/-- The lines that end in a `wait` (30_encoding.md R91). -/
def Line.waits : Line → Bool
  | .wait | .run _ => true
  | .wr _ _ | .rd _ _ | .cmd _ | .ldkey _ | .ldsalt _ | .ldblk _ _ | .check _ _ => false

/-- Host accesses made one after another in program order (20_memory.md R70). -/
def hostAccesses : List Access → State → Host.Outcome State Fault Refusal
  | [], s => .next s
  | a :: rest, s => andThen (hostAccess a s) (hostAccesses rest)

/-- `wait`: STATUS is read until it shows BUSY = 0 (30_encoding.md R91, 44_host_protocol.md R183). The list gives the engine
turns that fall between one read and the next; when it is used up the engine takes all the turns it still needs, as its
fairness says it will (70_reset_and_hazards.md R258); log entry 19, DESIGN CHOICE. -/
def waitOn : List Nat → State → Host.Outcome State Fault Refusal
  | [], s => andThen (engineTurns s.remaining s) (hostAccess (.read 0x008 4))
  | k :: rest, s =>
    andThen (hostAccess (.read 0x008 4) s) fun t =>
      if t.status.busy then andThen (engineTurns k t) (waitOn rest) else .next t

/-- The scheduler's choices for one line (00_scope.md R8): the engine turns before it, and those between the polls of its
`wait`. -/
structure Schedule where
  before : Nat
  polls : List Nat
  deriving DecidableEq, Repr

/-- A host program under way: the machine, the host's variables, and whether every `check` so far held. -/
structure HostRun where
  machine : State
  vars : List (List Char × Word)
  ok : Bool
  deriving DecidableEq, Repr

/-- The host's own part of a line: `rd` binds the word just read, `check` compares (30_encoding.md R90, R91). A `check` on a
variable that no `rd` has bound counts as failed: log entry 23, DESIGN CHOICE. The `t` of R91's expansion of
`wait` is scratch, so a `wait` binds no variable: log entry 24, DESIGN CHOICE. -/
def Line.hostPart (l : Line) (h : HostRun) : HostRun :=
  match l with
  | .rd _ v => { h with vars := (h.machine.reads.head?.map fun aw => (v, aw.2)).toList ++ h.vars }
  | .check v imm => { h with ok := h.ok && h.vars.lookup v == some imm }
  | .wr _ _ | .cmd _ | .wait | .run _ | .ldkey _ | .ldsalt _ | .ldblk _ _ => h

/-- The machine's part of a line under a schedule. -/
def Line.machinePart (sch : Schedule) (l : Line) (s : State) : Host.Outcome State Fault Refusal :=
  andThen (engineTurns sch.before s) fun t =>
    andThen (hostAccesses l.accesses t) fun u => if l.waits then waitOn sch.polls u else .next u

/-- A host program run line by line, each line under its schedule (none left: no turn before it, no poll before the engine
is done). -/
def runLines : List Line → List Schedule → HostRun → Host.Outcome HostRun Fault Refusal
  | [], _, h => .next h
  | l :: rest, schs, h =>
    andThen (l.machinePart (schs.headD ⟨0, []⟩) h.machine) fun m =>
      runLines rest schs.tail (l.hostPart { h with machine := m })

/-- A run has ended: the host program is done and the engine is IDLE with BUSY = 0 (70_reset_and_hazards.md R261). -/
def runEnded (linesLeft : List Line) (s : State) : Bool :=
  linesLeft.isEmpty && decide (s.seq.phase = .idle) && !s.status.busy

end Sys2Proof.Machine
end

