-- ==== Sys2Proof/Machine/Library.lean ====
section
/-! DEFINITION. `hash` and `verify` of the host software, run on an engine (44_host_protocol.md R202 to R213). -/

namespace Sys2Proof.Machine

/-- The operand writes of a hash: COST, KEY with KEYLEN, SALT (44_host_protocol.md R181, R203 step 5; 30_encoding.md R91). -/
def operandWrites (cost : Nat) (key salt : List Byte) : List (Nat × Word) :=
  (0x00C, BitVec.ofNat 32 cost) :: ldkeyWrites key ++ ldsaltWrites salt

/-- Host writes made one after another (20_memory.md R70). -/
def State.hostWrites (ws : List (Nat × Word)) (s : State) : State :=
  ws.foldl (fun t av => t.hostWrite (regAt av.1) av.2) s

/-- `run bf.bcrypt[.x]` with X (44_host_protocol.md R203, step 5; 30_encoding.md R91): the command, done whole
(00_scope.md R14), and the `wait`, whose one STATUS read then shows BUSY = 0; log entry 19, DESIGN CHOICE. -/
def State.runBcryptCommand (x : Bool) (s : State) : State :=
  (wholeCommand (.bcrypt x) (State.runBcrypt x) s).hostRead 0x008

/-- Host reads made one after another (20_memory.md R70). -/
def State.hostReads (offsets : List Nat) (s : State) : State := offsets.foldl (fun t a => t.hostRead a) s

/-- The offsets of DIGEST[0..5] (20_memory.md R63). -/
def digestOffsets : List Nat := [0x080, 0x084, 0x088, 0x08C, 0x090, 0x094]

/-- The 24 bytes read from DIGEST[0..5] (42_eks_bcrypt.md R157; 44_host_protocol.md R203, step 6). -/
def State.readDigest (s : State) : List Byte :=
  (((s.hostReads digestOffsets).reads.take 6).reverse).flatMap fun aw => unbe32 aw.2

/-- The engine after a hash's operands are loaded and BCRYPT has run on it (44_host_protocol.md R203, step 5). -/
def engineAfterHash (tag : Tag) (cost : Nat) (salt password : List Byte) (e : State) : State :=
  (e.hostWrites (operandWrites cost (prepareKey password) salt)).runBcryptCommand tag.x

/-- Steps 4 to 7 of `hash` (44_host_protocol.md R203, R204). -/
def hashWith (tag : Tag) (cost : Nat) (salt password : List Byte) (e : State) : List Char :=
  formatHash tag cost salt (engineAfterHash tag cost salt password e).readDigest

/-- `hash(password, cost, rng)` (44_host_protocol.md R203): `rng` is what the random source returned, none for its failure
(R213); log entry 18, DESIGN CHOICE. -/
def hashNew (defaultTag : Tag) (password : List Byte) (cost : Nat) (rng : Option (Vector Byte 16)) (e : State) :
    Except HostError (List Char) :=
  if costInRange cost then
    match rng with
    | some salt => .ok (hashWith defaultTag cost salt.toList password e)
    | none => .error .saltGenerationFailed
  else .error .invalidCost

/-- `hash(password, existing)` (44_host_protocol.md R204): the digest part of `existing` is ignored. -/
def hashExisting (password : List Byte) (existing : List Char) (e : State) : Except HostError (List Char) :=
  match parseHash existing with
  | .ok p => .ok (hashWith p.tag p.cost p.salt password e)
  | .error k => .error k

/-- The result of `verify` (44_host_protocol.md R205). -/
inductive VerifyResult where
  | matched
  | noMatch
  | error (kind : HostError)
  deriving DecidableEq, Repr

/-- `verify(password, stored)` (44_host_protocol.md R205). How long the comparison takes (R206) does not show in the result. -/
def verify (password : List Byte) (stored : List Char) (e : State) : VerifyResult :=
  match hashExisting password stored e with
  | .ok h => if h = stored then .matched else .noMatch
  | .error k => .error k

end Sys2Proof.Machine
end

