-- ==== Sys2Proof/Safety.lean ====
section
/-! DEFINITION. What the claims call a legal state, an accepted command, and the part of a state that commands leave
results in. -/

namespace Sys2Proof.Machine

/-- The invariants of STATUS (10_state.md R26, R29): at most one of BUSY, DONE and ERR is 1, ECODE is not zero exactly when
ERR = 1, and ECODE values 6 to 15 are never produced. -/
def Status.Legal (t : Status) : Prop :=
  ¬(t.busy = true ∧ t.done = true) ∧ ¬(t.busy = true ∧ t.err = true) ∧ ¬(t.done = true ∧ t.err = true)
    ∧ (t.ecode ≠ 0#4 ↔ t.err = true) ∧ t.ecode.toNat ≤ 5

/-- The ranges of the working registers (10_state.md R38). -/
def Seq.InRange (q : Seq) : Prop := q.koff ≤ 72 ∧ q.soff ≤ 15 ∧ q.n ≤ 521 ∧ q.pass ≤ 64

/-- The expansion in hand belongs to the command in flight (42_eks_bcrypt.md R152): a single expansion to EXPKEY, EXPSALT or
EXPSTATE, every other stage to EKS or BCRYPT; within the Eks loop an iteration is still to do; KEY is the source only of
commands whose KEYLEN was checked. -/
def Seq.ExpansionOf (q : Seq) (i : Instr) : Prop :=
  (q.src = .key → needsKeylen i = true) ∧
  match q.stage with
  | .single => ∃ x, i = .expkey x ∨ i = .expsalt x ∨ i = .expstate x
  | .state => needsCost i = true
  | .lk => needsCost i = true ∧ q.iter ≠ 0#32
  | .ls => needsCost i = true ∧ q.iter ≠ 0#32

/-- The phases a command in flight can be in, with what the rows of 42_eks_bcrypt.md R152 ask of the registers there. -/
def Seq.PhaseOf (q : Seq) (i : Instr) : Prop :=
  match q.phase with
  | .idle => False
  | .load => i = .init ∨ needsCost i = true
  | .enc => i = .enc
  | .keyxor => q.n ≤ 18 ∧ q.ExpansionOf i
  | .fill => q.n ≤ 521 ∧ q.ExpansionOf i
  | .loopk => needsCost i = true
  | .loops => needsCost i = true ∧ q.iter ≠ 0#32
  | .digest => q.pass ≤ 64 ∧ ∃ x, i = .bcrypt x
  | .finish => True

/-- A command is in flight: it is latched, it passed the checks of its issue, which still hold because its operands are
stable (20_memory.md R70), and the phase is one of its phases. -/
def State.InFlight (s : State) : Prop :=
  ∃ i, s.seq.cur = some i ∧ issueCheck i s = none ∧ s.seq.PhaseOf i

/-- The machine's invariant: STATUS is legal, the working registers are in range, BUSY = 1 exactly while a command is in
flight (00_scope.md R6, 10_state.md R27) and the phase is IDLE otherwise (R34), and DROP is never set without the ghost
mark (93_implementation_defined.md I10). -/
structure State.Inv (s : State) : Prop where
  status : s.status.Legal
  ranges : s.seq.InRange
  busy : s.status.busy = true → s.InFlight
  idle : s.status.busy = false → s.seq.phase = .idle
  mark : s.status.drop = true → s.dropMark = true

/-- The conditions of 60_exceptions.md R221 under which the issue of `i` is accepted. -/
def State.Accepts (s : State) (i : Instr) : Prop :=
  s.status.busy = false
    ∧ (needsInit i = true → s.status.init = true)
    ∧ (needsKeylen i = true → 1 ≤ s.keylen.toNat ∧ s.keylen.toNat ≤ 73)
    ∧ (needsCost i = true → 4 ≤ s.cost.toNat ∧ s.cost.toNat ≤ 31)

/-- The state with the working registers of the sequencer, which the host cannot observe (10_state.md R38), at fixed values;
the phase and the command latch are kept. -/
def State.hideWork (s : State) : State :=
  { s with seq := { Seq.reset with phase := s.seq.phase, cur := s.seq.cur } }

/-- The state without what the host's own actions leave in it: its reads, the free values they drew, the dropped writes and
the inputs to come. -/
def State.hideHost (s : State) : State :=
  { s with status := { s.status with drop := false }, dropMark := false, inputs := [], reads := [], draws := 0 }

/-- What commands and operand writes leave: everything but STATUS, the sequencer and the model's own fields. Two states
that agree on it agree on P, S, COST, KEYLEN, KEY, SALT, BLK_L, BLK_R and DIGEST. -/
def State.SameData (s t : State) : Prop :=
  t.cipher = s.cipher ∧ t.cost = s.cost ∧ t.keylen = s.keylen ∧ t.key = s.key ∧ t.salt = s.salt
    ∧ t.blkL = s.blkL ∧ t.blkR = s.blkR ∧ t.digest = s.digest

/-- The operand registers, which no command writes (30_encoding.md R84). -/
def State.SameOperands (s t : State) : Prop :=
  t.cost = s.cost ∧ t.keylen = s.keylen ∧ t.key = s.key ∧ t.salt = s.salt

/-- The model's own fields, the ghost mark and what the host has seen. -/
def State.SameModel (s t : State) : Prop :=
  t.dropMark = s.dropMark ∧ t.inputs = s.inputs ∧ t.reads = s.reads ∧ t.draws = s.draws ∧ t.unseen = s.unseen

/-- STATUS after a completed command: DONE, and INIT as given (10_state.md R26, R28). -/
def Status.doneWith (init : Bool) : Status where
  busy := false
  done := true
  err := false
  init := init
  ecode := 0#4
  drop := false

/-- STATUS after a rejection: ERR and ECODE, and INIT as it was (60_exceptions.md R229). -/
def Status.rejectedWith (code : BitVec 4) (init : Bool) : Status where
  busy := false
  done := false
  err := true
  init := init
  ecode := code
  drop := false

/-- The sequencer IDLE after the command `i`, its working registers at the fixed values of `State.hideWork`. -/
def Seq.idleAfter (i : Instr) : Seq := { Seq.reset with phase := .idle, cur := some i }

/-- The rejection code of an issue as a function of the word, STATUS.INIT, KEYLEN and COST, zero where the command is
accepted: the first condition that applies, in the order of 60_exceptions.md R228, each as R223 to R227 say it. -/
def rejectionCode (w : Nat) (init : Bool) (keylen cost : Nat) : Nat :=
  if 0x08 ≤ w % 256 then 1
  else if w / 512 ≠ 0 ∨ (w / 256 % 2 = 1 ∧ w % 256 ≤ 2) then 2
  else if (w % 256 = 2 ∨ w % 256 = 3 ∨ w % 256 = 4 ∨ w % 256 = 5) ∧ init = false then 3
  else if (w % 256 = 3 ∨ w % 256 = 5 ∨ w % 256 = 6 ∨ w % 256 = 7) ∧ ¬(1 ≤ keylen ∧ keylen ≤ 73) then 4
  else if (w % 256 = 6 ∨ w % 256 = 7) ∧ ¬(4 ≤ cost ∧ cost ≤ 31) then 5
  else 0

/-- Commands issued one after another, each run to its end. -/
def runCommands : List Instr → State → Host.Outcome State Fault Refusal
  | [], s => .next s
  | i :: rest, s => andThen (exec i s) (runCommands rest)

/-- The machine stepped `k` times, stopping at the first fault or refusal. -/
def runSteps : Nat → State → Host.Outcome State Fault Refusal
  | 0, s => .next s
  | k + 1, s => andThen (step s) (runSteps k)

/-- A host access inside the interface (20_memory.md R60 to R62). -/
def Access.Wf : Access → Prop
  | .read a width => accessWf a width = true
  | .write a width _ => accessWf a width = true

/-- An engine turn, or a host access inside the interface: what can fall between a command's issue and its completion. -/
def Input.Between : Input → Prop
  | .engine => True
  | .access a => a.Wf
  | .reset => False
  | .run _ => False

/-- Word `k` of the cipher state in the order a fill writes it: P, then S[0] to S[3] (41_key_schedule.md R124). -/
def Cipher.flatWord (c : Cipher) (k : Nat) : Word :=
  if k < 18 then c.p.getD k 0#32 else (c.s.getD ((k - 18) / 256) (Vector.replicate 256 0#32)).getD ((k - 18) % 256) 0#32

/-- The reserved offsets of the register window (20_memory.md R63). -/
def reservedOffset (a : Nat) : Prop :=
  a = 0x01C ∨ a = 0x06C ∨ (0x098 ≤ a ∧ a < 0x800) ∨ (0x848 ≤ a ∧ a < 0x1000)

end Sys2Proof.Machine
end

