-- ==== Sys2Proof/Certificates/Slice0/Obligations.lean ====
section
/-! DEFINITION. The statements for the provers. Each docstring names the rule of spec/ it formalises or rests on. -/

open Sys2Proof Sys2Proof.Machine

/-- The thirteen command words of 30_encoding.md R82, and nothing else of the table's first words, decode to their
commands; the three words with X = 1 that R82 calls illegal do not decode. -/
def Obligations.OpcodeTableWordsDecode : Prop :=
  decode 0x00000000#32 = .ok .nop ∧ decode 0x00000001#32 = .ok .init ∧ decode 0x00000002#32 = .ok .enc
    ∧ decode 0x00000003#32 = .ok (.expkey false) ∧ decode 0x00000103#32 = .ok (.expkey true)
    ∧ decode 0x00000004#32 = .ok (.expsalt false) ∧ decode 0x00000104#32 = .ok (.expsalt true)
    ∧ decode 0x00000005#32 = .ok (.expstate false) ∧ decode 0x00000105#32 = .ok (.expstate true)
    ∧ decode 0x00000006#32 = .ok (.eks false) ∧ decode 0x00000106#32 = .ok (.eks true)
    ∧ decode 0x00000007#32 = .ok (.bcrypt false) ∧ decode 0x00000107#32 = .ok (.bcrypt true)
    ∧ decode 0x00000100#32 = .error .reservedBits ∧ decode 0x00000101#32 = .error .reservedBits
    ∧ decode 0x00000102#32 = .error .reservedBits

/-- A word decodes to a command exactly when it is that command's encoding (30_encoding.md R82, R85): decoding an encoded
command gives it back, and no second word decodes to it. -/
def Obligations.DecodeSucceedsExactlyOnEncodings : Prop :=
  ∀ (w : Word) (i : Instr), decode w = .ok i ↔ w = encode i

/-- Illegal opcodes and reserved encodings reject with their codes (30_encoding.md R86, R87; 60_exceptions.md R223, R224),
both where the command is left in flight and where it is run whole, and neither executes as a command; with the rules'
examples. -/
def Obligations.IllegalAndReservedWordsReject : Prop :=
  (∀ (w : Word) (s : State), s.status.busy = false → 0x08 ≤ w.toNat % 256 →
    hostAccess (.write 0x004 4 w) s = .next { s with status := .rejectedWith 1#4 s.status.init }
    ∧ runWord w s = .next { s with status := .rejectedWith 1#4 s.status.init })
  ∧ (∀ (w : Word) (s : State), s.status.busy = false → w.toNat % 256 ≤ 0x07 →
    (w.toNat / 512 ≠ 0 ∨ (w.toNat / 256 % 2 = 1 ∧ w.toNat % 256 ≤ 0x02)) →
    hostAccess (.write 0x004 4 w) s = .next { s with status := .rejectedWith 2#4 s.status.init }
    ∧ runWord w s = .next { s with status := .rejectedWith 2#4 s.status.init })
  ∧ (∀ w : Word, (0x08 ≤ w.toNat % 256 ∨ w.toNat / 512 ≠ 0 ∨ (w.toNat / 256 % 2 = 1 ∧ w.toNat % 256 ≤ 0x02)) ↔
    ∃ r, decode w = .error r)
  ∧ decode 0x00000008#32 = .error .illegalOpcode ∧ decode 0x000000FF#32 = .error .illegalOpcode
  ∧ decode 0xFFFFFFFF#32 = .error .illegalOpcode
  ∧ decode 0x00000207#32 = .error .reservedBits ∧ decode 0x80000001#32 = .error .reservedBits
  ∧ decode 0x00000100#32 = .error .reservedBits ∧ decode 0x00000101#32 = .error .reservedBits
  ∧ decode 0x00000102#32 = .error .reservedBits

/-- Which code an issue reports is a total function of the word, INIT, KEYLEN and COST: the first condition that applies in
the order of 60_exceptions.md R228; with the rule's four examples. -/
def Obligations.RejectionReportsTheFirstCondition : Prop :=
  (∀ (w : Word) (s : State), s.status.busy = false →
    ∃ t, s.hostWrite .cmd w = t
      ∧ t.status.ecode.toNat = rejectionCode w.toNat s.status.init s.keylen.toNat s.cost.toNat
      ∧ (t.status.err = true ↔ rejectionCode w.toNat s.status.init s.keylen.toNat s.cost.toNat ≠ 0)
      ∧ (t.status.busy = true ↔ rejectionCode w.toNat s.status.init s.keylen.toNat s.cost.toNat = 0))
  ∧ (∀ cost, rejectionCode 0x00000003 false 0 cost = 3 ∧ rejectionCode 0x00000103 false 0 cost = 3)
  ∧ (∀ init, rejectionCode 0x00000007 init 0 0 = 4 ∧ rejectionCode 0x00000107 init 0 0 = 4)
  ∧ (∀ init keylen cost, rejectionCode 0x00000209 init keylen cost = 1)
  ∧ (∀ init keylen cost, rejectionCode 0x00000300 init keylen cost = 2)

/-- A rejection is precise (60_exceptions.md R229): ERR = 1, ECODE is the code, BUSY, DONE and DROP are 0, INIT and every
other register, the hidden ones too, are unchanged, and the engine stays IDLE, ready for the next issue. -/
def Obligations.RejectionChangesStatusOnly : Prop :=
  ∀ (w : Word) (s : State), s.status.busy = false →
    rejectionCode w.toNat s.status.init s.keylen.toNat s.cost.toNat ≠ 0 →
    s.hostWrite .cmd w
      = { s with
          status := (.rejectedWith (BitVec.ofNat 4 (rejectionCode w.toNat s.status.init s.keylen.toNat s.cost.toNat))
            s.status.init) }
    ∧ runWord w s = .next (s.hostWrite .cmd w)

/-- An accepted command goes in flight (60_exceptions.md R221, 42_eks_bcrypt.md R152): BUSY is set, DONE, ERR, ECODE and
DROP are cleared, INIT is kept, the command is latched, the sequencer is in the command's first phase, and no result or
operand register changes. -/
def Obligations.AcceptedCommandGoesInFlight : Prop :=
  ∀ (i : Instr) (s : State), s.Accepts i →
    ∃ t, hostAccess (.write 0x004 4 (encode i)) s = .next t
      ∧ t.status = { busy := true, done := false, err := false, init := s.status.init, ecode := 0#4, drop := false }
      ∧ t.seq.cur = some i ∧ s.SameData t
      ∧ t.dropMark = s.dropMark ∧ t.inputs = s.inputs ∧ t.reads = s.reads ∧ t.draws = s.draws
      ∧ (i = .nop → t.seq.phase = .finish) ∧ (i = .enc → t.seq.phase = .enc)
      ∧ (i = .init ∨ needsCost i = true → t.seq.phase = .load)
      ∧ (∀ x, i = .expkey x → t.seq.phase = .keyxor ∧ t.seq.src = .key ∧ t.seq.sx = x ∧ t.seq.fillSalt = false)
      ∧ (∀ x, i = .expsalt x → t.seq.phase = .keyxor ∧ t.seq.src = .salt ∧ t.seq.sx = x ∧ t.seq.fillSalt = false)
      ∧ (∀ x, i = .expstate x → t.seq.phase = .keyxor ∧ t.seq.src = .key ∧ t.seq.sx = x ∧ t.seq.fillSalt = true)
      ∧ (t.seq.phase = .keyxor → t.seq.stage = .single ∧ t.seq.koff = 0 ∧ t.seq.n = 0)

/-- NOP (40_blowfish.md R106): its word, its completion in every state with BUSY = 0, initialised or not, which changes
STATUS only (and the hidden phase and command latch), its one rejection, and the rule's example. -/
def Obligations.NopChangesStatusOnly : Prop :=
  encode .nop = 0x00000000#32 ∧ assemble "bf.nop".toList = some 0x00000000#32
  ∧ (∀ s : State, s.status.busy = false →
      ∃ c, exec .nop s
        = .next { s with status := .doneWith s.status.init, seq := { s.seq with phase := .idle, cur := c } })
  ∧ (∀ (w : Word) (s : State), s.status.busy = false → w.toNat % 256 = 0 →
      (w.toNat / 512 ≠ 0 ∨ w.toNat / 256 % 2 = 1) →
      runWord w s = .next { s with status := .rejectedWith 2#4 s.status.init })
  ∧ (∀ s : State, s.status = .rejectedWith 5#4 false →
      s.status.word = 0x00000054#32 ∧ ∃ t, exec .nop s = .next t ∧ t.status.word = 0x00000002#32)
  ∧ (∀ s : State, s.status = .rejectedWith 5#4 true → ∃ t, exec .nop s = .next t ∧ t.status.word = 0x0000000A#32)

/-- INIT (40_blowfish.md R107): its word, its completion in every state with BUSY = 0, which loads the ROM into P and S,
sets INIT and leaves every other register, its one rejection, and the rule's example, read after the `wait` of its `run`.
Which results wait to be seen is in Obligations.ResultsAreFreeUntilSeen. -/
def Obligations.InitLoadsTheRom : Prop :=
  encode .init = 0x00000001#32 ∧ assemble "bf.init".toList = some 0x00000001#32
  ∧ (∀ s : State, s.status.busy = false →
      ∃ (q : Seq) (u : Unseen), q.phase = .idle
        ∧ exec .init s = .next { s with cipher := ⟨pInit, sInit⟩, status := .doneWith true, seq := q, unseen := u })
  ∧ (∀ (w : Word) (s : State), s.status.busy = false → w.toNat % 256 = 1 →
      (w.toNat / 512 ≠ 0 ∨ w.toNat / 256 % 2 = 1) →
      runWord w s = .next { s with status := .rejectedWith 2#4 s.status.init })
  ∧ (∀ s : State, s.status.busy = false →
      ∃ t, exec .init s = .next t
        ∧ (t.hostRead 0x008).readValue (regAt 0x800) = 0x243F6A88#32
        ∧ (t.hostRead 0x008).readValue (regAt 0x844) = 0x8979FB1B#32
        ∧ (t.hostRead 0x008).readValue (regAt 0x1000) = 0xD1310BA6#32
        ∧ (t.hostRead 0x008).readValue (regAt 0x1FFC) = 0x3AC372E6#32)

/-- ENCRYPT (40_blowfish.md R108): its word, its completion in every initialised state with BUSY = 0, which replaces the
block by its encryption and leaves P, S and every other register, its rejections in their order, and the rule's example. -/
def Obligations.EncryptReplacesTheBlock : Prop :=
  encode .enc = 0x00000002#32 ∧ assemble "bf.enc".toList = some 0x00000002#32
  ∧ (∀ s : State, s.status.busy = false → s.status.init = true →
      ∃ (q : Seq) (u : Unseen), q.phase = .idle
        ∧ exec .enc s = .next { s with
            blkL := (s.cipher.encryptBlock (s.blkL, s.blkR)).1
            blkR := (s.cipher.encryptBlock (s.blkL, s.blkR)).2
            status := .doneWith true
            seq := q
            unseen := u })
  ∧ (∀ (w : Word) (s : State), s.status.busy = false → w.toNat % 256 = 2 →
      (w.toNat / 512 ≠ 0 ∨ w.toNat / 256 % 2 = 1) →
      runWord w s = .next { s with status := .rejectedWith 2#4 s.status.init })
  ∧ (∀ s : State, s.status.busy = false → s.status.init = false →
      exec .enc s = .next { s with status := .rejectedWith 3#4 false })
  ∧ (∀ s : State, s.status.busy = false → s.status.init = true → s.cipher = ⟨pInit, sInit⟩ →
      s.blkL = 0x00000000#32 → s.blkR = 0x00000000#32 →
      ∃ t, exec .enc s = .next t ∧ t.blkL = 0x706D9FCC#32 ∧ t.blkR = 0x1792D23A#32)

/-- EXPKEY (41_key_schedule.md R131) completes where its checks pass: P and S become expandKey of them with the KEYLEN bytes
of KEY, X choosing the widening; STATUS shows DONE; every other register is unchanged. -/
def Obligations.ExpkeyExpandsWithTheKey : Prop :=
  ∀ (x : Bool) (s : State), s.status.busy = false → s.status.init = true → 1 ≤ s.keylen.toNat → s.keylen.toNat ≤ 73 →
    ∃ (q : Seq) (u : Unseen), q.phase = .idle
      ∧ exec (.expkey x) s = .next { s with
          cipher := (s.cipher.keyXor (s.key.toList.take s.keylen.toNat) x).fill false []
          status := .doneWith true
          seq := q
          unseen := u }

/-- EXPSALT (41_key_schedule.md R132) completes in every initialised state with BUSY = 0, whatever KEYLEN: P and S become
expandKey of them with the 16 bytes of SALT, X choosing their widening; every other register is unchanged. -/
def Obligations.ExpsaltExpandsWithTheSalt : Prop :=
  ∀ (x : Bool) (s : State), s.status.busy = false → s.status.init = true →
    ∃ (q : Seq) (u : Unseen), q.phase = .idle
      ∧ exec (.expsalt x) s = .next { s with
          cipher := (s.cipher.keyXor s.salt.toList x).fill false []
          status := .doneWith true
          seq := q
          unseen := u }

/-- EXPSTATE (41_key_schedule.md R133) completes where its checks pass: P and S become expandState of them with SALT and the
KEYLEN bytes of KEY, X choosing the widening of the key bytes; every other register is unchanged. -/
def Obligations.ExpstateExpandsWithSaltAndKey : Prop :=
  ∀ (x : Bool) (s : State), s.status.busy = false → s.status.init = true → 1 ≤ s.keylen.toNat → s.keylen.toNat ≤ 73 →
    ∃ (q : Seq) (u : Unseen), q.phase = .idle
      ∧ exec (.expstate x) s = .next { s with
          cipher := (s.cipher.keyXor (s.key.toList.take s.keylen.toNat) x).fill true s.salt.toList
          status := .doneWith true
          seq := q
          unseen := u }

/-- EKS (42_eks_bcrypt.md R160) completes where its checks pass, initialised or not: P and S become the Eks schedule's,
INIT is set, and every other register, DIGEST and BLK among them, is unchanged. -/
def Obligations.EksRunsTheSchedule : Prop :=
  ∀ (x : Bool) (s : State), s.status.busy = false → 1 ≤ s.keylen.toNat → s.keylen.toNat ≤ 73 →
    4 ≤ s.cost.toNat → s.cost.toNat ≤ 31 →
    ∃ (q : Seq) (u : Unseen), q.phase = .idle
      ∧ exec (.eks x) s = .next { s with
          cipher := eksSetup s.cost.toNat s.salt.toList (s.key.toList.take s.keylen.toNat) x
          status := .doneWith true
          seq := q
          unseen := u }

/-- BCRYPT (42_eks_bcrypt.md R161) completes where its checks pass, initialised or not: P and S hold the keyed state of EKS,
DIGEST its 64-pass digest, INIT is set, and every other register is unchanged. -/
def Obligations.BcryptRunsTheScheduleAndTheDigest : Prop :=
  ∀ (x : Bool) (s : State), s.status.busy = false → 1 ≤ s.keylen.toNat → s.keylen.toNat ≤ 73 →
    4 ≤ s.cost.toNat → s.cost.toNat ≤ 31 →
    ∃ (q : Seq) (u : Unseen), q.phase = .idle
      ∧ exec (.bcrypt x) s = .next { s with
          cipher := eksSetup s.cost.toNat s.salt.toList (s.key.toList.take s.keylen.toNat) x
          digest := (eksSetup s.cost.toNat s.salt.toList (s.key.toList.take s.keylen.toNat) x).digest
          status := .doneWith true
          seq := q
          unseen := u }

/-- What no command changes (30_encoding.md R84; 10_state.md R21, R22, R39, R40): the operand registers under any command;
BLK_L and BLK_R under any command but ENCRYPT; DIGEST under any command but BCRYPT; P and S under NOP and ENCRYPT. It holds
whether the command is dropped, rejected or completed. NOP leaves the
unseen results too (log entry 11, DESIGN CHOICE). -/
def Obligations.CommandsLeaveOtherRegisters : Prop :=
  ∀ (i : Instr) (s t : State), exec i s = .next t →
    s.SameOperands t
    ∧ (i ≠ .enc → t.blkL = s.blkL ∧ t.blkR = s.blkR)
    ∧ ((∀ x, i ≠ .bcrypt x) → t.digest = s.digest)
    ∧ (i = .nop ∨ i = .enc → t.cipher = s.cipher) ∧ (i = .nop → t.unseen = s.unseen)
    ∧ t.inputs = s.inputs ∧ t.reads = s.reads ∧ t.draws = s.draws

/-- A step runs the decoded command: an issued-and-run word that decodes to `i` makes the step `exec i` after the input is
taken; a word that does not decode is rejected; a table instruction placed by `withFetchWord` is run by the next step; a
plain write of CMD issues the command and leaves it in flight; and with no input the step is an engine turn.
That inputs are a list in State is the model's choice (log entries 4 to 6). -/
def Obligations.StepRunsTheIssuedCommand : Prop :=
  (∀ (s : State) (w : Word) (i : Instr) (rest : List Input), decode w = .ok i →
    step { s with inputs := .run w :: rest } = exec i { s with inputs := rest })
  ∧ (∀ (s : State) (w : Word) (r : Reject) (rest : List Input), decode w = .error r →
    step { s with inputs := .run w :: rest } = .next (issueIllegal r { s with inputs := rest }))
  ∧ (∀ (s : State) (nbits w : Nat) (i : Instr), decodeTableWord nbits w = some i →
    step (s.withFetchWord nbits w) = exec i s)
  ∧ (∀ (s : State) (w : Word) (i : Instr) (rest : List Input), s.status.busy = false → decode w = .ok i →
    step { s with inputs := .access (.write 0x004 4 w) :: rest }
      = .next (issueCommand i id { s with inputs := rest }))
  ∧ (∀ s : State, s.inputs = [] → step s = engineTurn s)

/-- The reset state (70_reset_and_hazards.md R251): STATUS, COST, KEYLEN, KEY, SALT, BLK and DIGEST are zero and the phase is
IDLE with no command; P and S hold no value, so every read of their windows is free and the commands that would read them
are rejected; and the engine's first step waits for a CMD write. -/
def Obligations.ResetStateHoldsTheResetValues : Prop :=
  State.reset.status.word = 0x00000000#32 ∧ State.reset.cost = 0#8 ∧ State.reset.keylen = 0#7
  ∧ State.reset.blkL = 0#32 ∧ State.reset.blkR = 0#32
  ∧ (∀ k : Fin 73, State.reset.key.get k = 0#8) ∧ (∀ k : Fin 16, State.reset.salt.get k = 0#8)
  ∧ (∀ k : Fin 6, State.reset.digest.get k = 0#32)
  ∧ State.reset.seq.phase = .idle ∧ State.reset.seq.cur = none
  ∧ (∀ i : Fin 18, State.reset.readIsFree (.p i) = true)
  ∧ (∀ (b : Fin 4) (i : Fin 256), State.reset.readIsFree (.s b i) = true)
  ∧ (∀ i : Instr, needsInit i = true → issueCheck i State.reset = some .notInitialised)
  ∧ step State.reset = .next State.reset

/-- Reset abandons the command in flight (70_reset_and_hazards.md R252): whatever the state, the step of a reset input leaves
STATUS = 0, so DONE and INIT are 0, BLK and DIGEST zero, P and S unreadable, COST, KEYLEN, KEY and SALT zero (R250, R251),
and the engine IDLE with no command, whose turns change nothing, so that no completion follows; and nothing but reset ends a command without completing it. -/
def Obligations.ResetAbandonsTheCommandInFlight : Prop :=
  ∀ (s : State) (rest : List Input),
    (∃ t, step { s with inputs := .reset :: rest } = .next t
      ∧ t.status.word = 0x00000000#32 ∧ t.blkL = 0#32 ∧ t.blkR = 0#32 ∧ (∀ k : Fin 6, t.digest.get k = 0#32)
      ∧ t.status.init = false ∧ (∀ i : Fin 18, t.readIsFree (.p i) = true)
      ∧ (∀ (b : Fin 4) (i : Fin 256), t.readIsFree (.s b i) = true)
      ∧ t.cost = 0#8 ∧ t.keylen = 0#7 ∧ (∀ k : Fin 73, t.key.get k = 0#8) ∧ (∀ k : Fin 16, t.salt.get k = 0#8)
      ∧ t.seq.phase = .idle ∧ t.seq.cur = none ∧ (∀ k, engineTurns k t = .next t))
    ∧ ∀ u : State, step s = .next u → s.status.busy = true → u.status.busy = false → u.status.done = false →
      s.inputs.head? = some .reset

/-- The machine's invariant holds of the reset state. -/
def Obligations.ResetMeetsTheInvariant : Prop := State.reset.Inv

/-- Every step keeps the machine's invariant, from every state that meets it: STATUS stays legal (10_state.md R26, R29), the
working registers stay in their ranges (R38), BUSY = 1 exactly while a command is in flight (R27), in one of its phases
(42_eks_bcrypt.md R152). -/
def Obligations.EveryStepKeepsTheInvariant : Prop :=
  ∀ s t : State, s.Inv → step s = .next t → t.Inv

/-- Nothing can fail after acceptance (60_exceptions.md R220): from a state that meets the invariant no step faults, and a
step of the engine or a command is never refused either. -/
def Obligations.NothingFailsUnderTheInvariant : Prop :=
  ∀ s : State, s.Inv →
    (∀ f, step s ≠ .fault f) ∧ (∃ t, engineTurn s = .next t) ∧ (∀ i, ∃ t, exec i s = .next t)

/-- STATUS.INIT (10_state.md R30): 0 at reset; it becomes 1 only in a step that completes INIT, EKS or BCRYPT, which does
set it, done whole or step by step; and only reset clears it. -/
def Obligations.InitBitIsSetByLoadsAndClearedByReset : Prop :=
  State.reset.status.init = false
  ∧ (∀ s t : State, step s = .next t → s.status.init = true → s.inputs.head? ≠ some .reset → t.status.init = true)
  ∧ (∀ s t : State, step s = .next t → s.status.init = false → t.status.init = true →
      t.status.done = true ∧ t.status.busy = false
        ∧ ∃ i : Instr, (i = .init ∨ ∃ x, i = .eks x ∨ i = .bcrypt x)
          ∧ ((s.status.busy = true ∧ s.seq.cur = some i)
            ∨ ∃ w rest, s.inputs = .run w :: rest ∧ decode w = .ok i ∧ s.Accepts i))
  ∧ (∀ (i : Instr) (s : State), i = .init ∨ (∃ x, i = .eks x ∨ i = .bcrypt x) → s.Accepts i →
      ∃ t, exec i s = .next t ∧ t.status.init = true)
  ∧ (∀ (i : Instr) (s t : State), i = .init ∨ (∃ x, i = .eks x ∨ i = .bcrypt x) → s.seq.cur = some i →
      engineTurn s = .next t → s.status.busy = true → t.status.busy = false → t.status.init = true)

/-- BUSY and DONE follow the life of a command (10_state.md R27, R28), over every step: BUSY is set only by a CMD write whose
command is accepted, and cleared only by an engine turn that sets DONE in the same step, or by reset; DONE is set only by
such a completion or by a command run whole, with BUSY = 0, and cleared only by an issue with BUSY = 0, or by reset. An
accepted write of CMD does set BUSY; every issue with BUSY = 0 does clear DONE; and reset clears both. That a command may be
done whole in one step, with BUSY = 0 before and after it, is 00_scope.md R14 as the model reads it (log entry 5, DEDUCED). -/
def Obligations.BusyAndDoneFollowTheCommand : Prop :=
  (∀ s t : State, step s = .next t → s.status.busy = false → t.status.busy = true →
    ∃ w i rest, s.inputs = .access (.write 0x004 4 w) :: rest ∧ decode w = .ok i ∧ s.Accepts i)
  ∧ (∀ s t : State, step s = .next t → s.status.busy = true → t.status.busy = false →
    ((s.inputs = [] ∨ s.inputs.head? = some .engine) ∧ t.status.done = true) ∨ s.inputs.head? = some .reset)
  ∧ (∀ s t : State, step s = .next t → s.status.done = false → t.status.done = true →
    t.status.busy = false ∧ (s.status.busy = true ∨ ∃ w i rest, s.inputs = .run w :: rest ∧ decode w = .ok i ∧ s.Accepts i))
  ∧ (∀ s t : State, step s = .next t → s.status.done = true → t.status.done = false →
    s.inputs.head? = some .reset
      ∨ (s.status.busy = false ∧ ∃ w, s.inputs.head? = some (.run w) ∨ s.inputs.head? = some (.access (.write 0x004 4 w))))
  ∧ (∀ (i : Instr) (s : State), s.Accepts i → (s.hostWrite .cmd (encode i)).status.busy = true)
  ∧ (∀ (w : Word) (s : State), s.status.busy = false → (s.hostWrite .cmd w).status.done = false)
  ∧ (∀ s : State, s.applyReset.status.busy = false ∧ s.applyReset.status.done = false)

/-- While a command stays in flight its operands are those of its issue (20_memory.md R70, 44_host_protocol.md R181): no step
from a busy state to a busy state changes COST, KEYLEN, KEY, SALT or the latched command, and BLK changes only in an engine turn
in phase ENC. -/
def Obligations.OperandsAreStableInFlight : Prop :=
  ∀ s t : State, step s = .next t → s.status.busy = true → t.status.busy = true →
    s.SameOperands t ∧ t.seq.cur = s.seq.cur
    ∧ (t.blkL ≠ s.blkL ∨ t.blkR ≠ s.blkR → s.seq.phase = .enc ∧ (s.inputs = [] ∨ s.inputs.head? = some .engine))

/-- Writes while BUSY (60_exceptions.md R231, 70_reset_and_hazards.md R257): a write to CMD or an RW register sets DROP (and
the ghost mark) and nothing else, so ERR and the command in flight are untouched; a write to an RO or reserved offset
changes nothing; DROP survives the engine's turns, so it is seen with DONE; and the next issue clears it. -/
def Obligations.BusyWritesAreDropped : Prop :=
  (∀ (s : State) (a : Nat) (v : Word), s.status.busy = true → a % 4 = 0 →
    (a = 0x004 ∨ a = 0x00C ∨ a = 0x010 ∨ a = 0x014 ∨ a = 0x018 ∨ (0x020 ≤ a ∧ a < 0x06C) ∨ (0x070 ≤ a ∧ a < 0x080)) →
    hostAccess (.write a 4 v) s = .next { s with status := { s.status with drop := true }, dropMark := true })
  ∧ (∀ (s : State) (a : Nat) (v : Word), s.status.busy = true → a % 4 = 0 → a < 0x2000 →
    (a = 0x000 ∨ a = 0x008 ∨ (0x080 ≤ a ∧ a < 0x098) ∨ (0x800 ≤ a ∧ a < 0x848) ∨ 0x1000 ≤ a ∨ reservedOffset a) →
    hostAccess (.write a 4 v) s = .next s)
  ∧ (∀ s t : State, engineTurn s = .next t → t.status.drop = s.status.drop)
  ∧ (∀ (s : State) (w : Word), s.status.busy = false → (s.hostWrite .cmd w).status.drop = false)

/-- Reads while BUSY (70_reset_and_hazards.md R256): ID and STATUS read exactly and reserved offsets read 0; every other
register and window returns a free value, a new draw at each read; and no read changes anything but the model's note of
it and its draw counter. (CMD is in Obligations.CmdReadsAsZero.) -/
def Obligations.BusyReadsAreFreeButIdAndStatus : Prop :=
  (∀ s : State, s.status.busy = true →
    hostAccess (.read 0x000 4) s = .next { s with reads := (0x000, 0x42464531#32) :: s.reads }
    ∧ hostAccess (.read 0x008 4) s = .next { s with reads := (0x008, s.status.word) :: s.reads })
  ∧ (∀ (s : State) (a : Nat), s.status.busy = true → a % 4 = 0 → reservedOffset a →
    hostAccess (.read a 4) s = .next { s with reads := (a, 0#32) :: s.reads })
  ∧ (∀ (s : State) (a : Nat), s.status.busy = true → a % 4 = 0 → a < 0x2000 →
    a ≠ 0x000 → a ≠ 0x004 → a ≠ 0x008 → ¬reservedOffset a →
    hostAccess (.read a 4) s
      = .next { s with reads := (a, Config.freeWord s.draws) :: s.reads, draws := s.draws + 1 })

/-- CMD reads as zero and holds no state (10_state.md R25, 20_memory.md R64), with BUSY = 0 and, as the model reads the spec
(log entry 8, DEDUCED), with BUSY = 1 too. -/
def Obligations.CmdReadsAsZero : Prop :=
  ∀ s : State, hostAccess (.read 0x004 4) s = .next { s with reads := (0x004, 0#32) :: s.reads }

/-- Reads while BUSY = 0 (20_memory.md R63 to R65, 10_state.md R24 to R42): what each offset returns, unused bits zero, P and
S free before INIT = 1, and a result free until the host has seen BUSY = 0 (70_reset_and_hazards.md R255); nothing of the
engine changes. The model notes the read and what the host has now seen (log entries 3, 10 and 11, DESIGN CHOICE). -/
def Obligations.IdleReadsReturnTheRegisters : Prop :=
  ∀ s : State, s.status.busy = false →
    hostAccess (.read 0x000 4) s = .next { s with reads := (0x000, 0x42464531#32) :: s.reads }
    ∧ hostAccess (.read 0x008 4) s = .next { s with reads := (0x008, s.status.word) :: s.reads, unseen := .nothing }
    ∧ hostAccess (.read 0x00C 4) s = .next { s with reads := (0x00C, 0#24 ++ s.cost) :: s.reads }
    ∧ hostAccess (.read 0x010 4) s = .next { s with reads := (0x010, 0#25 ++ s.keylen) :: s.reads }
    ∧ hostAccess (.read 0x014 4) s = .next { s with
        reads := (0x014, if s.unseen.blkL then Config.freeWord s.draws else s.blkL) :: s.reads
        draws := if s.unseen.blkL then s.draws + 1 else s.draws }
    ∧ hostAccess (.read 0x018 4) s = .next { s with
        reads := (0x018, if s.unseen.blkR then Config.freeWord s.draws else s.blkR) :: s.reads
        draws := if s.unseen.blkR then s.draws + 1 else s.draws }
    ∧ (∀ k : Fin 18, hostAccess (.read (0x020 + 4 * k.val) 4) s
        = .next { s with reads := (0x020 + 4 * k.val, be32 (s.key[4 * k.val]) (s.key[4 * k.val + 1])
            (s.key[4 * k.val + 2]) (s.key[4 * k.val + 3])) :: s.reads })
    ∧ hostAccess (.read 0x068 4) s = .next { s with reads := (0x068, s.key[72] ++ 0#24) :: s.reads }
    ∧ (∀ k : Fin 4, hostAccess (.read (0x070 + 4 * k.val) 4) s
        = .next { s with reads := (0x070 + 4 * k.val, be32 (s.salt[4 * k.val]) (s.salt[4 * k.val + 1])
            (s.salt[4 * k.val + 2]) (s.salt[4 * k.val + 3])) :: s.reads })
    ∧ (∀ k : Fin 6, hostAccess (.read (0x080 + 4 * k.val) 4) s
        = .next { s with
            reads := (0x080 + 4 * k.val, if s.unseen.digest then Config.freeWord s.draws else s.digest.get k) :: s.reads
            draws := if s.unseen.digest then s.draws + 1 else s.draws })
    ∧ (∀ i : Fin 18, hostAccess (.read (0x800 + 4 * i.val) 4) s
        = .next { s with
            reads := (0x800 + 4 * i.val,
              if s.status.init = true ∧ s.unseen.cipher = false then s.cipher.p.get i else Config.freeWord s.draws) :: s.reads
            draws := if s.status.init = true ∧ s.unseen.cipher = false then s.draws else s.draws + 1 })
    ∧ (∀ (b : Fin 4) (i : Fin 256), hostAccess (.read (0x1000 + 0x400 * b.val + 4 * i.val) 4) s
        = .next { s with
            reads := (0x1000 + 0x400 * b.val + 4 * i.val,
              if s.status.init = true ∧ s.unseen.cipher = false then (s.cipher.s.get b).get i
              else Config.freeWord s.draws) :: s.reads
            draws := if s.status.init = true ∧ s.unseen.cipher = false then s.draws else s.draws + 1 })
    ∧ (∀ a : Nat, a % 4 = 0 → reservedOffset a →
        hostAccess (.read a 4) s = .next { s with reads := (a, 0#32) :: s.reads })

/-- Writes while BUSY = 0 (10_state.md R32, R35, R36, R37, R39; 20_memory.md R64): COST stores bits [7:0] and KEYLEN bits
[6:0] of the word, BLK the whole word, KEYW and SALTW exactly their bytes; a write to an RO or reserved offset changes
nothing; no write but one of CMD changes STATUS. A stored word of BLK is no unseen result any more (log entry 11, DESIGN
CHOICE). -/
def Obligations.IdleWritesStoreTheirRegister : Prop :=
  ∀ (s : State) (v : Word), s.status.busy = false →
    hostAccess (.write 0x00C 4 v) s = .next { s with cost := BitVec.ofNat 8 v.toNat }
    ∧ hostAccess (.write 0x010 4 v) s = .next { s with keylen := BitVec.ofNat 7 v.toNat }
    ∧ hostAccess (.write 0x014 4 v) s = .next { s with blkL := v, unseen := { s.unseen with blkL := false } }
    ∧ hostAccess (.write 0x018 4 v) s = .next { s with blkR := v, unseen := { s.unseen with blkR := false } }
    ∧ (∀ k : Fin 19, ∃ key : Vector Byte 73,
        hostAccess (.write (0x020 + 4 * k.val) 4 v) s = .next { s with key := key }
        ∧ ∀ j : Fin 73, key.get j = if j.val / 4 = k.val then v.extractLsb' (24 - 8 * (j.val % 4)) 8 else s.key.get j)
    ∧ (∀ k : Fin 4, ∃ salt : Vector Byte 16,
        hostAccess (.write (0x070 + 4 * k.val) 4 v) s = .next { s with salt := salt }
        ∧ ∀ j : Fin 16, salt.get j = if j.val / 4 = k.val then v.extractLsb' (24 - 8 * (j.val % 4)) 8 else s.salt.get j)
    ∧ (∀ a : Nat, a % 4 = 0 → a < 0x2000 →
        (a = 0x000 ∨ a = 0x008 ∨ (0x080 ≤ a ∧ a < 0x098) ∨ (0x800 ≤ a ∧ a < 0x848) ∨ 0x1000 ≤ a ∨ reservedOffset a) →
        hostAccess (.write a 4 v) s = .next s)

/-- Byte order of the byte buffers (20_memory.md R65): KEYW[k], SALTW[k] and DIGEST[k] are big-endian; a write of KEYW[k] sets
exactly bytes 4k to 4k+3, of KEYW[18] exactly KEY[72], and likewise SALTW[k]; a byte cannot be written alone; and KEYW[k]
is the stream word at key offset 4k whenever KEYLEN ≥ 4k + 4 and X = 0. -/
def Obligations.ByteBuffersAreBigEndian : Prop :=
  (∀ (s : State) (k : Fin 19) (v : Word) (j : Fin 73), s.status.busy = false →
    (s.hostWrite (.keyw k) v).key.get j
      = if j.val / 4 = k.val then (unbe32 v).getD (j.val % 4) 0 else s.key.get j)
  ∧ (∀ (s : State) (k : Fin 4) (v : Word) (j : Fin 16), s.status.busy = false →
    (s.hostWrite (.saltw k) v).salt.get j
      = if j.val / 4 = k.val then (unbe32 v).getD (j.val % 4) 0 else s.salt.get j)
  ∧ (∀ (s : State) (k : Fin 19), s.status.busy = false →
    s.readValue (.keyw k) = be32 (s.key.getD (4 * k.val) 0) (s.key.getD (4 * k.val + 1) 0)
      (s.key.getD (4 * k.val + 2) 0) (s.key.getD (4 * k.val + 3) 0))
  ∧ (∀ (s : State) (k : Fin 4), s.status.busy = false →
    s.readValue (.saltw k) = be32 (s.salt.getD (4 * k.val) 0) (s.salt.getD (4 * k.val + 1) 0)
      (s.salt.getD (4 * k.val + 2) 0) (s.salt.getD (4 * k.val + 3) 0))
  ∧ (∀ (s : State) (k : Fin 6), s.status.busy = false → s.unseen.digest = false →
    s.readValue (.digest k) = be32 ((unbe32 (s.digest.get k)).getD 0 0) ((unbe32 (s.digest.get k)).getD 1 0)
      ((unbe32 (s.digest.get k)).getD 2 0) ((unbe32 (s.digest.get k)).getD 3 0))
  ∧ (∀ (s : State) (a width : Nat) (v : Word), width ≠ 4 →
    ∃ r, hostAccess (.write a width v) s = .refused r)
  ∧ (∀ (s : State) (k : Fin 19), k.val < 18 → s.status.busy = false → 4 * k.val + 4 ≤ s.keylen.toNat → s.readValue (.keyw k) = (streamWord s.keyBytes (4 * k.val) false).1)

/-- The register map names every aligned offset of the window once (20_memory.md R63): a register's offset maps to that
register, an offset maps to a register of that offset or is one of the reserved ranges, and every offset of a register is
aligned and in the window. -/
def Obligations.RegisterMapIsOneToOne : Prop :=
  (∀ r : Reg, r ≠ .reserved → regAt r.offset = r ∧ r.offset % 4 = 0 ∧ r.offset < 0x2000)
  ∧ (∀ a : Nat, a % 4 = 0 → a < 0x2000 → (regAt a = .reserved ↔ reservedOffset a))
  ∧ (∀ a : Nat, a % 4 = 0 → a < 0x2000 → ¬reservedOffset a → (regAt a).offset = a)

/-- An access whose width is not 4 bytes, or whose offset is not a multiple of 4, is refused, in every state and whichever
way it goes (20_memory.md R62); an access inside the interface never is (R61). -/
def Obligations.AccessesOutsideTheInterfaceAreRefused : Prop :=
  (∀ (s : State) (a width : Nat) (v : Word), width ≠ 4 ∨ a % 4 ≠ 0 →
    (∃ r, hostAccess (.read a width) s = .refused r) ∧ (∃ r, hostAccess (.write a width v) s = .refused r))
  ∧ (∀ (s : State) (a : Nat) (v : Word), 0x2000 ≤ a →
    (∃ r, hostAccess (.read a 4) s = .refused r) ∧ (∃ r, hostAccess (.write a 4 v) s = .refused r))
  ∧ (∀ (s : State) (a : Nat) (v : Word), a % 4 = 0 → a < 0x2000 →
    (∃ t, hostAccess (.read a 4) s = .next t) ∧ (∃ t, hostAccess (.write a 4 v) s = .next t))

/-- The host has no write path to P, S or DIGEST (10_state.md R21, R22, R40; 44_host_protocol.md R180): no host access changes
them, and none changes the sequencer but a write of CMD while BUSY = 0. -/
def Obligations.HostAccessesLeaveTheEnginesResults : Prop :=
  ∀ (acc : Access) (s t : State), hostAccess acc s = .next t →
    t.cipher = s.cipher ∧ t.digest = s.digest ∧ t.status.init = s.status.init
    ∧ ((∀ v, acc ≠ .write 0x004 4 v) ∨ s.status.busy = true → t.seq = s.seq)

/-- STATUS as a word (10_state.md R26): which bit each field is, and that the reserved bits read as zero. -/
def Obligations.StatusWordLayout : Prop :=
  ∀ t : Status,
    t.word.getLsbD 0 = t.busy ∧ t.word.getLsbD 1 = t.done ∧ t.word.getLsbD 2 = t.err ∧ t.word.getLsbD 3 = t.init
    ∧ t.word.extractLsb' 4 4 = t.ecode ∧ t.word.getLsbD 8 = t.drop ∧ t.word.extractLsb' 9 23 = 0#23

/-- The F-function (40_blowfish.md R101): its grouping and byte slices, written with the number of the word, and on the INIT
state the rule's example and the further values of 95_test_vectors.md section 3.3. -/
def Obligations.FAddsXorsAddsTheByteSlices : Prop :=
  (∀ (c : Cipher) (x : Word),
    c.f x = (((c.s.get 0).getD (x.toNat / 2 ^ 24) 0#32 + (c.s.get 1).getD (x.toNat / 2 ^ 16 % 256) 0#32)
      ^^^ (c.s.get 2).getD (x.toNat / 2 ^ 8 % 256) 0#32) + (c.s.get 3).getD (x.toNat % 256) 0#32)
  ∧ Cipher.load.f 0x00000000#32 = 0x2FCFF51E#32 ∧ Cipher.load.f 0xFFFFFFFF#32 = 0x452C2867#32
  ∧ Cipher.load.f 0x01234567#32 = 0xF36E574C#32 ∧ Cipher.load.f 0x00000001#32 = 0xC9911CB6#32
  ∧ Cipher.load.f 0x80000000#32 = 0x1D9CE8BC#32

/-- For fixed P and S, encryptBlock is a bijection on 64-bit blocks (40_blowfish.md R103). -/
def Obligations.EncryptBlockIsABijection : Prop :=
  ∀ c : Cipher, Function.Bijective c.encryptBlock

/-- streamWord (41_key_schedule.md R121) on data of n ≥ 1 bytes from an offset below n: the four widened bytes, read
cyclically, each ORed over the word shifted left, and the offset moved by four; with the rule's consequences for sx = 0 and
sx = 1 and its examples. -/
def Obligations.StreamWordReadsCyclically : Prop :=
  (∀ (data : List Byte) (off : Nat) (sx : Bool), off < data.length →
    streamWord data off sx
      = ((widen sx (data.getD off 0) <<< 24) ||| (widen sx (data.getD ((off + 1) % data.length) 0) <<< 16)
          ||| (widen sx (data.getD ((off + 2) % data.length) 0) <<< 8)
          ||| widen sx (data.getD ((off + 3) % data.length) 0), (off + 4) % data.length))
  ∧ (∀ (data : List Byte) (off : Nat), off < data.length →
    (streamWord data off false).1
      = be32 (data.getD off 0) (data.getD ((off + 1) % data.length) 0) (data.getD ((off + 2) % data.length) 0)
          (data.getD ((off + 3) % data.length) 0))
  ∧ (∀ (data : List Byte) (off t j : Nat), off < data.length → t < 4 →
    0x80#8 ≤ data.getD ((off + t) % data.length) 0 → 8 * (4 - t) ≤ j → j < 32 →
    (streamWord data off true).1.getLsbD j = true)
  ∧ (∀ (data : List Byte) (off : Nat), off < data.length →
    (∀ t, t < 4 → data.getD ((off + t) % data.length) 0 < 0x80#8) →
    streamWord data off true = streamWord data off false)
  ∧ (∀ (b : Byte) (sx : Bool), streamWord [b] 0 sx
      = ((widen sx b <<< 24) ||| (widen sx b <<< 16) ||| (widen sx b <<< 8) ||| widen sx b, 0))
  ∧ streamWord [0x41#8, 0xA3#8, 0x42#8, 0x43#8] 0 false = (0x41A34243#32, 0)
  ∧ streamWord [0x41#8, 0xA3#8, 0x42#8, 0x43#8] 0 true = (0xFFA34243#32, 0)
  ∧ streamWord [0x61#8, 0x62#8, 0x63#8, 0x00#8] 2 false = (0x63006162#32, 2)
  ∧ streamWord [0xA3#8, 0x00#8] 0 true = (0xFFFFA300#32, 0)

/-- keyXor (41_key_schedule.md R122, R123): P[i] takes the exclusive or with the stream word of key bytes 4i to 4i+3 of the
cycle, the S-boxes are not touched, so exactly 72 key bytes are read, in order; a key of 72 bytes or more acts as its first
72, and with 73 bytes the last is never read. -/
def Obligations.KeyXorReadsSeventyTwoKeyBytes : Prop :=
  (∀ (key : List Byte) (sx : Bool) (c : Cipher) (i : Fin 18), key ≠ [] →
    (c.keyXor key sx).p.get i = c.p.get i
      ^^^ ((widen sx (key.getD (4 * i.val % key.length) 0) <<< 24)
        ||| (widen sx (key.getD ((4 * i.val + 1) % key.length) 0) <<< 16)
        ||| (widen sx (key.getD ((4 * i.val + 2) % key.length) 0) <<< 8)
        ||| widen sx (key.getD ((4 * i.val + 3) % key.length) 0)))
  ∧ (∀ (key : List Byte) (sx : Bool) (c : Cipher), (c.keyXor key sx).s = c.s)
  ∧ (∀ (key : List Byte) (sx : Bool) (c : Cipher), 72 ≤ key.length → c.keyXor key sx = c.keyXor (key.take 72) sx)
  ∧ (∀ (key : List Byte) (b b' : Byte) (sx : Bool) (c : Cipher), key.length = 72 →
    c.keyXor (key ++ [b]) sx = c.keyXor (key ++ [b']) sx)

/-- A fill writes each of its 521 blocks once, in order (41_key_schedule.md R124): words 2n and 2n+1 of the state it leaves,
counting P first and then S[0] to S[3], are the running block after n+1 iterations; and each iteration encrypts the last
one's block under the P and S as they then stand. -/
def Obligations.FillWritesEachBlockInOrder : Prop :=
  (∀ (salted : Bool) (salt : List Byte) (c : Cipher) (n : Nat), n < 521 →
    (c.fill salted salt).flatWord (2 * n) = (forUp (fillBlock salted salt) (n + 1) ⟨c, 0#32, 0#32, 0⟩).bl
    ∧ (c.fill salted salt).flatWord (2 * n + 1) = (forUp (fillBlock salted salt) (n + 1) ⟨c, 0#32, 0#32, 0⟩).br)
  ∧ (∀ (c : Cipher) (n : Nat) (r : FillRun), r = forUp (fillBlock false []) n ⟨c, 0#32, 0#32, 0⟩ →
    ((fillBlock false [] n r).bl, (fillBlock false [] n r).br) = r.cipher.encryptBlock (r.bl, r.br))

/-- In a salted fill block n takes the exclusive or with salt half n mod 2, its bytes zero-extended, and the salt stream is
never reset (41_key_schedule.md R125). -/
def Obligations.SaltedFillAlternatesTheSaltHalves : Prop :=
  ∀ (salt : List Byte) (c : Cipher) (n : Nat) (r : FillRun), salt.length = 16 →
    r = forUp (fillBlock true salt) n ⟨c, 0#32, 0#32, 0⟩ →
    r.soff = 8 * (n % 2)
    ∧ ((fillBlock true salt n r).bl, (fillBlock true salt n r).br)
      = r.cipher.encryptBlock
          (r.bl ^^^ be32 (salt.getD (8 * (n % 2)) 0) (salt.getD (8 * (n % 2) + 1) 0)
              (salt.getD (8 * (n % 2) + 2) 0) (salt.getD (8 * (n % 2) + 3) 0),
           r.br ^^^ be32 (salt.getD (8 * (n % 2) + 4) 0) (salt.getD (8 * (n % 2) + 5) 0)
              (salt.getD (8 * (n % 2) + 6) 0) (salt.getD (8 * (n % 2) + 7) 0))

/-- Laws of the expansions (41_key_schedule.md R128): a salt of zero bytes expands as no salt, and a key of one or more zero
bytes leaves P unchanged. -/
def Obligations.ZeroBytesMixNothing : Prop :=
  (∀ (key : List Byte) (sx : Bool) (c : Cipher), c.expandState (List.replicate 16 0#8) key sx = c.expandKey key sx)
  ∧ (∀ (n : Nat) (sx : Bool) (c : Cipher), 1 ≤ n → c.keyXor (List.replicate n 0#8) sx = c)

/-- The sign-extend flag changes nothing for a key of one or more bytes that are all below 0x80 (41_key_schedule.md R121, R131,
R133), and in the Eks schedule nothing whatever the salt bytes, since the flag does not reach them (42_eks_bcrypt.md R154). -/
def Obligations.SignExtensionNeedsAHighKeyByte : Prop :=
  ∀ (key : List Byte), key ≠ [] → (∀ b ∈ key, b < 0x80#8) →
    (∀ c : Cipher, c.expandKey key true = c.expandKey key false)
    ∧ (∀ (salt : List Byte) (c : Cipher), c.expandState salt key true = c.expandState salt key false)
    ∧ (∀ (cost : Nat) (salt : List Byte), eksSetup cost salt key true = eksSetup cost salt key false)

/-- The digest (42_eks_bcrypt.md R155, R156): CTEXT is "OrpheanBeholderScryDoubt" in six big-endian words; its three blocks
are independent: each is its part of CTEXT encrypted 64 times over, and P and S play no other part. -/
def Obligations.DigestBlocksAreIndependent : Prop :=
  ctext.toList = [0x4F727068#32, 0x65616E42#32, 0x65686F6C#32, 0x64657253#32, 0x63727944#32, 0x6F756274#32]
  ∧ ctext.toList.flatMap unbe32 = "OrpheanBeholderScryDoubt".toList.map (fun ch => BitVec.ofNat 8 ch.toNat)
  ∧ ∀ (c : Cipher) (j : Fin 3),
      (c.digest.getD (2 * j.val) 0#32, c.digest.getD (2 * j.val + 1) 0#32)
        = repeatTimes c.encryptBlock 64 (ctext.getD (2 * j.val) 0#32, ctext.getD (2 * j.val + 1) 0#32)

/-- EKS and BCRYPT as programs of the primitive commands (42_eks_bcrypt.md R158): INIT, EXPSTATE, 2^COST pairs of EXPKEY and
EXPSALT (EXPSALT with X = 0) leave P and S as EKS does, and 64 ENCRYPTs of each block of CTEXT then give the words of
BCRYPT's DIGEST. -/
def Obligations.EksIsAProgramOfPrimitives : Prop :=
  ∀ (x : Bool) (s : State), s.status.busy = false → 1 ≤ s.keylen.toNat → s.keylen.toNat ≤ 73 →
    4 ≤ s.cost.toNat → s.cost.toNat ≤ 31 →
    ∃ t u v : State,
      runCommands (.init :: .expstate x ::
        (List.replicate (2 ^ s.cost.toNat) [Instr.expkey x, Instr.expsalt false]).flatten) s = .next t
      ∧ exec (.eks x) s = .next u ∧ exec (.bcrypt x) s = .next v
      ∧ t.cipher = u.cipher ∧ t.cipher = v.cipher
      ∧ ∀ j : Fin 3, ∃ e : State,
          runCommands (List.replicate 64 .enc)
            { t with blkL := ctext.getD (2 * j.val) 0#32, blkR := ctext.getD (2 * j.val + 1) 0#32 } = .next e
          ∧ e.blkL = v.digest.getD (2 * j.val) 0#32 ∧ e.blkR = v.digest.getD (2 * j.val + 1) 0#32

/-- Key bytes at index KEYLEN and above, and KEY[72] always, have no effect on any command (10_state.md R36,
41_key_schedule.md R123): two states that differ only there go to states that differ only there. -/
def Obligations.UnreadKeyBytesDoNotMatter : Prop :=
  ∀ (i : Instr) (s : State) (key : Vector Byte 73),
    (∀ j : Fin 73, j.val < s.keylen.toNat → j.val < 72 → key.get j = s.key.get j) →
    ∃ t, exec i s = .next t ∧ exec i { s with key := key } = .next { t with key := key }

/-- EKS, BCRYPT and INIT do not read the earlier cipher state (40_blowfish.md R104; 42_eks_bcrypt.md R160, R161): with any
other P and S, and INIT set or not, an accepted one leaves the same P, S and DIGEST. -/
def Obligations.LoadsForgetTheEarlierCipherState : Prop :=
  ∀ (i : Instr) (s : State) (c : Cipher) (init : Bool), i = .init ∨ needsCost i = true → s.Accepts i →
    ∃ t u, exec i s = .next t ∧ exec i { s with cipher := c, status := { s.status with init := init } } = .next u
      ∧ t.cipher = u.cipher ∧ t.digest = u.digest ∧ t.status = u.status

/-- The sequencer performs exactly the command's function (42_eks_bcrypt.md R152, R153): from acceptance it takes the number of
engine steps of 70_reset_and_hazards.md R259, with BUSY = 1 until the last, and leaves the state that the command done whole
leaves, the hidden working registers apart (00_scope.md R14; log entry 5, DEDUCED). -/
def Obligations.SequencerPerformsEveryCommand : Prop :=
  ∀ (i : Instr) (s : State), s.Accepts i →
    (∃ t u, engineTurns (sequencerSteps i s.cost.toNat) (s.hostWrite .cmd (encode i)) = .next t
      ∧ exec i s = .next u ∧ t.hideWork = u.hideWork ∧ t.status.busy = false)
    ∧ (∀ k, k < sequencerSteps i s.cost.toNat →
      ∃ t, engineTurns k (s.hostWrite .cmd (encode i)) = .next t ∧ t.status.busy = true)

/-- No host access between issue and completion changes a command's results (00_scope.md R8, R14; 20_memory.md R70): for every
order of the engine's steps and of host accesses, reads or writes, that ends with the engine's last step, the state is the
one the command done whole leaves, apart from the hidden working registers and what the host's own accesses leave
(the model's note of reads, the draws, and DROP). That a command may be done whole is
R14 as the model reads it (log entry 5, DEDUCED). -/
def Obligations.InterleavingDoesNotChangeResults : Prop :=
  ∀ (i : Instr) (s : State) (ins : List Input), s.Accepts i →
    (∀ inp ∈ ins, inp.Between) → ins.count .engine + 1 = sequencerSteps i s.cost.toNat →
    ∃ t u, runSteps (ins.length + 1) { s.hostWrite .cmd (encode i) with inputs := ins ++ [.engine] } = .next t
      ∧ exec i s = .next u ∧ t.hideWork.hideHost = u.hideWork.hideHost

/-- Progress (70_reset_and_hazards.md R258): from any state that meets the invariant, a command in flight completes after
finitely many engine steps, with DONE = 1 and BUSY = 0. -/
def Obligations.CommandInFlightCompletes : Prop :=
  ∀ s : State, s.Inv → s.status.busy = true →
    ∃ k t, engineTurns k s = .next t ∧ t.status.busy = false ∧ t.status.done = true ∧ t.seq.phase = .idle

/-- Every host wait ends (70_reset_and_hazards.md R258, 30_encoding.md R91): from a state that meets the invariant, whatever
engine turns the scheduler puts between the polls, a `wait` is over after finitely many accesses, with BUSY = 0 as the last
STATUS read shows, and every result seen (R255). That a used-up schedule lets the engine take all the turns it still needs
is the model's form of R258's fairness (log entry 19, DESIGN CHOICE), and what counts as seen is log entry 11. -/
def Obligations.EveryWaitEnds : Prop :=
  ∀ (s : State) (polls : List Nat), s.Inv →
    ∃ t, waitOn polls s = .next t ∧ t.status.busy = false ∧ t.seq.phase = .idle
      ∧ t.reads.head? = some (0x008, t.status.word) ∧ t.unseen = .nothing

/-- The radix-64 codec inverts itself (44_host_protocol.md R196, R197), rejects a character outside the alphabet wherever it
stands, and never gives more bytes than asked. -/
def Obligations.Radix64RoundTrip : Prop :=
  (∀ d : List Byte, Radix64.decode (Radix64.encode d) d.length = some d)
  ∧ (∀ (s : List Char) (maxBytes : Nat), Radix64.decode s maxBytes = none ↔ ∃ c ∈ s, c ∉ Radix64.alphabet)
  ∧ (∀ (s : List Char) (maxBytes : Nat) (d : List Byte), Radix64.decode s maxBytes = some d → d.length ≤ maxBytes)

/-- Lengths and unused bits of the encodings (44_host_protocol.md R196, R198): 16 bytes give 22 symbols, the last one of
`.`, `O`, `e`, `u`; 23 bytes give 31 symbols, the last one's low two bits zero. -/
def Obligations.Radix64LengthsAndTailBits : Prop :=
  (∀ d : List Byte, d.length = 16 →
    (Radix64.encode d).length = 22 ∧ ∃ c ∈ ['.', 'O', 'e', 'u'], (Radix64.encode d).getLast? = some c)
  ∧ (∀ d : List Byte, d.length = 23 →
    (Radix64.encode d).length = 31
      ∧ ∃ v : BitVec 6, v.extractLsb' 0 2 = 0#2 ∧ (Radix64.encode d).getLast? = some (Radix64.symbol v))

/-- Formatting and parsing a hash string agree (44_host_protocol.md R199, R200): a formatted hash has the length of R199 and
parses to its tag, cost, salt and first 23 digest bytes. -/
def Obligations.FormattedHashParsesBack : Prop :=
  ∀ (tag : Tag) (cost : Nat) (salt raw : List Byte), 4 ≤ cost → cost ≤ 31 → salt.length = 16 → raw.length = 24 →
    (formatHash tag cost salt raw).length = 1 + tag.text.length + 1 + 2 + 1 + 22 + 31
    ∧ parseHash (formatHash tag cost salt raw) = .ok ⟨tag, cost, salt, raw.take 23⟩

/-- Parsing errors (44_host_protocol.md R200, 95_test_vectors.md section 3.12): the kind of each example string. -/
def Obligations.ParseErrorKinds : Prop :=
  parseHash "2a$04$zVHmKQtGGQob.b/Nc7l9NO".toList = .error .malformedHash
  ∧ parseHash "$$04$zVHmKQtGGQob.b/Nc7l9NO".toList = .error .malformedHash
  ∧ parseHash "$2c$04$zVHmKQtGGQob.b/Nc7l9NO".toList = .error .unsupportedVersion
  ∧ parseHash "$2a$4$zVHmKQtGGQob.b/Nc7l9NO".toList = .error .malformedHash
  ∧ parseHash "$2a$04".toList = .error .malformedHash
  ∧ parseHash "$2a$03$zVHmKQtGGQob.b/Nc7l9NO".toList = .error .invalidCost
  ∧ parseHash "$2a$32$zVHmKQtGGQob.b/Nc7l9NO".toList = .error .invalidCost
  ∧ parseHash "$2a$04$".toList = .error .malformedHash
  ∧ parseHash "$2a$04$zVHmKQtGGQob.b/Nc7l9N".toList = .error .malformedHash
  ∧ parseHash "$2a$04$zVHmKQtGGQob.b/Nc7l9NO8UlrYcW05FiuCj/SxsFO/ZtiN9.mNz=".toList = .error .malformedHash

/-- Key preparation and the loading of operands (44_host_protocol.md R190, R181; 30_encoding.md R91): the prepared key has
min(len, 72) + 1 bytes, ends in 00, and after the host's operand writes on an IDLE engine the engine's key, salt and cost
are the ones written, with P, S, BLK and DIGEST as before. -/
def Obligations.OperandWritesLoadTheKeyAndSalt : Prop :=
  (∀ p : List Byte, (prepareKey p).length = min p.length 72 + 1 ∧ (prepareKey p).getLast? = some 0x00#8
    ∧ (prepareKey p).take (min p.length 72) = p.take 72)
  ∧ (∀ (e : State) (cost : Nat) (key salt : List Byte), e.status.busy = false → cost < 256 →
      1 ≤ key.length → key.length ≤ 73 → salt.length = 16 →
      ∃ s, e.hostWrites (operandWrites cost key salt) = s
        ∧ s.keyBytes = key ∧ s.keylen.toNat = key.length ∧ s.saltBytes = salt ∧ s.cost.toNat = cost ∧ s.status = e.status
        ∧ s.cipher = e.cipher ∧ s.blkL = e.blkL ∧ s.blkR = e.blkR ∧ s.digest = e.digest ∧ s.seq = e.seq)

/-- `hash` gives the bcrypt digest of its operands, whatever the IDLE engine held before (44_host_protocol.md R203, R207;
42_eks_bcrypt.md R157, R161). The model's `hash` runs BCRYPT whole, which is LAT = 0 (log entry 19, DESIGN CHOICE). -/
def Obligations.HashEncodesTheBcryptDigest : Prop :=
  ∀ (tag : Tag) (cost : Nat) (salt password : List Byte) (e : State), e.status.busy = false →
    4 ≤ cost → cost ≤ 31 → salt.length = 16 →
    hashWith tag cost salt password e
      = formatHash tag cost salt
          ((eksSetup cost salt (prepareKey password) tag.x).digest.toList.flatMap unbe32)

/-- A password verifies against its own hash, on any two IDLE engines (44_host_protocol.md R203 to R205). The salt is
an argument (log entry 18, DESIGN CHOICE), and BCRYPT runs whole (log entry 19, DESIGN CHOICE). -/
def Obligations.VerifyMatchesItsOwnHash : Prop :=
  ∀ (tag : Tag) (cost : Nat) (salt : Vector Byte 16) (password : List Byte) (e e' : State),
    e.status.busy = false → e'.status.busy = false → 4 ≤ cost → cost ≤ 31 →
    ∃ h, hashNew tag password cost (some salt) e = .ok h ∧ verify password h e' = .matched

/-- What `verify` answers otherwise (44_host_protocol.md R205): an error exactly where the stored string does not parse, with
its kind, and never a match for a stored string whose digest part is shorter than 31 symbols. BCRYPT runs whole (log
entry 19, DESIGN CHOICE). -/
def Obligations.VerifyErrorsOnlyOnParsing : Prop :=
  ∀ (password : List Byte) (stored : List Char) (e : State),
    (∀ k, verify password stored e = .error k ↔ parseHash stored = .error k)
    ∧ (∀ p : Parsed, parseHash stored = .ok p → stored.length < p.tag.text.length + 58 →
        verify password stored e = .noMatch)

/-- Truncation idempotence (44_host_protocol.md R191): passwords with the same first 72 bytes give the same hash, and
appending the NUL before truncation to 72 bytes gives the same engine result. The model's `hash` runs BCRYPT whole (log entry 19, DESIGN
CHOICE). -/
def Obligations.PasswordsAgreeOnSeventyTwoBytes : Prop :=
  (∀ (tag : Tag) (cost : Nat) (salt p q : List Byte) (e : State), p.take 72 = q.take 72 →
    hashWith tag cost salt p e = hashWith tag cost salt q e)
  ∧ (∀ (cost : Nat) (salt p : List Byte) (x : Bool),
    eksSetup cost salt (prepareKey p) x = eksSetup cost salt ((p ++ [0x00#8]).take 72) x)

/-- The result hazard (70_reset_and_hazards.md R255, 93_implementation_defined.md I11): accepting a command makes its results
unseen, BLK for ENCRYPT, DIGEST for BCRYPT, P and S for the commands that write them; a read of an unseen result returns a
free value; only a STATUS read that shows BUSY = 0 makes them seen, and it makes all of them so (a host's own store of a BLK
word, and reset, end them too); and with every result seen, BUSY = 0 and INIT = 1, no read is free. That INIT counts as one
of the keying commands, and what a store of BLK does, is the model's choice (log entry 11, DESIGN CHOICE). -/
def Obligations.ResultsAreFreeUntilSeen : Prop :=
  (∀ (i : Instr) (s t : State), s.Accepts i → hostAccess (.write 0x004 4 (encode i)) s = .next t ∨ exec i s = .next t →
    (i = .nop → t.unseen = s.unseen)
    ∧ (i = .enc → t.unseen = { s.unseen with blkL := true, blkR := true })
    ∧ ((∃ x, i = .bcrypt x) → t.unseen = { s.unseen with digest := true, cipher := true })
    ∧ (i = .init ∨ (∃ x, i = .expkey x ∨ i = .expsalt x ∨ i = .expstate x ∨ i = .eks x) →
        t.unseen = { s.unseen with cipher := true }))
  ∧ (∀ (s : State) (a : Nat), a % 4 = 0 → a < 0x2000 →
    (a = 0x014 ∧ s.unseen.blkL = true) ∨ (a = 0x018 ∧ s.unseen.blkR = true)
      ∨ (0x080 ≤ a ∧ a < 0x098 ∧ s.unseen.digest = true)
      ∨ (((0x800 ≤ a ∧ a < 0x848) ∨ 0x1000 ≤ a) ∧ s.unseen.cipher = true) →
    hostAccess (.read a 4) s
      = .next { s with reads := (a, Config.freeWord s.draws) :: s.reads, draws := s.draws + 1 })
  ∧ (∀ s t : State, step s = .next t → s.inputs.head? ≠ some .reset →
    (s.status.busy = true ∨ s.inputs.head? ≠ some (.access (.read 0x008 4))) →
    (s.unseen.digest = true → t.unseen.digest = true) ∧ (s.unseen.cipher = true → t.unseen.cipher = true)
    ∧ (s.unseen.blkL = true → t.unseen.blkL = true
      ∨ (s.status.busy = false ∧ ∃ v, s.inputs.head? = some (.access (.write 0x014 4 v))))
    ∧ (s.unseen.blkR = true → t.unseen.blkR = true
      ∨ (s.status.busy = false ∧ ∃ v, s.inputs.head? = some (.access (.write 0x018 4 v)))))
  ∧ (∀ s : State, s.status.busy = false →
    hostAccess (.read 0x008 4) s = .next { s with reads := (0x008, s.status.word) :: s.reads, unseen := .nothing })
  ∧ (∀ (s : State) (rest : List Input),
    ∃ t, step { s with inputs := .reset :: rest } = .next t ∧ t.unseen = .nothing)
  ∧ (∀ (s : State) (r : Reg), s.status.busy = false → s.status.init = true → s.unseen = .nothing →
    s.readIsFree r = false ∧ s.readValue r = s.regValue r)
end

