-- ==== Sys2Proof/Laws/Decode.lean ====
section
/-! SUPPORT. The decoder in terms of the number of a word (30_encoding.md R81 to R87), and its agreement with the
well-formedness predicates; the same for the refusal of an access (20_memory.md R60 to R62). -/

namespace Sys2Proof

theorem opField_toNat (w : Word) : (opField w).toNat = w.toNat % 256 := by
  simp [opField, BitVec.extractLsb'_toNat]

theorem rsvField_eq_zero (w : Word) : rsvField w = 0#23 ↔ w.toNat / 512 = 0 := by
  rw [← BitVec.toNat_inj]
  simp only [rsvField, BitVec.extractLsb'_toNat, Nat.shiftRight_eq_div_pow, BitVec.toNat_ofNat]
  have := w.isLt
  omega

theorem xField_eq_true (w : Word) : xField w = true ↔ w.toNat / 256 % 2 = 1 := by
  simp [xField, BitVec.getLsbD, Nat.testBit, Nat.shiftRight_eq_div_pow]

theorem opIllegal_iff (w : Word) : 0x07#8 < opField w ↔ 8 ≤ w.toNat % 256 := by
  rw [BitVec.lt_def, opField_toNat]
  exact Nat.succ_le_iff.symm

/-- Decoding, read as numbers. -/
theorem decode_eq (w : Word) :
    decode w = if 8 ≤ w.toNat % 256 then .error .illegalOpcode
      else if w.toNat / 512 ≠ 0 then .error .reservedBits
      else decodeOp (opField w) (xField w) := by
  simp only [decode, opIllegal_iff, ne_eq, rsvField_eq_zero]

theorem decode_illegal {w : Word} (h : 8 ≤ w.toNat % 256) : decode w = .error .illegalOpcode := by
  rw [decode_eq, if_pos h]

theorem decodeOp_reserved {op : BitVec 8} {x : Bool} (ho : op.toNat ≤ 2) (hx : x = true) :
    decodeOp op x = .error .reservedBits := by
  have h : op.toNat = 0 ∨ op.toNat = 1 ∨ op.toNat = 2 := by omega
  rcases h with h | h | h <;> simp [decodeOp, h, hx]

theorem decode_reserved {w : Word} (h : w.toNat % 256 ≤ 7)
    (hr : w.toNat / 512 ≠ 0 ∨ (w.toNat / 256 % 2 = 1 ∧ w.toNat % 256 ≤ 2)) : decode w = .error .reservedBits := by
  rw [decode_eq, if_neg (by omega)]
  split
  · rfl
  · rename_i h0
    obtain h1 | ⟨h1, h2⟩ := hr
    · exact absurd h1 h0
    · exact decodeOp_reserved (by rw [opField_toNat]; exact h2) ((xField_eq_true w).2 h1)

/-- The command of each opcode, where the word has no reserved bit set. -/
theorem decodeOp_ok {op : BitVec 8} {x : Bool} (ho : op.toNat ≤ 7) (hx : x = true → 3 ≤ op.toNat) :
    ∃ i, decodeOp op x = .ok i ∧ i.op = op ∧ i.x = x := by
  have h : op.toNat = 0 ∨ op.toNat = 1 ∨ op.toNat = 2 ∨ op.toNat = 3 ∨ op.toNat = 4 ∨ op.toNat = 5 ∨ op.toNat = 6
      ∨ op.toNat = 7 := by omega
  have e (n : Nat) (hn : op.toNat = n) (h8 : n < 256) : BitVec.ofNat 8 n = op :=
    BitVec.eq_of_toNat_eq (by rw [BitVec.toNat_ofNat, Nat.mod_eq_of_lt h8, hn])
  rcases h with h | h | h | h | h | h | h | h <;> obtain rfl := e _ h (by omega) <;> cases x
  all_goals first
    | exact ⟨_, rfl, rfl, rfl⟩
    | exact absurd (hx rfl) (by decide)

theorem encode_fields (i : Instr) : opField (encode i) = i.op ∧ xField (encode i) = i.x ∧ rsvField (encode i) = 0#23 := by
  cases i with
  | nop | init | enc => decide
  | expkey x | expsalt x | expstate x | eks x | bcrypt x => cases x <;> decide

/-- A word is made of its three fields. -/
theorem word_eq_fields (w : Word) : w = rsvField w ++ BitVec.ofBool (xField w) ++ opField w := by
  apply BitVec.eq_of_getLsbD_eq
  intro i hi
  simp only [rsvField, xField, opField, BitVec.getLsbD_append, BitVec.getLsbD_extractLsb', BitVec.getLsbD_ofBool]
  by_cases h8 : i < 8
  · simp [h8]
  · by_cases h9 : i = 8
    · subst h9; simp
    · have : i - 8 ≠ 0 := by omega
      have h23 : i - 8 - 1 < 23 := by omega
      have e : 9 + (i - 8 - 1) = i := by omega
      have h1 : ¬ i - 8 < 1 := by omega
      simp [h8, h1, h23, e]

/-- A word decodes to a command exactly where the well-formedness predicate says so. -/
theorem wordWf_iff (w : Word) :
    wordWf w = true ↔ w.toNat % 256 ≤ 7 ∧ w.toNat / 512 = 0 ∧ (w.toNat / 256 % 2 = 1 → 3 ≤ w.toNat % 256) := by
  simp only [wordWf, opAssigned, reservedZero, xAllowed, Bool.and_eq_true, decide_eq_true_eq, and_assoc]

theorem decode_ok {w : Word} (h : wordWf w = true) :
    ∃ i, decode w = .ok i ∧ i.op = opField w ∧ i.x = xField w := by
  obtain ⟨h1, h2, h3⟩ := (wordWf_iff w).1 h
  rw [decode_eq, if_neg (by omega), if_neg (by simpa using h2)]
  exact decodeOp_ok (by rw [opField_toNat]; exact h1)
    (fun hx => by rw [opField_toNat]; exact h3 ((xField_eq_true w).1 hx))

theorem decode_error {w : Word} (h : wordWf w = false) :
    (8 ≤ w.toNat % 256 ∧ decode w = .error .illegalOpcode)
      ∨ (w.toNat % 256 ≤ 7 ∧ (w.toNat / 512 ≠ 0 ∨ (w.toNat / 256 % 2 = 1 ∧ w.toNat % 256 ≤ 2))
        ∧ decode w = .error .reservedBits) := by
  by_cases h8 : 8 ≤ w.toNat % 256
  · exact .inl ⟨h8, decode_illegal h8⟩
  · right
    have hr : w.toNat / 512 ≠ 0 ∨ (w.toNat / 256 % 2 = 1 ∧ w.toNat % 256 ≤ 2) := by
      by_contra hn
      rw [← Bool.not_eq_true, wordWf_iff] at h
      omega
    exact ⟨by omega, hr, decode_reserved (by omega) hr⟩

end Sys2Proof

namespace Sys2Proof.Machine

theorem accessInWindow_iff (a : Nat) : accessInWindow a = true ↔ a < 0x2000 := decide_eq_true_iff

/-- An access is refused exactly where it is not well formed. -/
theorem accessRefusal_eq_none (a width : Nat) : accessRefusal a width = none ↔ accessWf a width = true := by
  simp only [accessWf, accessWidthOk, accessAligned, Bool.and_eq_true, beq_iff_eq, accessInWindow_iff, accessRefusal]
  split
  · simp_all
  · split
    · simp_all
    · split <;> simp_all

theorem accessRefusal_word {a : Nat} (h4 : a % 4 = 0) (hw : a < 0x2000) : accessRefusal a 4 = none := by
  simp [accessRefusal, h4, hw]

end Sys2Proof.Machine
end

