-- ==== Sys2Proof/Laws/Operands.lean ====
section
/-! SUPPORT. The byte order and the widenings, bit by bit (00_scope.md R11, R12). -/

namespace Sys2Proof.Machine

/-- The bits of a big-endian word (00_scope.md R12). -/
theorem be32_getLsbD (b0 b1 b2 b3 : Byte) (i : Nat) :
    (be32 b0 b1 b2 b3).getLsbD i = if i < 8 then b3.getLsbD i else if i < 16 then b2.getLsbD (i - 8)
      else if i < 24 then b1.getLsbD (i - 16) else b0.getLsbD (i - 24) := by
  simp only [be32, BitVec.getLsbD_append]
  by_cases h8 : i < 8
  · simp [h8]
  · by_cases h16 : i < 16
    · simp [h8, h16, show i - 8 < 8 by omega]
    · by_cases h24 : i < 24
      · simp [h8, h16, h24, show ¬ i - 8 < 8 by omega, show i - 16 < 8 by omega, show i - 8 - 8 = i - 16 by omega]
      · simp [h8, h16, h24, show ¬ i - 8 < 8 by omega, show ¬ i - 8 - 8 < 8 by omega, show i - 8 - 8 - 8 = i - 24 by omega]

theorem byteOf_getLsbD (w : Word) (k i : Nat) : (byteOf w k).getLsbD i = (decide (i < 8) && w.getLsbD (24 - 8 * k + i)) := by
  simp [byteOf]

/-- `be32` after `unbe32` (00_scope.md R12). -/
theorem be32_byteOf (w : Word) : be32 (byteOf w 0) (byteOf w 1) (byteOf w 2) (byteOf w 3) = w := by
  apply BitVec.eq_of_getLsbD_eq
  intro i hi
  simp only [be32_getLsbD, byteOf_getLsbD]
  by_cases h8 : i < 8
  · simp [h8]
  · by_cases h16 : i < 16
    · simp [h8, h16, show i - 8 < 8 by omega, show 8 + (i - 8) = i by omega]
    · by_cases h24 : i < 24
      · simp [h8, h16, h24, show i - 16 < 8 by omega, show 16 + (i - 16) = i by omega]
      · simp [h8, h16, h24, show i - 24 < 8 by omega, show 24 + (i - 24) = i by omega]

/-- `unbe32` after `be32` (00_scope.md R12). -/
theorem byteOf_be32 (b0 b1 b2 b3 : Byte) : byteOf (be32 b0 b1 b2 b3) 0 = b0 ∧ byteOf (be32 b0 b1 b2 b3) 1 = b1
    ∧ byteOf (be32 b0 b1 b2 b3) 2 = b2 ∧ byteOf (be32 b0 b1 b2 b3) 3 = b3 := by
  refine ⟨?_, ?_, ?_, ?_⟩ <;> apply BitVec.eq_of_getLsbD_eq <;> intro i hi <;>
    simp only [byteOf_getLsbD, be32_getLsbD, hi, decide_true, Bool.true_and]
  · simp [show ¬ 24 + i < 8 by omega, show ¬ 24 + i < 16 by omega]
  · simp [show ¬ 16 + i < 8 by omega, show 16 + i < 24 by omega]
  · simp [show 8 + i < 16 by omega]
  · simp [hi]

theorem widen_false (b : Byte) : widen false b = b.setWidth 32 := rfl

/-- `sext_32` is sign extension (00_scope.md R11). -/
theorem widen_true (b : Byte) : widen true b = b.signExtend 32 := by
  revert b
  decide +kernel

/-- The bits of a widened byte (00_scope.md R11). -/
theorem widen_getLsbD (sx : Bool) (b : Byte) (i : Nat) (hi : i < 32) :
    (widen sx b).getLsbD i = if i < 8 then b.getLsbD i else sx && b.getLsbD 7 := by
  cases sx with
  | false =>
    rw [widen_false, BitVec.getLsbD_setWidth]
    by_cases h8 : i < 8
    · simp [hi, h8]
    · simp [h8, BitVec.getLsbD_of_ge b i (by omega)]
  | true =>
    rw [widen_true, BitVec.getLsbD_signExtend]
    simp [hi, BitVec.msb_eq_getLsbD_last]

/-- Four zero-extended bytes packed one after another are their big-endian word (41_key_schedule.md R121). -/
theorem pack_false (b0 b1 b2 b3 : Byte) :
    (widen false b0 <<< 24) ||| (widen false b1 <<< 16) ||| (widen false b2 <<< 8) ||| widen false b3 = be32 b0 b1 b2 b3 := by
  apply BitVec.eq_of_getLsbD_eq
  intro i hi
  simp only [BitVec.getLsbD_or, BitVec.getLsbD_shiftLeft, be32_getLsbD, hi, decide_true, Bool.true_and]
  rw [widen_getLsbD _ _ i hi, widen_getLsbD _ _ _ (show i - 8 < 32 by omega), widen_getLsbD _ _ _ (show i - 16 < 32 by omega), widen_getLsbD _ _ _ (show i - 24 < 32 by omega)]
  by_cases h8 : i < 8
  · simp [h8, show i < 16 by omega, show i < 24 by omega]
  · by_cases h16 : i < 16
    · simp [h8, h16, show i - 8 < 8 by omega, show i < 24 by omega]
    · by_cases h24 : i < 24
      · simp [h8, h16, h24, show i - 16 < 8 by omega, show ¬ i - 8 < 8 by omega]
      · simp [h8, h16, h24, show i - 24 < 8 by omega, show ¬ i - 8 < 8 by omega, show ¬ i - 16 < 8 by omega]

end Sys2Proof.Machine
end

