-- ==== Sys2Proof/Laws/State.lean ====
section
/-! SUPPORT. One lemma per field per update of State, true by unfolding the update once, so that no later proof unfolds it. -/

namespace Sys2Proof.Machine

@[simp] theorem State.dropWrite_cipher (s : State) : s.dropWrite.cipher = s.cipher := rfl
@[simp] theorem State.dropWrite_status (s : State) : s.dropWrite.status = s.status.dropped := rfl
@[simp] theorem State.dropWrite_cost (s : State) : s.dropWrite.cost = s.cost := rfl
@[simp] theorem State.dropWrite_keylen (s : State) : s.dropWrite.keylen = s.keylen := rfl
@[simp] theorem State.dropWrite_key (s : State) : s.dropWrite.key = s.key := rfl
@[simp] theorem State.dropWrite_salt (s : State) : s.dropWrite.salt = s.salt := rfl
@[simp] theorem State.dropWrite_blkL (s : State) : s.dropWrite.blkL = s.blkL := rfl
@[simp] theorem State.dropWrite_blkR (s : State) : s.dropWrite.blkR = s.blkR := rfl
@[simp] theorem State.dropWrite_digest (s : State) : s.dropWrite.digest = s.digest := rfl
@[simp] theorem State.dropWrite_seq (s : State) : s.dropWrite.seq = s.seq := rfl
@[simp] theorem State.dropWrite_unseen (s : State) : s.dropWrite.unseen = s.unseen := rfl
@[simp] theorem State.dropWrite_dropMark (s : State) : s.dropWrite.dropMark = true := rfl
@[simp] theorem State.dropWrite_inputs (s : State) : s.dropWrite.inputs = s.inputs := rfl
@[simp] theorem State.dropWrite_reads (s : State) : s.dropWrite.reads = s.reads := rfl
@[simp] theorem State.dropWrite_draws (s : State) : s.dropWrite.draws = s.draws := rfl

@[simp] theorem State.clearRecord_cipher (s : State) : s.clearRecord.cipher = s.cipher := rfl
@[simp] theorem State.clearRecord_status (s : State) : s.clearRecord.status = s.status.cleared := rfl
@[simp] theorem State.clearRecord_cost (s : State) : s.clearRecord.cost = s.cost := rfl
@[simp] theorem State.clearRecord_keylen (s : State) : s.clearRecord.keylen = s.keylen := rfl
@[simp] theorem State.clearRecord_key (s : State) : s.clearRecord.key = s.key := rfl
@[simp] theorem State.clearRecord_salt (s : State) : s.clearRecord.salt = s.salt := rfl
@[simp] theorem State.clearRecord_blkL (s : State) : s.clearRecord.blkL = s.blkL := rfl
@[simp] theorem State.clearRecord_blkR (s : State) : s.clearRecord.blkR = s.blkR := rfl
@[simp] theorem State.clearRecord_digest (s : State) : s.clearRecord.digest = s.digest := rfl
@[simp] theorem State.clearRecord_seq (s : State) : s.clearRecord.seq = s.seq := rfl
@[simp] theorem State.clearRecord_unseen (s : State) : s.clearRecord.unseen = s.unseen := rfl
@[simp] theorem State.clearRecord_dropMark (s : State) : s.clearRecord.dropMark = s.dropMark := rfl
@[simp] theorem State.clearRecord_inputs (s : State) : s.clearRecord.inputs = s.inputs := rfl
@[simp] theorem State.clearRecord_reads (s : State) : s.clearRecord.reads = s.reads := rfl
@[simp] theorem State.clearRecord_draws (s : State) : s.clearRecord.draws = s.draws := rfl

@[simp] theorem State.reject_cipher (s : State) (r : Reject) : (s.reject r).cipher = s.cipher := rfl
@[simp] theorem State.reject_status (s : State) (r : Reject) : (s.reject r).status = s.status.rejected r := rfl
@[simp] theorem State.reject_cost (s : State) (r : Reject) : (s.reject r).cost = s.cost := rfl
@[simp] theorem State.reject_keylen (s : State) (r : Reject) : (s.reject r).keylen = s.keylen := rfl
@[simp] theorem State.reject_key (s : State) (r : Reject) : (s.reject r).key = s.key := rfl
@[simp] theorem State.reject_salt (s : State) (r : Reject) : (s.reject r).salt = s.salt := rfl
@[simp] theorem State.reject_blkL (s : State) (r : Reject) : (s.reject r).blkL = s.blkL := rfl
@[simp] theorem State.reject_blkR (s : State) (r : Reject) : (s.reject r).blkR = s.blkR := rfl
@[simp] theorem State.reject_digest (s : State) (r : Reject) : (s.reject r).digest = s.digest := rfl
@[simp] theorem State.reject_seq (s : State) (r : Reject) : (s.reject r).seq = s.seq := rfl
@[simp] theorem State.reject_unseen (s : State) (r : Reject) : (s.reject r).unseen = s.unseen := rfl
@[simp] theorem State.reject_dropMark (s : State) (r : Reject) : (s.reject r).dropMark = s.dropMark := rfl
@[simp] theorem State.reject_inputs (s : State) (r : Reject) : (s.reject r).inputs = s.inputs := rfl
@[simp] theorem State.reject_reads (s : State) (r : Reject) : (s.reject r).reads = s.reads := rfl
@[simp] theorem State.reject_draws (s : State) (r : Reject) : (s.reject r).draws = s.draws := rfl

@[simp] theorem State.toPhase_cipher (s : State) (p : Phase) : (s.toPhase p).cipher = s.cipher := rfl
@[simp] theorem State.toPhase_status (s : State) (p : Phase) : (s.toPhase p).status = s.status := rfl
@[simp] theorem State.toPhase_cost (s : State) (p : Phase) : (s.toPhase p).cost = s.cost := rfl
@[simp] theorem State.toPhase_keylen (s : State) (p : Phase) : (s.toPhase p).keylen = s.keylen := rfl
@[simp] theorem State.toPhase_key (s : State) (p : Phase) : (s.toPhase p).key = s.key := rfl
@[simp] theorem State.toPhase_salt (s : State) (p : Phase) : (s.toPhase p).salt = s.salt := rfl
@[simp] theorem State.toPhase_blkL (s : State) (p : Phase) : (s.toPhase p).blkL = s.blkL := rfl
@[simp] theorem State.toPhase_blkR (s : State) (p : Phase) : (s.toPhase p).blkR = s.blkR := rfl
@[simp] theorem State.toPhase_digest (s : State) (p : Phase) : (s.toPhase p).digest = s.digest := rfl
@[simp] theorem State.toPhase_seq (s : State) (p : Phase) : (s.toPhase p).seq = { s.seq with phase := p } := rfl
@[simp] theorem State.toPhase_unseen (s : State) (p : Phase) : (s.toPhase p).unseen = s.unseen := rfl
@[simp] theorem State.toPhase_dropMark (s : State) (p : Phase) : (s.toPhase p).dropMark = s.dropMark := rfl
@[simp] theorem State.toPhase_inputs (s : State) (p : Phase) : (s.toPhase p).inputs = s.inputs := rfl
@[simp] theorem State.toPhase_reads (s : State) (p : Phase) : (s.toPhase p).reads = s.reads := rfl
@[simp] theorem State.toPhase_draws (s : State) (p : Phase) : (s.toPhase p).draws = s.draws := rfl

@[simp] theorem State.beginExpansion_cipher (s : State) (src : KeySource) (x f : Bool) (g : Stage) : (s.beginExpansion src x f g).cipher = s.cipher := rfl
@[simp] theorem State.beginExpansion_status (s : State) (src : KeySource) (x f : Bool) (g : Stage) : (s.beginExpansion src x f g).status = s.status := rfl
@[simp] theorem State.beginExpansion_cost (s : State) (src : KeySource) (x f : Bool) (g : Stage) : (s.beginExpansion src x f g).cost = s.cost := rfl
@[simp] theorem State.beginExpansion_keylen (s : State) (src : KeySource) (x f : Bool) (g : Stage) : (s.beginExpansion src x f g).keylen = s.keylen := rfl
@[simp] theorem State.beginExpansion_key (s : State) (src : KeySource) (x f : Bool) (g : Stage) : (s.beginExpansion src x f g).key = s.key := rfl
@[simp] theorem State.beginExpansion_salt (s : State) (src : KeySource) (x f : Bool) (g : Stage) : (s.beginExpansion src x f g).salt = s.salt := rfl
@[simp] theorem State.beginExpansion_blkL (s : State) (src : KeySource) (x f : Bool) (g : Stage) : (s.beginExpansion src x f g).blkL = s.blkL := rfl
@[simp] theorem State.beginExpansion_blkR (s : State) (src : KeySource) (x f : Bool) (g : Stage) : (s.beginExpansion src x f g).blkR = s.blkR := rfl
@[simp] theorem State.beginExpansion_digest (s : State) (src : KeySource) (x f : Bool) (g : Stage) : (s.beginExpansion src x f g).digest = s.digest := rfl
@[simp] theorem State.beginExpansion_seq (s : State) (src : KeySource) (x f : Bool) (g : Stage) : (s.beginExpansion src x f g).seq = { s.seq with src := src, sx := x, fillSalt := f, stage := g, koff := 0, n := 0, phase := .keyxor } := rfl
@[simp] theorem State.beginExpansion_unseen (s : State) (src : KeySource) (x f : Bool) (g : Stage) : (s.beginExpansion src x f g).unseen = s.unseen := rfl
@[simp] theorem State.beginExpansion_dropMark (s : State) (src : KeySource) (x f : Bool) (g : Stage) : (s.beginExpansion src x f g).dropMark = s.dropMark := rfl
@[simp] theorem State.beginExpansion_inputs (s : State) (src : KeySource) (x f : Bool) (g : Stage) : (s.beginExpansion src x f g).inputs = s.inputs := rfl
@[simp] theorem State.beginExpansion_reads (s : State) (src : KeySource) (x f : Bool) (g : Stage) : (s.beginExpansion src x f g).reads = s.reads := rfl
@[simp] theorem State.beginExpansion_draws (s : State) (src : KeySource) (x f : Bool) (g : Stage) : (s.beginExpansion src x f g).draws = s.draws := rfl

@[simp] theorem State.complete_cipher (s : State) (i : Instr) : (s.complete i).cipher = s.cipher := rfl
@[simp] theorem State.complete_status (s : State) (i : Instr) : (s.complete i).status = s.status.completed i := rfl
@[simp] theorem State.complete_cost (s : State) (i : Instr) : (s.complete i).cost = s.cost := rfl
@[simp] theorem State.complete_keylen (s : State) (i : Instr) : (s.complete i).keylen = s.keylen := rfl
@[simp] theorem State.complete_key (s : State) (i : Instr) : (s.complete i).key = s.key := rfl
@[simp] theorem State.complete_salt (s : State) (i : Instr) : (s.complete i).salt = s.salt := rfl
@[simp] theorem State.complete_blkL (s : State) (i : Instr) : (s.complete i).blkL = s.blkL := rfl
@[simp] theorem State.complete_blkR (s : State) (i : Instr) : (s.complete i).blkR = s.blkR := rfl
@[simp] theorem State.complete_digest (s : State) (i : Instr) : (s.complete i).digest = s.digest := rfl
@[simp] theorem State.complete_seq (s : State) (i : Instr) : (s.complete i).seq = { s.seq with phase := .idle } := rfl
@[simp] theorem State.complete_unseen (s : State) (i : Instr) : (s.complete i).unseen = s.unseen := rfl
@[simp] theorem State.complete_dropMark (s : State) (i : Instr) : (s.complete i).dropMark = s.dropMark := rfl
@[simp] theorem State.complete_inputs (s : State) (i : Instr) : (s.complete i).inputs = s.inputs := rfl
@[simp] theorem State.complete_reads (s : State) (i : Instr) : (s.complete i).reads = s.reads := rfl
@[simp] theorem State.complete_draws (s : State) (i : Instr) : (s.complete i).draws = s.draws := rfl

@[simp] theorem State.loadRom_cipher (s : State) : s.loadRom.cipher = Cipher.load := rfl
@[simp] theorem State.loadRom_status (s : State) : s.loadRom.status = s.status := rfl
@[simp] theorem State.loadRom_cost (s : State) : s.loadRom.cost = s.cost := rfl
@[simp] theorem State.loadRom_keylen (s : State) : s.loadRom.keylen = s.keylen := rfl
@[simp] theorem State.loadRom_key (s : State) : s.loadRom.key = s.key := rfl
@[simp] theorem State.loadRom_salt (s : State) : s.loadRom.salt = s.salt := rfl
@[simp] theorem State.loadRom_blkL (s : State) : s.loadRom.blkL = s.blkL := rfl
@[simp] theorem State.loadRom_blkR (s : State) : s.loadRom.blkR = s.blkR := rfl
@[simp] theorem State.loadRom_digest (s : State) : s.loadRom.digest = s.digest := rfl
@[simp] theorem State.loadRom_seq (s : State) : s.loadRom.seq = s.seq := rfl
@[simp] theorem State.loadRom_unseen (s : State) : s.loadRom.unseen = s.unseen := rfl
@[simp] theorem State.loadRom_dropMark (s : State) : s.loadRom.dropMark = s.dropMark := rfl
@[simp] theorem State.loadRom_inputs (s : State) : s.loadRom.inputs = s.inputs := rfl
@[simp] theorem State.loadRom_reads (s : State) : s.loadRom.reads = s.reads := rfl
@[simp] theorem State.loadRom_draws (s : State) : s.loadRom.draws = s.draws := rfl

@[simp] theorem State.encryptBlk_cipher (s : State) : s.encryptBlk.cipher = s.cipher := rfl
@[simp] theorem State.encryptBlk_status (s : State) : s.encryptBlk.status = s.status := rfl
@[simp] theorem State.encryptBlk_cost (s : State) : s.encryptBlk.cost = s.cost := rfl
@[simp] theorem State.encryptBlk_keylen (s : State) : s.encryptBlk.keylen = s.keylen := rfl
@[simp] theorem State.encryptBlk_key (s : State) : s.encryptBlk.key = s.key := rfl
@[simp] theorem State.encryptBlk_salt (s : State) : s.encryptBlk.salt = s.salt := rfl
@[simp] theorem State.encryptBlk_blkL (s : State) : s.encryptBlk.blkL = (s.cipher.encryptBlock (s.blkL, s.blkR)).1 := rfl
@[simp] theorem State.encryptBlk_blkR (s : State) : s.encryptBlk.blkR = (s.cipher.encryptBlock (s.blkL, s.blkR)).2 := rfl
@[simp] theorem State.encryptBlk_digest (s : State) : s.encryptBlk.digest = s.digest := rfl
@[simp] theorem State.encryptBlk_seq (s : State) : s.encryptBlk.seq = s.seq := rfl
@[simp] theorem State.encryptBlk_unseen (s : State) : s.encryptBlk.unseen = s.unseen := rfl
@[simp] theorem State.encryptBlk_dropMark (s : State) : s.encryptBlk.dropMark = s.dropMark := rfl
@[simp] theorem State.encryptBlk_inputs (s : State) : s.encryptBlk.inputs = s.inputs := rfl
@[simp] theorem State.encryptBlk_reads (s : State) : s.encryptBlk.reads = s.reads := rfl
@[simp] theorem State.encryptBlk_draws (s : State) : s.encryptBlk.draws = s.draws := rfl

theorem State.setCipher_cipher (s : State) (c : Cipher) : ({ s with cipher := c } : State).cipher = c := rfl
theorem State.setCipher_status (s : State) (c : Cipher) : ({ s with cipher := c } : State).status = s.status := rfl
theorem State.setCipher_cost (s : State) (c : Cipher) : ({ s with cipher := c } : State).cost = s.cost := rfl
theorem State.setCipher_keylen (s : State) (c : Cipher) : ({ s with cipher := c } : State).keylen = s.keylen := rfl
theorem State.setCipher_key (s : State) (c : Cipher) : ({ s with cipher := c } : State).key = s.key := rfl
theorem State.setCipher_salt (s : State) (c : Cipher) : ({ s with cipher := c } : State).salt = s.salt := rfl
theorem State.setCipher_blkL (s : State) (c : Cipher) : ({ s with cipher := c } : State).blkL = s.blkL := rfl
theorem State.setCipher_blkR (s : State) (c : Cipher) : ({ s with cipher := c } : State).blkR = s.blkR := rfl
theorem State.setCipher_digest (s : State) (c : Cipher) : ({ s with cipher := c } : State).digest = s.digest := rfl
theorem State.setCipher_seq (s : State) (c : Cipher) : ({ s with cipher := c } : State).seq = s.seq := rfl
theorem State.setCipher_unseen (s : State) (c : Cipher) : ({ s with cipher := c } : State).unseen = s.unseen := rfl
theorem State.setCipher_dropMark (s : State) (c : Cipher) : ({ s with cipher := c } : State).dropMark = s.dropMark := rfl
theorem State.setCipher_inputs (s : State) (c : Cipher) : ({ s with cipher := c } : State).inputs = s.inputs := rfl
theorem State.setCipher_reads (s : State) (c : Cipher) : ({ s with cipher := c } : State).reads = s.reads := rfl
theorem State.setCipher_draws (s : State) (c : Cipher) : ({ s with cipher := c } : State).draws = s.draws := rfl

theorem State.setDigest_cipher (s : State) (d : Vector Word 6) : ({ s with digest := d } : State).cipher = s.cipher := rfl
theorem State.setDigest_status (s : State) (d : Vector Word 6) : ({ s with digest := d } : State).status = s.status := rfl
theorem State.setDigest_cost (s : State) (d : Vector Word 6) : ({ s with digest := d } : State).cost = s.cost := rfl
theorem State.setDigest_keylen (s : State) (d : Vector Word 6) : ({ s with digest := d } : State).keylen = s.keylen := rfl
theorem State.setDigest_key (s : State) (d : Vector Word 6) : ({ s with digest := d } : State).key = s.key := rfl
theorem State.setDigest_salt (s : State) (d : Vector Word 6) : ({ s with digest := d } : State).salt = s.salt := rfl
theorem State.setDigest_blkL (s : State) (d : Vector Word 6) : ({ s with digest := d } : State).blkL = s.blkL := rfl
theorem State.setDigest_blkR (s : State) (d : Vector Word 6) : ({ s with digest := d } : State).blkR = s.blkR := rfl
theorem State.setDigest_digest (s : State) (d : Vector Word 6) : ({ s with digest := d } : State).digest = d := rfl
theorem State.setDigest_seq (s : State) (d : Vector Word 6) : ({ s with digest := d } : State).seq = s.seq := rfl
theorem State.setDigest_unseen (s : State) (d : Vector Word 6) : ({ s with digest := d } : State).unseen = s.unseen := rfl
theorem State.setDigest_dropMark (s : State) (d : Vector Word 6) : ({ s with digest := d } : State).dropMark = s.dropMark := rfl
theorem State.setDigest_inputs (s : State) (d : Vector Word 6) : ({ s with digest := d } : State).inputs = s.inputs := rfl
theorem State.setDigest_reads (s : State) (d : Vector Word 6) : ({ s with digest := d } : State).reads = s.reads := rfl
theorem State.setDigest_draws (s : State) (d : Vector Word 6) : ({ s with digest := d } : State).draws = s.draws := rfl

@[simp] theorem State.expandWithKey_cipher (s : State) (x : Bool) : (s.expandWithKey x).cipher = s.cipher.expandKey s.keyBytes x := State.setCipher_cipher s _
@[simp] theorem State.expandWithKey_status (s : State) (x : Bool) : (s.expandWithKey x).status = s.status := State.setCipher_status s _
@[simp] theorem State.expandWithKey_cost (s : State) (x : Bool) : (s.expandWithKey x).cost = s.cost := State.setCipher_cost s _
@[simp] theorem State.expandWithKey_keylen (s : State) (x : Bool) : (s.expandWithKey x).keylen = s.keylen := State.setCipher_keylen s _
@[simp] theorem State.expandWithKey_key (s : State) (x : Bool) : (s.expandWithKey x).key = s.key := State.setCipher_key s _
@[simp] theorem State.expandWithKey_salt (s : State) (x : Bool) : (s.expandWithKey x).salt = s.salt := State.setCipher_salt s _
@[simp] theorem State.expandWithKey_blkL (s : State) (x : Bool) : (s.expandWithKey x).blkL = s.blkL := State.setCipher_blkL s _
@[simp] theorem State.expandWithKey_blkR (s : State) (x : Bool) : (s.expandWithKey x).blkR = s.blkR := State.setCipher_blkR s _
@[simp] theorem State.expandWithKey_digest (s : State) (x : Bool) : (s.expandWithKey x).digest = s.digest := State.setCipher_digest s _
@[simp] theorem State.expandWithKey_seq (s : State) (x : Bool) : (s.expandWithKey x).seq = s.seq := State.setCipher_seq s _
@[simp] theorem State.expandWithKey_unseen (s : State) (x : Bool) : (s.expandWithKey x).unseen = s.unseen := State.setCipher_unseen s _
@[simp] theorem State.expandWithKey_dropMark (s : State) (x : Bool) : (s.expandWithKey x).dropMark = s.dropMark := State.setCipher_dropMark s _
@[simp] theorem State.expandWithKey_inputs (s : State) (x : Bool) : (s.expandWithKey x).inputs = s.inputs := State.setCipher_inputs s _
@[simp] theorem State.expandWithKey_reads (s : State) (x : Bool) : (s.expandWithKey x).reads = s.reads := State.setCipher_reads s _
@[simp] theorem State.expandWithKey_draws (s : State) (x : Bool) : (s.expandWithKey x).draws = s.draws := State.setCipher_draws s _

@[simp] theorem State.expandWithSalt_cipher (s : State) (x : Bool) : (s.expandWithSalt x).cipher = s.cipher.expandKey s.saltBytes x := State.setCipher_cipher s _
@[simp] theorem State.expandWithSalt_status (s : State) (x : Bool) : (s.expandWithSalt x).status = s.status := State.setCipher_status s _
@[simp] theorem State.expandWithSalt_cost (s : State) (x : Bool) : (s.expandWithSalt x).cost = s.cost := State.setCipher_cost s _
@[simp] theorem State.expandWithSalt_keylen (s : State) (x : Bool) : (s.expandWithSalt x).keylen = s.keylen := State.setCipher_keylen s _
@[simp] theorem State.expandWithSalt_key (s : State) (x : Bool) : (s.expandWithSalt x).key = s.key := State.setCipher_key s _
@[simp] theorem State.expandWithSalt_salt (s : State) (x : Bool) : (s.expandWithSalt x).salt = s.salt := State.setCipher_salt s _
@[simp] theorem State.expandWithSalt_blkL (s : State) (x : Bool) : (s.expandWithSalt x).blkL = s.blkL := State.setCipher_blkL s _
@[simp] theorem State.expandWithSalt_blkR (s : State) (x : Bool) : (s.expandWithSalt x).blkR = s.blkR := State.setCipher_blkR s _
@[simp] theorem State.expandWithSalt_digest (s : State) (x : Bool) : (s.expandWithSalt x).digest = s.digest := State.setCipher_digest s _
@[simp] theorem State.expandWithSalt_seq (s : State) (x : Bool) : (s.expandWithSalt x).seq = s.seq := State.setCipher_seq s _
@[simp] theorem State.expandWithSalt_unseen (s : State) (x : Bool) : (s.expandWithSalt x).unseen = s.unseen := State.setCipher_unseen s _
@[simp] theorem State.expandWithSalt_dropMark (s : State) (x : Bool) : (s.expandWithSalt x).dropMark = s.dropMark := State.setCipher_dropMark s _
@[simp] theorem State.expandWithSalt_inputs (s : State) (x : Bool) : (s.expandWithSalt x).inputs = s.inputs := State.setCipher_inputs s _
@[simp] theorem State.expandWithSalt_reads (s : State) (x : Bool) : (s.expandWithSalt x).reads = s.reads := State.setCipher_reads s _
@[simp] theorem State.expandWithSalt_draws (s : State) (x : Bool) : (s.expandWithSalt x).draws = s.draws := State.setCipher_draws s _

@[simp] theorem State.expandWithBoth_cipher (s : State) (x : Bool) : (s.expandWithBoth x).cipher = s.cipher.expandState s.saltBytes s.keyBytes x := State.setCipher_cipher s _
@[simp] theorem State.expandWithBoth_status (s : State) (x : Bool) : (s.expandWithBoth x).status = s.status := State.setCipher_status s _
@[simp] theorem State.expandWithBoth_cost (s : State) (x : Bool) : (s.expandWithBoth x).cost = s.cost := State.setCipher_cost s _
@[simp] theorem State.expandWithBoth_keylen (s : State) (x : Bool) : (s.expandWithBoth x).keylen = s.keylen := State.setCipher_keylen s _
@[simp] theorem State.expandWithBoth_key (s : State) (x : Bool) : (s.expandWithBoth x).key = s.key := State.setCipher_key s _
@[simp] theorem State.expandWithBoth_salt (s : State) (x : Bool) : (s.expandWithBoth x).salt = s.salt := State.setCipher_salt s _
@[simp] theorem State.expandWithBoth_blkL (s : State) (x : Bool) : (s.expandWithBoth x).blkL = s.blkL := State.setCipher_blkL s _
@[simp] theorem State.expandWithBoth_blkR (s : State) (x : Bool) : (s.expandWithBoth x).blkR = s.blkR := State.setCipher_blkR s _
@[simp] theorem State.expandWithBoth_digest (s : State) (x : Bool) : (s.expandWithBoth x).digest = s.digest := State.setCipher_digest s _
@[simp] theorem State.expandWithBoth_seq (s : State) (x : Bool) : (s.expandWithBoth x).seq = s.seq := State.setCipher_seq s _
@[simp] theorem State.expandWithBoth_unseen (s : State) (x : Bool) : (s.expandWithBoth x).unseen = s.unseen := State.setCipher_unseen s _
@[simp] theorem State.expandWithBoth_dropMark (s : State) (x : Bool) : (s.expandWithBoth x).dropMark = s.dropMark := State.setCipher_dropMark s _
@[simp] theorem State.expandWithBoth_inputs (s : State) (x : Bool) : (s.expandWithBoth x).inputs = s.inputs := State.setCipher_inputs s _
@[simp] theorem State.expandWithBoth_reads (s : State) (x : Bool) : (s.expandWithBoth x).reads = s.reads := State.setCipher_reads s _
@[simp] theorem State.expandWithBoth_draws (s : State) (x : Bool) : (s.expandWithBoth x).draws = s.draws := State.setCipher_draws s _

@[simp] theorem State.runEks_cipher (s : State) (x : Bool) : (s.runEks x).cipher = eksSetup s.costNat s.saltBytes s.keyBytes x := State.setCipher_cipher s _
@[simp] theorem State.runEks_status (s : State) (x : Bool) : (s.runEks x).status = s.status := State.setCipher_status s _
@[simp] theorem State.runEks_cost (s : State) (x : Bool) : (s.runEks x).cost = s.cost := State.setCipher_cost s _
@[simp] theorem State.runEks_keylen (s : State) (x : Bool) : (s.runEks x).keylen = s.keylen := State.setCipher_keylen s _
@[simp] theorem State.runEks_key (s : State) (x : Bool) : (s.runEks x).key = s.key := State.setCipher_key s _
@[simp] theorem State.runEks_salt (s : State) (x : Bool) : (s.runEks x).salt = s.salt := State.setCipher_salt s _
@[simp] theorem State.runEks_blkL (s : State) (x : Bool) : (s.runEks x).blkL = s.blkL := State.setCipher_blkL s _
@[simp] theorem State.runEks_blkR (s : State) (x : Bool) : (s.runEks x).blkR = s.blkR := State.setCipher_blkR s _
@[simp] theorem State.runEks_digest (s : State) (x : Bool) : (s.runEks x).digest = s.digest := State.setCipher_digest s _
@[simp] theorem State.runEks_seq (s : State) (x : Bool) : (s.runEks x).seq = s.seq := State.setCipher_seq s _
@[simp] theorem State.runEks_unseen (s : State) (x : Bool) : (s.runEks x).unseen = s.unseen := State.setCipher_unseen s _
@[simp] theorem State.runEks_dropMark (s : State) (x : Bool) : (s.runEks x).dropMark = s.dropMark := State.setCipher_dropMark s _
@[simp] theorem State.runEks_inputs (s : State) (x : Bool) : (s.runEks x).inputs = s.inputs := State.setCipher_inputs s _
@[simp] theorem State.runEks_reads (s : State) (x : Bool) : (s.runEks x).reads = s.reads := State.setCipher_reads s _
@[simp] theorem State.runEks_draws (s : State) (x : Bool) : (s.runEks x).draws = s.draws := State.setCipher_draws s _

@[simp] theorem State.storeDigest_cipher (s : State) : s.storeDigest.cipher = s.cipher := State.setDigest_cipher s _
@[simp] theorem State.storeDigest_status (s : State) : s.storeDigest.status = s.status := State.setDigest_status s _
@[simp] theorem State.storeDigest_cost (s : State) : s.storeDigest.cost = s.cost := State.setDigest_cost s _
@[simp] theorem State.storeDigest_keylen (s : State) : s.storeDigest.keylen = s.keylen := State.setDigest_keylen s _
@[simp] theorem State.storeDigest_key (s : State) : s.storeDigest.key = s.key := State.setDigest_key s _
@[simp] theorem State.storeDigest_salt (s : State) : s.storeDigest.salt = s.salt := State.setDigest_salt s _
@[simp] theorem State.storeDigest_blkL (s : State) : s.storeDigest.blkL = s.blkL := State.setDigest_blkL s _
@[simp] theorem State.storeDigest_blkR (s : State) : s.storeDigest.blkR = s.blkR := State.setDigest_blkR s _
@[simp] theorem State.storeDigest_digest (s : State) : s.storeDigest.digest = s.cipher.digest := State.setDigest_digest s _
@[simp] theorem State.storeDigest_seq (s : State) : s.storeDigest.seq = s.seq := State.setDigest_seq s _
@[simp] theorem State.storeDigest_unseen (s : State) : s.storeDigest.unseen = s.unseen := State.setDigest_unseen s _
@[simp] theorem State.storeDigest_dropMark (s : State) : s.storeDigest.dropMark = s.dropMark := State.setDigest_dropMark s _
@[simp] theorem State.storeDigest_inputs (s : State) : s.storeDigest.inputs = s.inputs := State.setDigest_inputs s _
@[simp] theorem State.storeDigest_reads (s : State) : s.storeDigest.reads = s.reads := State.setDigest_reads s _
@[simp] theorem State.storeDigest_draws (s : State) : s.storeDigest.draws = s.draws := State.setDigest_draws s _

@[simp] theorem State.runBcrypt_cipher (s : State) (x : Bool) : (s.runBcrypt x).cipher = eksSetup s.costNat s.saltBytes s.keyBytes x := by rw [State.runBcrypt, State.storeDigest_cipher, State.runEks_cipher]
@[simp] theorem State.runBcrypt_status (s : State) (x : Bool) : (s.runBcrypt x).status = s.status := by rw [State.runBcrypt, State.storeDigest_status, State.runEks_status]
@[simp] theorem State.runBcrypt_cost (s : State) (x : Bool) : (s.runBcrypt x).cost = s.cost := by rw [State.runBcrypt, State.storeDigest_cost, State.runEks_cost]
@[simp] theorem State.runBcrypt_keylen (s : State) (x : Bool) : (s.runBcrypt x).keylen = s.keylen := by rw [State.runBcrypt, State.storeDigest_keylen, State.runEks_keylen]
@[simp] theorem State.runBcrypt_key (s : State) (x : Bool) : (s.runBcrypt x).key = s.key := by rw [State.runBcrypt, State.storeDigest_key, State.runEks_key]
@[simp] theorem State.runBcrypt_salt (s : State) (x : Bool) : (s.runBcrypt x).salt = s.salt := by rw [State.runBcrypt, State.storeDigest_salt, State.runEks_salt]
@[simp] theorem State.runBcrypt_blkL (s : State) (x : Bool) : (s.runBcrypt x).blkL = s.blkL := by rw [State.runBcrypt, State.storeDigest_blkL, State.runEks_blkL]
@[simp] theorem State.runBcrypt_blkR (s : State) (x : Bool) : (s.runBcrypt x).blkR = s.blkR := by rw [State.runBcrypt, State.storeDigest_blkR, State.runEks_blkR]
@[simp] theorem State.runBcrypt_digest (s : State) (x : Bool) : (s.runBcrypt x).digest = (eksSetup s.costNat s.saltBytes s.keyBytes x).digest := by rw [State.runBcrypt, State.storeDigest_digest, State.runEks_cipher]
@[simp] theorem State.runBcrypt_seq (s : State) (x : Bool) : (s.runBcrypt x).seq = s.seq := by rw [State.runBcrypt, State.storeDigest_seq, State.runEks_seq]
@[simp] theorem State.runBcrypt_unseen (s : State) (x : Bool) : (s.runBcrypt x).unseen = s.unseen := by rw [State.runBcrypt, State.storeDigest_unseen, State.runEks_unseen]
@[simp] theorem State.runBcrypt_dropMark (s : State) (x : Bool) : (s.runBcrypt x).dropMark = s.dropMark := by rw [State.runBcrypt, State.storeDigest_dropMark, State.runEks_dropMark]
@[simp] theorem State.runBcrypt_inputs (s : State) (x : Bool) : (s.runBcrypt x).inputs = s.inputs := by rw [State.runBcrypt, State.storeDigest_inputs, State.runEks_inputs]
@[simp] theorem State.runBcrypt_reads (s : State) (x : Bool) : (s.runBcrypt x).reads = s.reads := by rw [State.runBcrypt, State.storeDigest_reads, State.runEks_reads]
@[simp] theorem State.runBcrypt_draws (s : State) (x : Bool) : (s.runBcrypt x).draws = s.draws := by rw [State.runBcrypt, State.storeDigest_draws, State.runEks_draws]

@[simp] theorem State.beginFill_cipher (s : State) : s.beginFill.cipher = s.cipher := rfl
@[simp] theorem State.beginFill_status (s : State) : s.beginFill.status = s.status := rfl
@[simp] theorem State.beginFill_cost (s : State) : s.beginFill.cost = s.cost := rfl
@[simp] theorem State.beginFill_keylen (s : State) : s.beginFill.keylen = s.keylen := rfl
@[simp] theorem State.beginFill_key (s : State) : s.beginFill.key = s.key := rfl
@[simp] theorem State.beginFill_salt (s : State) : s.beginFill.salt = s.salt := rfl
@[simp] theorem State.beginFill_blkL (s : State) : s.beginFill.blkL = s.blkL := rfl
@[simp] theorem State.beginFill_blkR (s : State) : s.beginFill.blkR = s.blkR := rfl
@[simp] theorem State.beginFill_digest (s : State) : s.beginFill.digest = s.digest := rfl
@[simp] theorem State.beginFill_seq (s : State) : s.beginFill.seq = { s.seq with bl := 0#32, br := 0#32, soff := 0, n := 0, phase := .fill } := rfl
@[simp] theorem State.beginFill_unseen (s : State) : s.beginFill.unseen = s.unseen := rfl
@[simp] theorem State.beginFill_dropMark (s : State) : s.beginFill.dropMark = s.dropMark := rfl
@[simp] theorem State.beginFill_inputs (s : State) : s.beginFill.inputs = s.inputs := rfl
@[simp] theorem State.beginFill_reads (s : State) : s.beginFill.reads = s.reads := rfl
@[simp] theorem State.beginFill_draws (s : State) : s.beginFill.draws = s.draws := rfl

@[simp] theorem State.beginDigest_cipher (s : State) : s.beginDigest.cipher = s.cipher := rfl
@[simp] theorem State.beginDigest_status (s : State) : s.beginDigest.status = s.status := rfl
@[simp] theorem State.beginDigest_cost (s : State) : s.beginDigest.cost = s.cost := rfl
@[simp] theorem State.beginDigest_keylen (s : State) : s.beginDigest.keylen = s.keylen := rfl
@[simp] theorem State.beginDigest_key (s : State) : s.beginDigest.key = s.key := rfl
@[simp] theorem State.beginDigest_salt (s : State) : s.beginDigest.salt = s.salt := rfl
@[simp] theorem State.beginDigest_blkL (s : State) : s.beginDigest.blkL = s.blkL := rfl
@[simp] theorem State.beginDigest_blkR (s : State) : s.beginDigest.blkR = s.blkR := rfl
@[simp] theorem State.beginDigest_digest (s : State) : s.beginDigest.digest = s.digest := rfl
@[simp] theorem State.beginDigest_seq (s : State) : s.beginDigest.seq = { s.seq with c := ctext, pass := 0, phase := .digest } := rfl
@[simp] theorem State.beginDigest_unseen (s : State) : s.beginDigest.unseen = s.unseen := rfl
@[simp] theorem State.beginDigest_dropMark (s : State) : s.beginDigest.dropMark = s.dropMark := rfl
@[simp] theorem State.beginDigest_inputs (s : State) : s.beginDigest.inputs = s.inputs := rfl
@[simp] theorem State.beginDigest_reads (s : State) : s.beginDigest.reads = s.reads := rfl
@[simp] theorem State.beginDigest_draws (s : State) : s.beginDigest.draws = s.draws := rfl

@[simp] theorem State.digestStep_cipher (s : State) : s.digestStep.cipher = s.cipher := rfl
@[simp] theorem State.digestStep_status (s : State) : s.digestStep.status = s.status := rfl
@[simp] theorem State.digestStep_cost (s : State) : s.digestStep.cost = s.cost := rfl
@[simp] theorem State.digestStep_keylen (s : State) : s.digestStep.keylen = s.keylen := rfl
@[simp] theorem State.digestStep_key (s : State) : s.digestStep.key = s.key := rfl
@[simp] theorem State.digestStep_salt (s : State) : s.digestStep.salt = s.salt := rfl
@[simp] theorem State.digestStep_blkL (s : State) : s.digestStep.blkL = s.blkL := rfl
@[simp] theorem State.digestStep_blkR (s : State) : s.digestStep.blkR = s.blkR := rfl
@[simp] theorem State.digestStep_digest (s : State) : s.digestStep.digest = s.digest := rfl
@[simp] theorem State.digestStep_seq (s : State) : s.digestStep.seq = { s.seq with c := s.cipher.digestPass s.seq.c, pass := s.seq.pass + 1 } := rfl
@[simp] theorem State.digestStep_unseen (s : State) : s.digestStep.unseen = s.unseen := rfl
@[simp] theorem State.digestStep_dropMark (s : State) : s.digestStep.dropMark = s.dropMark := rfl
@[simp] theorem State.digestStep_inputs (s : State) : s.digestStep.inputs = s.inputs := rfl
@[simp] theorem State.digestStep_reads (s : State) : s.digestStep.reads = s.reads := rfl
@[simp] theorem State.digestStep_draws (s : State) : s.digestStep.draws = s.draws := rfl

@[simp] theorem State.endDigest_cipher (s : State) : s.endDigest.cipher = s.cipher := rfl
@[simp] theorem State.endDigest_status (s : State) : s.endDigest.status = s.status := rfl
@[simp] theorem State.endDigest_cost (s : State) : s.endDigest.cost = s.cost := rfl
@[simp] theorem State.endDigest_keylen (s : State) : s.endDigest.keylen = s.keylen := rfl
@[simp] theorem State.endDigest_key (s : State) : s.endDigest.key = s.key := rfl
@[simp] theorem State.endDigest_salt (s : State) : s.endDigest.salt = s.salt := rfl
@[simp] theorem State.endDigest_blkL (s : State) : s.endDigest.blkL = s.blkL := rfl
@[simp] theorem State.endDigest_blkR (s : State) : s.endDigest.blkR = s.blkR := rfl
@[simp] theorem State.endDigest_digest (s : State) : s.endDigest.digest = s.seq.c := rfl
@[simp] theorem State.endDigest_seq (s : State) : s.endDigest.seq = { s.seq with phase := .finish } := rfl
@[simp] theorem State.endDigest_unseen (s : State) : s.endDigest.unseen = s.unseen := rfl
@[simp] theorem State.endDigest_dropMark (s : State) : s.endDigest.dropMark = s.dropMark := rfl
@[simp] theorem State.endDigest_inputs (s : State) : s.endDigest.inputs = s.inputs := rfl
@[simp] theorem State.endDigest_reads (s : State) : s.endDigest.reads = s.reads := rfl
@[simp] theorem State.endDigest_draws (s : State) : s.endDigest.draws = s.draws := rfl

@[simp] theorem State.hostRead_cipher (s : State) (a : Nat) : (s.hostRead a).cipher = s.cipher := rfl
@[simp] theorem State.hostRead_status (s : State) (a : Nat) : (s.hostRead a).status = s.status := rfl
@[simp] theorem State.hostRead_cost (s : State) (a : Nat) : (s.hostRead a).cost = s.cost := rfl
@[simp] theorem State.hostRead_keylen (s : State) (a : Nat) : (s.hostRead a).keylen = s.keylen := rfl
@[simp] theorem State.hostRead_key (s : State) (a : Nat) : (s.hostRead a).key = s.key := rfl
@[simp] theorem State.hostRead_salt (s : State) (a : Nat) : (s.hostRead a).salt = s.salt := rfl
@[simp] theorem State.hostRead_blkL (s : State) (a : Nat) : (s.hostRead a).blkL = s.blkL := rfl
@[simp] theorem State.hostRead_blkR (s : State) (a : Nat) : (s.hostRead a).blkR = s.blkR := rfl
@[simp] theorem State.hostRead_digest (s : State) (a : Nat) : (s.hostRead a).digest = s.digest := rfl
@[simp] theorem State.hostRead_seq (s : State) (a : Nat) : (s.hostRead a).seq = s.seq := rfl
@[simp] theorem State.hostRead_unseen (s : State) (a : Nat) : (s.hostRead a).unseen = s.unseenAfterRead (regAt a) := rfl
@[simp] theorem State.hostRead_dropMark (s : State) (a : Nat) : (s.hostRead a).dropMark = s.dropMark := rfl
@[simp] theorem State.hostRead_inputs (s : State) (a : Nat) : (s.hostRead a).inputs = s.inputs := rfl
@[simp] theorem State.hostRead_reads (s : State) (a : Nat) : (s.hostRead a).reads = (a, s.readValue (regAt a)) :: s.reads := rfl
@[simp] theorem State.hostRead_draws (s : State) (a : Nat) : (s.hostRead a).draws = if s.readIsFree (regAt a) then s.draws + 1 else s.draws := rfl

@[simp] theorem State.applyReset_cipher (s : State) : s.applyReset.cipher = State.reset.cipher := rfl
@[simp] theorem State.applyReset_status (s : State) : s.applyReset.status = State.reset.status := rfl
@[simp] theorem State.applyReset_cost (s : State) : s.applyReset.cost = State.reset.cost := rfl
@[simp] theorem State.applyReset_keylen (s : State) : s.applyReset.keylen = State.reset.keylen := rfl
@[simp] theorem State.applyReset_key (s : State) : s.applyReset.key = State.reset.key := rfl
@[simp] theorem State.applyReset_salt (s : State) : s.applyReset.salt = State.reset.salt := rfl
@[simp] theorem State.applyReset_blkL (s : State) : s.applyReset.blkL = State.reset.blkL := rfl
@[simp] theorem State.applyReset_blkR (s : State) : s.applyReset.blkR = State.reset.blkR := rfl
@[simp] theorem State.applyReset_digest (s : State) : s.applyReset.digest = State.reset.digest := rfl
@[simp] theorem State.applyReset_seq (s : State) : s.applyReset.seq = State.reset.seq := rfl
@[simp] theorem State.applyReset_unseen (s : State) : s.applyReset.unseen = .nothing := rfl
@[simp] theorem State.applyReset_dropMark (s : State) : s.applyReset.dropMark = s.dropMark := rfl
@[simp] theorem State.applyReset_inputs (s : State) : s.applyReset.inputs = s.inputs := rfl
@[simp] theorem State.applyReset_reads (s : State) : s.applyReset.reads = s.reads := rfl
@[simp] theorem State.applyReset_draws (s : State) : s.applyReset.draws = s.draws := rfl

@[simp] theorem State.accept_cipher (s : State) (i : Instr) : (s.accept i).cipher = s.cipher := by cases i <;> rfl
@[simp] theorem State.accept_cost (s : State) (i : Instr) : (s.accept i).cost = s.cost := by cases i <;> rfl
@[simp] theorem State.accept_keylen (s : State) (i : Instr) : (s.accept i).keylen = s.keylen := by cases i <;> rfl
@[simp] theorem State.accept_key (s : State) (i : Instr) : (s.accept i).key = s.key := by cases i <;> rfl
@[simp] theorem State.accept_salt (s : State) (i : Instr) : (s.accept i).salt = s.salt := by cases i <;> rfl
@[simp] theorem State.accept_blkL (s : State) (i : Instr) : (s.accept i).blkL = s.blkL := by cases i <;> rfl
@[simp] theorem State.accept_blkR (s : State) (i : Instr) : (s.accept i).blkR = s.blkR := by cases i <;> rfl
@[simp] theorem State.accept_digest (s : State) (i : Instr) : (s.accept i).digest = s.digest := by cases i <;> rfl
@[simp] theorem State.accept_unseen (s : State) (i : Instr) : (s.accept i).unseen = s.unseen.after i := by cases i <;> rfl
@[simp] theorem State.accept_dropMark (s : State) (i : Instr) : (s.accept i).dropMark = s.dropMark := by cases i <;> rfl
@[simp] theorem State.accept_inputs (s : State) (i : Instr) : (s.accept i).inputs = s.inputs := by cases i <;> rfl
@[simp] theorem State.accept_reads (s : State) (i : Instr) : (s.accept i).reads = s.reads := by cases i <;> rfl
@[simp] theorem State.accept_draws (s : State) (i : Instr) : (s.accept i).draws = s.draws := by cases i <;> rfl
@[simp] theorem State.accept_status (s : State) (i : Instr) : (s.accept i).status = s.status.accepted := by cases i <;> rfl
@[simp] theorem State.accept_cur (s : State) (i : Instr) : (s.accept i).seq.cur = some i := by cases i <;> rfl

@[simp] theorem State.keyxorStep_status (s : State) : s.keyxorStep.status = s.status := rfl
@[simp] theorem State.keyxorStep_cost (s : State) : s.keyxorStep.cost = s.cost := rfl
@[simp] theorem State.keyxorStep_keylen (s : State) : s.keyxorStep.keylen = s.keylen := rfl
@[simp] theorem State.keyxorStep_key (s : State) : s.keyxorStep.key = s.key := rfl
@[simp] theorem State.keyxorStep_salt (s : State) : s.keyxorStep.salt = s.salt := rfl
@[simp] theorem State.keyxorStep_blkL (s : State) : s.keyxorStep.blkL = s.blkL := rfl
@[simp] theorem State.keyxorStep_blkR (s : State) : s.keyxorStep.blkR = s.blkR := rfl
@[simp] theorem State.keyxorStep_digest (s : State) : s.keyxorStep.digest = s.digest := rfl
@[simp] theorem State.keyxorStep_unseen (s : State) : s.keyxorStep.unseen = s.unseen := rfl
@[simp] theorem State.keyxorStep_dropMark (s : State) : s.keyxorStep.dropMark = s.dropMark := rfl
@[simp] theorem State.keyxorStep_inputs (s : State) : s.keyxorStep.inputs = s.inputs := rfl
@[simp] theorem State.keyxorStep_reads (s : State) : s.keyxorStep.reads = s.reads := rfl
@[simp] theorem State.keyxorStep_draws (s : State) : s.keyxorStep.draws = s.draws := rfl

@[simp] theorem State.fillStep_status (s : State) : s.fillStep.status = s.status := rfl
@[simp] theorem State.fillStep_cost (s : State) : s.fillStep.cost = s.cost := rfl
@[simp] theorem State.fillStep_keylen (s : State) : s.fillStep.keylen = s.keylen := rfl
@[simp] theorem State.fillStep_key (s : State) : s.fillStep.key = s.key := rfl
@[simp] theorem State.fillStep_salt (s : State) : s.fillStep.salt = s.salt := rfl
@[simp] theorem State.fillStep_blkL (s : State) : s.fillStep.blkL = s.blkL := rfl
@[simp] theorem State.fillStep_blkR (s : State) : s.fillStep.blkR = s.blkR := rfl
@[simp] theorem State.fillStep_digest (s : State) : s.fillStep.digest = s.digest := rfl
@[simp] theorem State.fillStep_unseen (s : State) : s.fillStep.unseen = s.unseen := rfl
@[simp] theorem State.fillStep_dropMark (s : State) : s.fillStep.dropMark = s.dropMark := rfl
@[simp] theorem State.fillStep_inputs (s : State) : s.fillStep.inputs = s.inputs := rfl
@[simp] theorem State.fillStep_reads (s : State) : s.fillStep.reads = s.reads := rfl
@[simp] theorem State.fillStep_draws (s : State) : s.fillStep.draws = s.draws := rfl

@[simp] theorem State.endFill_cipher (s : State) : s.endFill.cipher = s.cipher := by unfold State.endFill; split <;> rfl
@[simp] theorem State.endFill_status (s : State) : s.endFill.status = s.status := by unfold State.endFill; split <;> rfl
@[simp] theorem State.endFill_cost (s : State) : s.endFill.cost = s.cost := by unfold State.endFill; split <;> rfl
@[simp] theorem State.endFill_keylen (s : State) : s.endFill.keylen = s.keylen := by unfold State.endFill; split <;> rfl
@[simp] theorem State.endFill_key (s : State) : s.endFill.key = s.key := by unfold State.endFill; split <;> rfl
@[simp] theorem State.endFill_salt (s : State) : s.endFill.salt = s.salt := by unfold State.endFill; split <;> rfl
@[simp] theorem State.endFill_blkL (s : State) : s.endFill.blkL = s.blkL := by unfold State.endFill; split <;> rfl
@[simp] theorem State.endFill_blkR (s : State) : s.endFill.blkR = s.blkR := by unfold State.endFill; split <;> rfl
@[simp] theorem State.endFill_digest (s : State) : s.endFill.digest = s.digest := by unfold State.endFill; split <;> rfl
@[simp] theorem State.endFill_unseen (s : State) : s.endFill.unseen = s.unseen := by unfold State.endFill; split <;> rfl
@[simp] theorem State.endFill_dropMark (s : State) : s.endFill.dropMark = s.dropMark := by unfold State.endFill; split <;> rfl
@[simp] theorem State.endFill_inputs (s : State) : s.endFill.inputs = s.inputs := by unfold State.endFill; split <;> rfl
@[simp] theorem State.endFill_reads (s : State) : s.endFill.reads = s.reads := by unfold State.endFill; split <;> rfl
@[simp] theorem State.endFill_draws (s : State) : s.endFill.draws = s.draws := by unfold State.endFill; split <;> rfl

@[simp] theorem State.keyxorStep_cur (s : State) : s.keyxorStep.seq.cur = s.seq.cur := rfl
@[simp] theorem State.fillStep_cur (s : State) : s.fillStep.seq.cur = s.seq.cur := rfl
@[simp] theorem State.endFill_cur (s : State) : s.endFill.seq.cur = s.seq.cur := by unfold State.endFill; split <;> rfl

@[simp] theorem Status.cleared_busy (t : Status) : t.cleared.busy = t.busy := rfl
@[simp] theorem Status.cleared_done (t : Status) : t.cleared.done = false := rfl
@[simp] theorem Status.cleared_err (t : Status) : t.cleared.err = false := rfl
@[simp] theorem Status.cleared_init (t : Status) : t.cleared.init = t.init := rfl
@[simp] theorem Status.cleared_ecode (t : Status) : t.cleared.ecode = 0#4 := rfl
@[simp] theorem Status.cleared_drop (t : Status) : t.cleared.drop = false := rfl
@[simp] theorem Status.accepted_busy (t : Status) : t.accepted.busy = true := rfl
@[simp] theorem Status.accepted_done (t : Status) : t.accepted.done = t.done := rfl
@[simp] theorem Status.accepted_err (t : Status) : t.accepted.err = t.err := rfl
@[simp] theorem Status.accepted_init (t : Status) : t.accepted.init = t.init := rfl
@[simp] theorem Status.accepted_ecode (t : Status) : t.accepted.ecode = t.ecode := rfl
@[simp] theorem Status.accepted_drop (t : Status) : t.accepted.drop = t.drop := rfl
@[simp] theorem Status.dropped_busy (t : Status) : t.dropped.busy = t.busy := rfl
@[simp] theorem Status.dropped_done (t : Status) : t.dropped.done = t.done := rfl
@[simp] theorem Status.dropped_err (t : Status) : t.dropped.err = t.err := rfl
@[simp] theorem Status.dropped_init (t : Status) : t.dropped.init = t.init := rfl
@[simp] theorem Status.dropped_ecode (t : Status) : t.dropped.ecode = t.ecode := rfl
@[simp] theorem Status.dropped_drop (t : Status) : t.dropped.drop = true := rfl
@[simp] theorem Status.rejected_busy (t : Status) (r : Reject) : (t.rejected r).busy = t.busy := rfl
@[simp] theorem Status.rejected_done (t : Status) (r : Reject) : (t.rejected r).done = t.done := rfl
@[simp] theorem Status.rejected_err (t : Status) (r : Reject) : (t.rejected r).err = true := rfl
@[simp] theorem Status.rejected_init (t : Status) (r : Reject) : (t.rejected r).init = t.init := rfl
@[simp] theorem Status.rejected_ecode (t : Status) (r : Reject) : (t.rejected r).ecode = rejectCode r := rfl
@[simp] theorem Status.rejected_drop (t : Status) (r : Reject) : (t.rejected r).drop = t.drop := rfl
@[simp] theorem Status.completed_busy (t : Status) (i : Instr) : (t.completed i).busy = false := rfl
@[simp] theorem Status.completed_done (t : Status) (i : Instr) : (t.completed i).done = true := rfl
@[simp] theorem Status.completed_err (t : Status) (i : Instr) : (t.completed i).err = t.err := rfl
@[simp] theorem Status.completed_init (t : Status) (i : Instr) : (t.completed i).init = (t.init || setsInit i) := rfl
@[simp] theorem Status.completed_ecode (t : Status) (i : Instr) : (t.completed i).ecode = t.ecode := rfl
@[simp] theorem Status.completed_drop (t : Status) (i : Instr) : (t.completed i).drop = t.drop := rfl

end Sys2Proof.Machine
end

