-- ==== Sys2Proof/Laws/Ops.lean ====
section
/-! SUPPORT. What the issue procedure and a whole command can do, said once for every command (60_exceptions.md R221). -/

namespace Sys2Proof.Machine

theorem State.keylenOk_iff (s : State) : s.keylenOk = true ↔ 1 ≤ s.keylen.toNat ∧ s.keylen.toNat ≤ 73 := decide_eq_true_iff

theorem State.costOk_iff (s : State) : s.costOk = true ↔ 4 ≤ s.cost.toNat ∧ s.cost.toNat ≤ 31 := decide_eq_true_iff

/-- The checks of an issue as conditions (60_exceptions.md R225 to R228). -/
theorem issueCheck_eq (i : Instr) (s : State) :
    issueCheck i s = if needsInit i = true ∧ s.status.init = false then some .notInitialised
      else if needsKeylen i = true ∧ ¬(1 ≤ s.keylen.toNat ∧ s.keylen.toNat ≤ 73) then some .invalidKeylen
      else if needsCost i = true ∧ ¬(4 ≤ s.cost.toNat ∧ s.cost.toNat ≤ 31) then some .invalidCost
      else none := by
  simp only [issueCheck, Bool.and_eq_true, Bool.not_eq_true', ← State.keylenOk_iff, ← State.costOk_iff, Bool.not_eq_true]

/-- The checks of an issue pass exactly where the conditions of R221 that read state hold. -/
theorem issueCheck_eq_none {i : Instr} {s : State} :
    issueCheck i s = none ↔ (needsInit i = true → s.status.init = true)
      ∧ (needsKeylen i = true → 1 ≤ s.keylen.toNat ∧ s.keylen.toNat ≤ 73)
      ∧ (needsCost i = true → 4 ≤ s.cost.toNat ∧ s.cost.toNat ≤ 31) := by
  rw [issueCheck_eq]
  split
  · simp_all
  · split
    · simp_all
    · split <;> simp_all

/-- A command is accepted exactly where BUSY = 0 and its checks pass. -/
theorem State.accepts_iff {i : Instr} {s : State} : s.Accepts i ↔ s.status.busy = false ∧ issueCheck i s = none := by
  unfold State.Accepts
  rw [issueCheck_eq_none]

/-- The checks read INIT, KEYLEN and COST only. -/
theorem issueCheck_congr (i : Instr) {s t : State} (h1 : t.status.init = s.status.init) (h2 : t.keylen = s.keylen)
    (h3 : t.cost = s.cost) : issueCheck i t = issueCheck i s := by
  unfold issueCheck State.keylenOk State.costOk
  rw [h1, h2, h3]

theorem issueCommand_busy (i : Instr) (after : State → State) {s : State} (h : s.status.busy = true) :
    issueCommand i after s = s.dropWrite := by simp only [issueCommand, h, if_true]

theorem issueCommand_reject {i : Instr} (after : State → State) {s : State} {r : Reject} (h : s.status.busy = false)
    (hr : issueCheck i s = some r) : issueCommand i after s = s.clearRecord.reject r := by
  simp [issueCommand, h, hr]

theorem issueCommand_accept {i : Instr} (after : State → State) {s : State} (h : s.Accepts i) :
    issueCommand i after s = after (s.clearRecord.accept i) := by
  obtain ⟨hb, hc⟩ := State.accepts_iff.1 h
  simp [issueCommand, hb, hc]

/-- Everything an issue can do. -/
theorem issueCommand_cases (i : Instr) (after : State → State) (s : State) :
    (s.status.busy = true ∧ issueCommand i after s = s.dropWrite)
      ∨ (∃ r, s.status.busy = false ∧ issueCheck i s = some r ∧ issueCommand i after s = s.clearRecord.reject r)
      ∨ (s.Accepts i ∧ issueCommand i after s = after (s.clearRecord.accept i)) := by
  cases hb : s.status.busy with
  | true => exact .inl ⟨rfl, issueCommand_busy i after hb⟩
  | false =>
    right
    cases hc : issueCheck i s with
    | some r => exact .inl ⟨r, rfl, rfl, issueCommand_reject after hb hc⟩
    | none =>
      have ha := State.accepts_iff.2 ⟨hb, hc⟩
      exact .inr ⟨ha, issueCommand_accept after ha⟩

/-- What an accepted command does to the state beyond STATUS and the sequencer. -/
def effectOf : Instr → State → State
  | .nop => id
  | .init => State.loadRom
  | .enc => State.encryptBlk
  | .expkey x => State.expandWithKey x
  | .expsalt x => State.expandWithSalt x
  | .expstate x => State.expandWithBoth x
  | .eks x => State.runEks x
  | .bcrypt x => State.runBcrypt x

/-- Every arm of `exec` is the whole command of its effect, so `exec` always answers a next state. -/
theorem exec_eq (i : Instr) (s : State) : exec i s = .next (wholeCommand i (effectOf i) s) := by cases i <;> rfl

theorem exec_busy (i : Instr) {s : State} (h : s.status.busy = true) : exec i s = .next s.dropWrite := by
  rw [exec_eq, wholeCommand, issueCommand_busy i _ h]

theorem exec_reject {i : Instr} {s : State} {r : Reject} (h : s.status.busy = false) (hr : issueCheck i s = some r) :
    exec i s = .next (s.clearRecord.reject r) := by rw [exec_eq, wholeCommand, issueCommand_reject _ h hr]

theorem exec_accept {i : Instr} {s : State} (h : s.Accepts i) :
    exec i s = .next ((effectOf i (s.clearRecord.accept i)).complete i) := by
  rw [exec_eq, wholeCommand, issueCommand_accept _ h]

@[simp] theorem effectOf_status (i : Instr) (s : State) : (effectOf i s).status = s.status := by cases i <;> simp [effectOf]
@[simp] theorem effectOf_seq (i : Instr) (s : State) : (effectOf i s).seq = s.seq := by cases i <;> simp [effectOf]
@[simp] theorem effectOf_cost (i : Instr) (s : State) : (effectOf i s).cost = s.cost := by cases i <;> simp [effectOf]
@[simp] theorem effectOf_keylen (i : Instr) (s : State) : (effectOf i s).keylen = s.keylen := by cases i <;> simp [effectOf]
@[simp] theorem effectOf_key (i : Instr) (s : State) : (effectOf i s).key = s.key := by cases i <;> simp [effectOf]
@[simp] theorem effectOf_salt (i : Instr) (s : State) : (effectOf i s).salt = s.salt := by cases i <;> simp [effectOf]
@[simp] theorem effectOf_dropMark (i : Instr) (s : State) : (effectOf i s).dropMark = s.dropMark := by
  cases i <;> simp [effectOf]
@[simp] theorem effectOf_unseen (i : Instr) (s : State) : (effectOf i s).unseen = s.unseen := by cases i <;> simp [effectOf]
@[simp] theorem effectOf_inputs (i : Instr) (s : State) : (effectOf i s).inputs = s.inputs := by cases i <;> simp [effectOf]
@[simp] theorem effectOf_reads (i : Instr) (s : State) : (effectOf i s).reads = s.reads := by cases i <;> simp [effectOf]
@[simp] theorem effectOf_draws (i : Instr) (s : State) : (effectOf i s).draws = s.draws := by cases i <;> simp [effectOf]

/-- An accepted command makes no earlier result seen (70_reset_and_hazards.md R255). -/
theorem Unseen.after_keeps (i : Instr) (u : Unseen) :
    (u.digest = true → (u.after i).digest = true) ∧ (u.cipher = true → (u.after i).cipher = true)
      ∧ (u.blkL = true → (u.after i).blkL = true) ∧ (u.blkR = true → (u.after i).blkR = true) := by
  cases i <;> simp_all [Unseen.after]

/-- An issue leaves the unseen results as they are, or adds those of the accepted command. -/
theorem issueCommand_unseen (i : Instr) {after : State → State} (h : ∀ t, (after t).unseen = t.unseen) (s : State) :
    (issueCommand i after s).unseen = s.unseen ∨ (s.Accepts i ∧ (issueCommand i after s).unseen = s.unseen.after i) := by
  obtain ⟨_, e⟩ | ⟨r, _, _, e⟩ | ⟨ha, e⟩ := issueCommand_cases i after s <;> rw [e]
  · exact .inl rfl
  · exact .inl rfl
  · exact .inr ⟨ha, by rw [h]; simp⟩

/-- What a command's effect leaves in P and S, BLK and DIGEST reads P and S, BLK, DIGEST and the operands only. -/
theorem effectOf_congr (i : Instr) {s t : State} (h : s.SameData t) :
    (effectOf i t).cipher = (effectOf i s).cipher ∧ (effectOf i t).blkL = (effectOf i s).blkL
      ∧ (effectOf i t).blkR = (effectOf i s).blkR ∧ (effectOf i t).digest = (effectOf i s).digest := by
  obtain ⟨h1, h2, h3, h4, h5, h6, h7, h8⟩ := h
  cases i <;> simp [effectOf, State.keyBytes, State.saltBytes, State.costNat, h1, h2, h3, h4, h5, h6, h7, h8]

/-- A rejection, as one record: STATUS shows ERR and the code, and nothing else changes (60_exceptions.md R229). -/
theorem reject_eq (r : Reject) {s : State} (h : s.status.busy = false) :
    s.clearRecord.reject r = { s with status := .rejectedWith (rejectCode r) s.status.init } := by
  simp only [State.reject, State.clearRecord, Status.rejected, Status.cleared, Status.rejectedWith, h]

/-- The state an accepted command leaves, the hidden working registers apart. -/
theorem complete_hideWork (i : Instr) (s : State) :
    ((effectOf i (s.clearRecord.accept i)).complete i).hideWork
      = { effectOf i s with
          status := .doneWith (s.status.init || setsInit i), seq := .idleAfter i, unseen := s.unseen.after i } := by
  have hd : s.SameData (s.clearRecord.accept i) := by simp [State.SameData]
  obtain ⟨h1, h2, h3, h4⟩ := effectOf_congr i hd
  simp [State.hideWork, State.complete, h1, h2, h3, h4, Seq.idleAfter, Status.doneWith, Status.completed,
    Status.accepted, Status.cleared]

theorem exec_accept_hideWork {i : Instr} {s : State} (h : s.Accepts i) :
    ∃ t, exec i s = .next t
      ∧ t.hideWork = { effectOf i s with
          status := .doneWith (s.status.init || setsInit i), seq := .idleAfter i, unseen := s.unseen.after i } :=
  ⟨_, exec_accept h, complete_hideWork i s⟩

/-- An accepted command, as one record: its effect, STATUS showing DONE, and an IDLE sequencer. -/
theorem exec_accept_seq {i : Instr} {s : State} (h : s.Accepts i) :
    ∃ q : Seq, q.phase = .idle
      ∧ exec i s = .next { effectOf i s with
          status := .doneWith (s.status.init || setsInit i), seq := q, unseen := s.unseen.after i } := by
  have hd : s.SameData (s.clearRecord.accept i) := by simp [State.SameData]
  obtain ⟨h1, h2, h3, h4⟩ := effectOf_congr i hd
  refine ⟨((effectOf i (s.clearRecord.accept i)).complete i).seq, rfl, ?_⟩
  rw [exec_accept h]
  simp [State.complete, h1, h2, h3, h4, Status.doneWith, Status.completed, Status.accepted, Status.cleared]

/-- Everything `exec` can do. -/
theorem exec_cases {i : Instr} {s t : State} (h : exec i s = .next t) :
    (s.status.busy = true ∧ t = s.dropWrite)
      ∨ (∃ r, s.status.busy = false ∧ issueCheck i s = some r ∧ t = s.clearRecord.reject r)
      ∨ (s.Accepts i ∧ t = (effectOf i (s.clearRecord.accept i)).complete i) := by
  rw [exec_eq] at h
  have ht : wholeCommand i (effectOf i) s = t := by injection h
  subst ht
  exact issueCommand_cases i (fun t => (effectOf i t).complete i) s

end Sys2Proof.Machine
end

