-- ==== Sys2Proof/Laws/Stream.lean ====
section
/-! SUPPORT. The cyclic byte stream and the loops over it (41_key_schedule.md R121, R122, R124). -/

namespace Sys2Proof.Machine

/-- A stream word in closed form (41_key_schedule.md R121). -/
theorem streamWord_eq (data : List Byte) (off : Nat) (sx : Bool) :
    streamWord data off sx
      = ((widen sx (data.getD off 0) <<< 24) ||| (widen sx (data.getD ((off + 1) % data.length) 0) <<< 16)
          ||| (widen sx (data.getD ((off + 2) % data.length) 0) <<< 8)
          ||| widen sx (data.getD ((off + 3) % data.length) 0), (off + 4) % data.length) := by
  simp only [streamWord, streamByte, Nat.mod_add_mod]
  refine Prod.ext ?_ rfl
  simp only [Nat.add_assoc]
  generalize widen sx (data.getD off 0) = a
  generalize widen sx (data.getD ((off + 1) % data.length) 0) = b
  generalize widen sx (data.getD ((off + 2) % data.length) 0) = c
  simp only [BitVec.shiftLeft_or_distrib, BitVec.zero_shiftLeft, BitVec.zero_or, ← BitVec.shiftLeft_add]

theorem streamWord_off (data : List Byte) (off : Nat) (sx : Bool) :
    (streamWord data off sx).2 = (off + 4) % data.length := by
  simp only [streamWord, streamByte, Nat.mod_add_mod]

theorem streamWord_off_lt (data : List Byte) (off : Nat) (sx : Bool) (h : data ≠ []) :
    (streamWord data off sx).2 < data.length := by
  simp only [streamWord, streamByte]
  exact Nat.mod_lt _ (List.length_pos_of_ne_nil h)

theorem keyBytes_length {s : State} (h : s.keylen.toNat ≤ 73) : s.keyBytes.length = s.keylen.toNat := by
  simp [State.keyBytes, h]

theorem saltBytes_length (s : State) : s.saltBytes.length = 16 := by simp [State.saltBytes]

theorem forUp_succ {α : Type} (f : Nat → α → α) (n : Nat) (a : α) : forUp f (n + 1) a = f n (forUp f n a) := rfl

/-- An invariant of a counted loop, step by step. -/
theorem forUp_induct {α : Type} {f : Nat → α → α} {a : α} (P : Nat → α → Prop) (h0 : P 0 a)
    (hs : ∀ n b, P n b → P (n + 1) (f n b)) (n : Nat) : P n (forUp f n a) := by
  induction n with
  | zero => exact h0
  | succ n ih => exact hs n _ ih

theorem repeatTimes_add {α : Type} (f : α → α) (m n : Nat) (a : α) :
    repeatTimes f (m + n) a = repeatTimes f m (repeatTimes f n a) := by
  induction m with
  | zero => simp [repeatTimes]
  | succ m ih => rw [Nat.succ_add, repeatTimes, ih, repeatTimes]

theorem repeatTimes_succ' {α : Type} (f : α → α) (n : Nat) (a : α) : repeatTimes f (n + 1) a = repeatTimes f n (f a) := by
  rw [repeatTimes_add f n 1 a]; rfl

end Sys2Proof.Machine
end

