-- ==== Sys2Proof/Laws/KeySchedule.lean ====
section
/-! SUPPORT. Reading after writing P and S, and what the loops of key expansion leave (41_key_schedule.md R122 to R128). -/

namespace Sys2Proof.Machine

theorem getD_lt {α : Type} {n : Nat} (v : Vector α n) {i : Nat} (d : α) (h : i < n) : v.getD i d = v[i] := by
  simp [Vector.getD, h]

theorem getD_ge {α : Type} {n : Nat} (v : Vector α n) {i : Nat} (d : α) (h : n ≤ i) : v.getD i d = d := by
  simp [Vector.getD, h]

/-- Reading a vector after one of its elements is replaced. -/
theorem getD_setIfInBounds {α : Type} {n : Nat} (v : Vector α n) (i j : Nat) (x d : α) :
    (v.setIfInBounds i x).getD j d = if i = j ∧ i < n then x else v.getD j d := by
  by_cases hj : j < n
  · rw [getD_lt _ d hj, getD_lt _ d hj, Vector.getElem_setIfInBounds]
    by_cases he : i = j
    · subst he; simp [hj]
    · simp [he]
  · rw [getD_ge _ d (by omega), getD_ge _ d (by omega), if_neg (by omega)]

theorem pAt_setP (c : Cipher) (i j : Nat) (w : Word) :
    (c.setP i w).pAt j = if i = j ∧ i < 18 then w else c.pAt j := getD_setIfInBounds c.p i j w 0#32

@[simp] theorem setP_s (c : Cipher) (i : Nat) (w : Word) : (c.setP i w).s = c.s := rfl

@[simp] theorem setS_p (c : Cipher) (b i : Nat) (w : Word) : (c.setS b i w).p = c.p := by
  unfold Cipher.setS
  split <;> rfl

/-- Two P-arrays are equal when every word of them is. -/
theorem Cipher.p_ext {c d : Cipher} (h : ∀ i, i < 18 → c.pAt i = d.pAt i) : c.p = d.p := by
  apply Vector.ext
  intro i hi
  have := h i hi
  rwa [Cipher.pAt, Cipher.pAt, getD_lt _ _ hi, getD_lt _ _ hi] at this

theorem pAt_get (c : Cipher) (i : Fin 18) : c.pAt i.val = c.p.get i := by
  rw [Cipher.pAt, getD_lt _ _ i.isLt]
  rfl

/-- The key offset after `n` words of a key-XOR (41_key_schedule.md R122). -/
theorem keyXor_off (key : List Byte) (sx : Bool) (c : Cipher) (n : Nat) (h : key ≠ []) :
    (forUp (keyXorWord key sx) n (c, 0)).2 = 4 * n % key.length := by
  have := List.length_pos_of_ne_nil h
  induction n with
  | zero => simp [forUp]
  | succ n ih =>
    rw [forUp_succ, keyXorWord]
    simp only [streamWord_off, ih, Nat.mod_add_mod]
    congr 1

/-- P after `n` words of a key-XOR: the first `n` words have taken their stream words, the others are as before
(41_key_schedule.md R122). -/
theorem keyXor_pAt (key : List Byte) (sx : Bool) (c : Cipher) (n i : Nat) (h : key ≠ []) (hn : n ≤ 18) :
    (forUp (keyXorWord key sx) n (c, 0)).1.pAt i
      = if i < n then c.pAt i ^^^ (streamWord key (4 * i % key.length) sx).1 else c.pAt i := by
  induction n with
  | zero => simp [forUp]
  | succ n ih =>
    have ih := ih (by omega)
    rw [forUp_succ, keyXorWord, pAt_setP, keyXor_off key sx c n h]
    by_cases he : n = i
    · subst he
      rw [if_pos ⟨rfl, by omega⟩, if_pos (by omega), ih, if_neg (by omega)]
    · rw [if_neg (by omega), ih]
      by_cases hi : i < n
      · rw [if_pos hi, if_pos (by omega)]
      · rw [if_neg hi, if_neg (by omega)]

theorem keyXor_s (key : List Byte) (sx : Bool) (c : Cipher) (n : Nat) : (forUp (keyXorWord key sx) n (c, 0)).1.s = c.s := by
  induction n with
  | zero => rfl
  | succ n ih => rw [forUp_succ, keyXorWord, setP_s, ih]

/-- What a key-XOR leaves in P (41_key_schedule.md R122). -/
theorem Cipher.keyXor_pAt (key : List Byte) (sx : Bool) (c : Cipher) (i : Nat) (h : key ≠ []) (hi : i < 18) :
    (c.keyXor key sx).pAt i = c.pAt i ^^^ (streamWord key (4 * i % key.length) sx).1 := by
  rw [Cipher.keyXor, Config.pWords, Sys2Proof.Machine.keyXor_pAt key sx c 18 i h (Nat.le_refl _), if_pos hi]

/-- Two keys with the same stream words act alike. -/
theorem Cipher.keyXor_congr {key key' : List Byte} {sx sx' : Bool} (c : Cipher) (h : key ≠ []) (h' : key' ≠ [])
    (he : ∀ i, i < 18 → (streamWord key (4 * i % key.length) sx).1 = (streamWord key' (4 * i % key'.length) sx').1) :
    c.keyXor key sx = c.keyXor key' sx' := by
  have hp : (c.keyXor key sx).p = (c.keyXor key' sx').p := Cipher.p_ext fun i hi => by
    rw [Cipher.keyXor_pAt key sx c i h hi, Cipher.keyXor_pAt key' sx' c i h' hi, he i hi]
  have hs : (c.keyXor key sx).s = (c.keyXor key' sx').s := by
    rw [Cipher.keyXor, Cipher.keyXor, keyXor_s, keyXor_s]
  cases hc : c.keyXor key sx
  cases hd : c.keyXor key' sx'
  simp_all

/-- A stream word does not read past the bytes it names. -/
theorem streamWord_congr {key key' : List Byte} {off off' : Nat} (sx : Bool)
    (h0 : key.getD off 0 = key'.getD off' 0)
    (h1 : key.getD ((off + 1) % key.length) 0 = key'.getD ((off' + 1) % key'.length) 0)
    (h2 : key.getD ((off + 2) % key.length) 0 = key'.getD ((off' + 2) % key'.length) 0)
    (h3 : key.getD ((off + 3) % key.length) 0 = key'.getD ((off' + 3) % key'.length) 0) :
    (streamWord key off sx).1 = (streamWord key' off' sx).1 := by
  rw [streamWord_eq, streamWord_eq, h0, h1, h2, h3]

/-- A key of 72 bytes or more acts as its first 72 (41_key_schedule.md R123). -/
theorem Cipher.keyXor_take (key : List Byte) (sx : Bool) (c : Cipher) (h : 72 ≤ key.length) :
    c.keyXor key sx = c.keyXor (key.take 72) sx := by
  have hl : (key.take 72).length = 72 := by simp [h]
  have hg : ∀ j, j < 72 → key.getD j 0 = (key.take 72).getD j 0 := by
    intro j hj
    simp [List.getD_eq_getElem?_getD, hj]
  refine Cipher.keyXor_congr c (by intro he; simp [he] at h) (by intro he; simp [he] at hl) fun i hi => ?_
  rw [hl]
  apply streamWord_congr
  · rw [Nat.mod_eq_of_lt (by omega), Nat.mod_eq_of_lt (by omega)]; exact hg _ (by omega)
  all_goals rw [hl, Nat.mod_add_mod, Nat.mod_add_mod, Nat.mod_eq_of_lt (by omega), Nat.mod_eq_of_lt (by omega)]
  all_goals exact hg _ (by omega)

/-- Sign extension is zero extension for a byte below 0x80 (00_scope.md R11). -/
theorem widen_low {b : Byte} (h : b < 0x80#8) (sx : Bool) : widen sx b = widen false b := by
  cases sx with
  | false => rfl
  | true => simp only [widen, if_true, Bool.false_eq_true, if_false, sext32, h]

/-- The salt offset after `n` blocks of a salted fill (41_key_schedule.md R125). -/
theorem fill_soff (salt : List Byte) (r : FillRun) (h : salt.length = 16) (hr : r.soff = 0) (n : Nat) :
    (forUp (fillBlock true salt) n r).soff = 8 * (n % 2) := by
  induction n with
  | zero => simp [forUp, hr]
  | succ n ih =>
    rw [forUp_succ]
    simp only [fillBlock, if_true, FillRun.store, FillRun.encrypt, FillRun.addSalt, streamWord_off, ih, h]
    omega

theorem flatWord_setP (c : Cipher) {i : Nat} (hi : i < 18) (k : Nat) (w : Word) :
    (c.setP i w).flatWord k = if k = i then w else c.flatWord k := by
  unfold Cipher.flatWord
  by_cases hk : k < 18
  · rw [if_pos hk, if_pos hk]
    have := pAt_setP c i k w
    rw [Cipher.pAt, Cipher.pAt] at this
    rw [this]
    by_cases he : k = i
    · rw [if_pos ⟨he.symm, hi⟩, if_pos he]
    · rw [if_neg (by omega), if_neg he]
  · rw [if_neg hk, if_neg hk, if_neg (by omega), setP_s]

theorem flatWord_setS (c : Cipher) {b i : Nat} (hb : b < 4) (hi : i < 256) (k : Nat) (w : Word) :
    (c.setS b i w).flatWord k = if k = 18 + 256 * b + i then w else c.flatWord k := by
  unfold Cipher.flatWord
  rw [setS_p]
  by_cases hk : k < 18
  · rw [if_pos hk, if_pos hk, if_neg (by omega)]
  · rw [if_neg hk, if_neg hk]
    have hs : (c.setS b i w).s = c.s.setIfInBounds b ((c.s.getD b (Vector.replicate 256 0#32)).setIfInBounds i w) := by
      rw [getD_lt _ _ hb]
      unfold Cipher.setS
      rw [dif_pos hb]
      simp [Vector.setIfInBounds, Vector.set, Array.setIfInBounds, hb]
    rw [hs, getD_setIfInBounds]
    by_cases he : b = (k - 18) / 256
    · rw [if_pos ⟨he, hb⟩, getD_setIfInBounds, ← he]
      by_cases hf : i = (k - 18) % 256
      · rw [if_pos ⟨hf, hi⟩, if_pos (by omega)]
      · rw [if_neg (by omega), if_neg (by omega)]
    · rw [if_neg (by omega), if_neg (by omega)]

/-- A block is stored in its two words and nowhere else (41_key_schedule.md R124). -/
theorem flatWord_storeBlock (c : Cipher) {n : Nat} (hn : n < 521) (l r : Word) (k : Nat) :
    (c.storeBlock n l r).flatWord k = if k = 2 * n then l else if k = 2 * n + 1 then r else c.flatWord k := by
  unfold Cipher.storeBlock
  split
  · rw [flatWord_setP _ (by omega), flatWord_setP _ (by omega)]
    split <;> split <;> first | rfl | omega
  · rw [flatWord_setS _ (by omega) (by omega), flatWord_setS _ (by omega) (by omega)]
    have e1 : 18 + 256 * ((n - 9) / 128) + 2 * ((n - 9) % 128) = 2 * n := by omega
    have e2 : 18 + 256 * ((n - 9) / 128) + (2 * ((n - 9) % 128) + 1) = 2 * n + 1 := by omega
    rw [e1, e2]
    split <;> split <;> first | rfl | omega

/-- After `m` blocks of a fill, the words of each block done are the running block of its own iteration
(41_key_schedule.md R124). -/
theorem fill_flatWord (salted : Bool) (salt : List Byte) (r : FillRun) {m n : Nat} (hm : m ≤ 521) (hn : n < m) :
    (forUp (fillBlock salted salt) m r).cipher.flatWord (2 * n) = (forUp (fillBlock salted salt) (n + 1) r).bl
      ∧ (forUp (fillBlock salted salt) m r).cipher.flatWord (2 * n + 1)
        = (forUp (fillBlock salted salt) (n + 1) r).br := by
  induction m with
  | zero => omega
  | succ m ih =>
    have hs : ∀ u : FillRun, (fillBlock salted salt m u).cipher
        = (if salted then u.addSalt salt else u).encrypt.cipher.storeBlock m
            (fillBlock salted salt m u).bl (fillBlock salted salt m u).br := fun u => rfl
    have hc : ∀ u : FillRun, (if salted then u.addSalt salt else u).encrypt.cipher = u.cipher := by
      intro u
      cases salted <;> rfl
    rw [forUp_succ, hs, hc, flatWord_storeBlock _ (by omega), flatWord_storeBlock _ (by omega)]
    by_cases he : n = m
    · subst he
      rw [if_pos rfl, if_neg (by omega), if_pos rfl, forUp_succ]
      exact ⟨rfl, rfl⟩
    · rw [if_neg (by omega), if_neg (by omega), if_neg (by omega), if_neg (by omega)]
      exact ih (by omega) (by omega)

end Sys2Proof.Machine
end

