-- ==== Sys2Proof/Laws/Eks.lean ====
section
/-! SUPPORT. The digest block by block, the key bytes that key expansion reads, and commands that run one after another on an
initialised engine (42_eks_bcrypt.md R151 to R158). -/

namespace Sys2Proof.Machine

/-- Block `j` of a digest working value. -/
def blockOf (c : Vector Word 6) (j : Nat) : Word × Word := (c.getD (2 * j) 0#32, c.getD (2 * j + 1) 0#32)

theorem encryptPair_block (ci : Cipher) (c : Vector Word 6) {i j : Nat} (hi : i < 3) :
    blockOf (ci.encryptPair i c) j = if i = j then ci.encryptBlock (blockOf c i) else blockOf c j := by
  simp only [blockOf, Cipher.encryptPair, getD_setIfInBounds]
  by_cases h : i = j
  · subst h
    rw [if_pos rfl, if_neg (by omega), if_pos ⟨rfl, by omega⟩, if_pos ⟨rfl, by omega⟩]
  · rw [if_neg h, if_neg (by omega), if_neg (by omega), if_neg (by omega), if_neg (by omega)]

/-- A pass encrypts each of the three blocks, on its own (42_eks_bcrypt.md R156). -/
theorem digestPass_block (ci : Cipher) (c : Vector Word 6) {j : Nat} (hj : j < 3) :
    blockOf (ci.digestPass c) j = ci.encryptBlock (blockOf c j) := by
  have h : ci.digestPass c = ci.encryptPair 2 (ci.encryptPair 1 (ci.encryptPair 0 c)) := rfl
  rw [h, encryptPair_block _ _ (by omega), encryptPair_block _ _ (by omega), encryptPair_block _ _ (by omega)]
  have e : j = 0 ∨ j = 1 ∨ j = 2 := by omega
  rcases e with rfl | rfl | rfl <;> simp [encryptPair_block]

theorem digestPasses_block (ci : Cipher) (c : Vector Word 6) {j : Nat} (hj : j < 3) (n : Nat) :
    blockOf (repeatTimes ci.digestPass n c) j = repeatTimes ci.encryptBlock n (blockOf c j) := by
  induction n with
  | zero => rfl
  | succ n ih => rw [repeatTimes, digestPass_block _ _ hj, ih, repeatTimes]

/-- Two keys that a key-XOR cannot tell apart expand alike. -/
theorem expand_congr {key key' : List Byte} {x : Bool} (h : ∀ c : Cipher, c.keyXor key x = c.keyXor key' x) :
    (∀ c : Cipher, c.expandKey key x = c.expandKey key' x)
      ∧ (∀ (salt : List Byte) (c : Cipher), c.expandState salt key x = c.expandState salt key' x)
      ∧ (∀ (cost : Nat) (salt : List Byte), eksSetup cost salt key x = eksSetup cost salt key' x) := by
  have h1 : ∀ c : Cipher, c.expandKey key x = c.expandKey key' x := fun c => by rw [Cipher.expandKey, Cipher.expandKey, h]
  have h2 : ∀ (salt : List Byte) (c : Cipher), c.expandState salt key x = c.expandState salt key' x :=
    fun salt c => by rw [Cipher.expandState, Cipher.expandState, h]
  refine ⟨h1, h2, fun cost salt => ?_⟩
  have h3 : Cipher.eksIteration salt key x = Cipher.eksIteration salt key' x := by
    funext c
    rw [Cipher.eksIteration, Cipher.eksIteration, h1]
  rw [eksSetup, eksSetup, h2, h3]

/-- An IDLE engine, initialised and with its operands checked: each command it accepts leaves it so. -/
structure State.Ready (s : State) : Prop where
  busy : s.status.busy = false
  init : s.status.init = true
  key : 1 ≤ s.keylen.toNat ∧ s.keylen.toNat ≤ 73

/-- A primitive command on a ready engine has its effect and leaves the engine ready, with the same operands. -/
theorem State.Ready.exec {s : State} (h : s.Ready) {i : Instr} (hn : needsCost i = false) :
    ∃ t, Sys2Proof.Machine.exec i s = .next t ∧ t.Ready ∧ s.SameOperands t ∧ t.cipher = (effectOf i s).cipher
      ∧ t.blkL = (effectOf i s).blkL ∧ t.blkR = (effectOf i s).blkR := by
  have ha : s.Accepts i := ⟨h.busy, fun _ => h.init, fun _ => h.key, fun hc => by rw [hn] at hc; contradiction⟩
  refine ⟨_, exec_accept ha, ⟨rfl, ?_, ?_⟩, ?_, ?_⟩
  · simp [State.complete, h.init]
  · simpa [State.complete] using h.key
  · simp [State.complete, State.SameOperands]
  · obtain ⟨h1, h2, h3, _⟩ := effectOf_congr i (s := s) (t := s.clearRecord.accept i) (by simp [State.SameData])
    exact ⟨h1, h2, h3⟩

end Sys2Proof.Machine
end

