-- ==== Sys2Proof/Laws/RegMap.lean ====
section
/-! SUPPORT. The register map and what a host access can do (20_memory.md R60 to R65, 60_exceptions.md R231). -/

namespace Sys2Proof.Machine

/-- Past the seven single registers the map is told by ranges (20_memory.md R63). -/
theorem regAt_ranges {a : Nat} (h : 0x018 < a) :
    regAt a = if h : 0x020 ≤ a ∧ a < 0x06C then .keyw ⟨(a - 0x020) / 4, by omega⟩
      else if h : 0x070 ≤ a ∧ a < 0x080 then .saltw ⟨(a - 0x070) / 4, by omega⟩
      else if h : 0x080 ≤ a ∧ a < 0x098 then .digest ⟨(a - 0x080) / 4, by omega⟩
      else if h : 0x800 ≤ a ∧ a < 0x848 then .p ⟨(a - 0x800) / 4, by omega⟩
      else if h : 0x1000 ≤ a ∧ a < 0x2000 then .s ⟨(a - 0x1000) / 0x400, by omega⟩ ⟨(a - 0x1000) % 0x400 / 4, by omega⟩
      else .reserved := by
  rw [regAt, if_neg (show ¬a = 0x000 by omega), if_neg (show ¬a = 0x004 by omega), if_neg (show ¬a = 0x008 by omega), if_neg (show ¬a = 0x00C by omega),
    if_neg (show ¬a = 0x010 by omega), if_neg (show ¬a = 0x014 by omega), if_neg (show ¬a = 0x018 by omega)]

theorem regAt_keyw {a : Nat} (k : Fin 19) (h : a = 0x020 + 4 * k.val) : regAt a = .keyw k := by
  have := k.isLt
  rw [regAt_ranges (by omega), dif_pos (show (0x020 ≤ a ∧ a < 0x06C) by omega)]
  congr 1
  apply Fin.ext
  simp only []
  omega

theorem regAt_saltw {a : Nat} (k : Fin 4) (h : a = 0x070 + 4 * k.val) : regAt a = .saltw k := by
  have := k.isLt
  rw [regAt_ranges (by omega), dif_neg (show ¬(0x020 ≤ a ∧ a < 0x06C) by omega), dif_pos (show (0x070 ≤ a ∧ a < 0x080) by omega)]
  congr 1
  apply Fin.ext
  simp only []
  omega

theorem regAt_digest {a : Nat} (k : Fin 6) (h : a = 0x080 + 4 * k.val) : regAt a = .digest k := by
  have := k.isLt
  rw [regAt_ranges (by omega), dif_neg (show ¬(0x020 ≤ a ∧ a < 0x06C) by omega), dif_neg (show ¬(0x070 ≤ a ∧ a < 0x080) by omega), dif_pos (show (0x080 ≤ a ∧ a < 0x098) by omega)]
  congr 1
  apply Fin.ext
  simp only []
  omega

theorem regAt_p {a : Nat} (k : Fin 18) (h : a = 0x800 + 4 * k.val) : regAt a = .p k := by
  have := k.isLt
  rw [regAt_ranges (by omega), dif_neg (show ¬(0x020 ≤ a ∧ a < 0x06C) by omega), dif_neg (show ¬(0x070 ≤ a ∧ a < 0x080) by omega), dif_neg (show ¬(0x080 ≤ a ∧ a < 0x098) by omega), dif_pos (show (0x800 ≤ a ∧ a < 0x848) by omega)]
  congr 1
  apply Fin.ext
  simp only []
  omega

theorem regAt_s {a : Nat} (b : Fin 4) (k : Fin 256) (h : a = 0x1000 + 0x400 * b.val + 4 * k.val) :
    regAt a = .s b k := by
  have := k.isLt
  have := b.isLt
  rw [regAt_ranges (by omega), dif_neg (show ¬(0x020 ≤ a ∧ a < 0x06C) by omega), dif_neg (show ¬(0x070 ≤ a ∧ a < 0x080) by omega), 
    dif_neg (show ¬(0x080 ≤ a ∧ a < 0x098) by omega), dif_neg (show ¬(0x800 ≤ a ∧ a < 0x848) by omega), dif_pos (show (0x1000 ≤ a ∧ a < 0x2000) by omega)]
  congr 1 <;> apply Fin.ext <;> simp only [] <;> omega

theorem regAt_reserved {a : Nat} (h : reservedOffset a) : regAt a = .reserved := by
  unfold reservedOffset at h
  rw [regAt_ranges (by omega), dif_neg (show ¬(0x020 ≤ a ∧ a < 0x06C) by omega), dif_neg (show ¬(0x070 ≤ a ∧ a < 0x080) by omega), 
    dif_neg (show ¬(0x080 ≤ a ∧ a < 0x098) by omega), dif_neg (show ¬(0x800 ≤ a ∧ a < 0x848) by omega), dif_neg (show ¬(0x1000 ≤ a ∧ a < 0x2000) by omega)]

/-- An offset of a register maps to it (20_memory.md R63). -/
theorem regAt_offset {r : Reg} (h : r ≠ .reserved) : regAt r.offset = r ∧ r.offset % 4 = 0 ∧ r.offset < 0x2000 := by
  cases r with
  | reserved => exact absurd rfl h
  | id | cmd | status | cost | keylen | blkL | blkR => decide
  | keyw k => exact ⟨regAt_keyw k rfl, by simp only [Reg.offset]; omega, by simp only [Reg.offset]; omega⟩
  | saltw k => exact ⟨regAt_saltw k rfl, by simp only [Reg.offset]; omega, by simp only [Reg.offset]; omega⟩
  | digest k => exact ⟨regAt_digest k rfl, by simp only [Reg.offset]; omega, by simp only [Reg.offset]; omega⟩
  | p k => exact ⟨regAt_p k rfl, by simp only [Reg.offset]; omega, by simp only [Reg.offset]; omega⟩
  | s b k => exact ⟨regAt_s b k rfl, by simp only [Reg.offset]; omega, by simp only [Reg.offset]; omega⟩

/-- Every aligned offset of the window is a reserved one or the offset of one register (20_memory.md R63). -/
theorem regAt_cases (a : Nat) (h4 : a % 4 = 0) (hw : a < 0x2000) :
    (regAt a = .reserved ∧ reservedOffset a) ∨ (regAt a ≠ .reserved ∧ ¬reservedOffset a ∧ (regAt a).offset = a) := by
  by_cases hr : reservedOffset a
  · exact .inl ⟨regAt_reserved hr, hr⟩
  right
  have hr' := hr
  unfold reservedOffset at hr'
  have h : (a = 0x000 ∨ a = 0x004 ∨ a = 0x008 ∨ a = 0x00C ∨ a = 0x010 ∨ a = 0x014 ∨ a = 0x018) ∨ (0x020 ≤ a ∧ a < 0x06C)
      ∨ (0x070 ≤ a ∧ a < 0x080) ∨ (0x080 ≤ a ∧ a < 0x098) ∨ (0x800 ≤ a ∧ a < 0x848) ∨ 0x1000 ≤ a := by omega
  rcases h with h | h | h | h | h | h
  · rcases h with rfl | rfl | rfl | rfl | rfl | rfl | rfl <;> exact ⟨by decide, hr, by decide⟩
  · rw [regAt_keyw ⟨(a - 0x020) / 4, by omega⟩ (by simp only []; omega)]
    exact ⟨by simp, hr, by simp only [Reg.offset]; omega⟩
  · rw [regAt_saltw ⟨(a - 0x070) / 4, by omega⟩ (by simp only []; omega)]
    exact ⟨by simp, hr, by simp only [Reg.offset]; omega⟩
  · rw [regAt_digest ⟨(a - 0x080) / 4, by omega⟩ (by simp only []; omega)]
    exact ⟨by simp, hr, by simp only [Reg.offset]; omega⟩
  · rw [regAt_p ⟨(a - 0x800) / 4, by omega⟩ (by simp only []; omega)]
    exact ⟨by simp, hr, by simp only [Reg.offset]; omega⟩
  · rw [regAt_s ⟨(a - 0x1000) / 0x400, by omega⟩ ⟨(a - 0x1000) % 0x400 / 4, by omega⟩ (by simp only []; omega)]
    exact ⟨by simp, hr, by simp only [Reg.offset]; omega⟩

theorem hostAccess_read {a : Nat} (h4 : a % 4 = 0) (hw : a < 0x2000) (s : State) :
    hostAccess (.read a 4) s = .next (s.hostRead a) := by simp only [hostAccess, accessRefusal_word h4 hw]

theorem hostAccess_write {a : Nat} (h4 : a % 4 = 0) (hw : a < 0x2000) (v : Word) (s : State) :
    hostAccess (.write a 4 v) s = .next (s.hostWrite (regAt a) v) := by simp only [hostAccess, accessRefusal_word h4 hw]

theorem readValue_of_free {s : State} {r : Reg} (h : s.readIsFree r = true) : s.readValue r = Config.freeWord s.draws := by
  simp only [State.readValue, h, if_true]

theorem readValue_of_not_free {s : State} {r : Reg} (h : s.readIsFree r = false) : s.readValue r = s.regValue r := by
  simp only [State.readValue, h, Bool.false_eq_true, if_false]

/-- With every result seen, BUSY = 0 and INIT = 1, no read is free (70_reset_and_hazards.md R255, R256). -/
theorem readIsFree_seen {s : State} (hb : s.status.busy = false) (hi : s.status.init = true) (hu : s.unseen = .nothing)
    (r : Reg) : s.readIsFree r = false := by cases r <;> simp [State.readIsFree, hb, hi, hu, Unseen.nothing]

theorem unseenAfterRead_of_ne {s : State} {r : Reg} (h : r ≠ .status) : s.unseenAfterRead r = s.unseen := by
  rw [State.unseenAfterRead, if_neg (fun hc => h hc.1)]

theorem unseenAfterRead_busy {s : State} (h : s.status.busy = true) (r : Reg) : s.unseenAfterRead r = s.unseen := by
  rw [State.unseenAfterRead, if_neg (by simp [h])]

theorem unseenAfterRead_idle {s : State} (h : s.status.busy = false) : s.unseenAfterRead .status = .nothing := by
  rw [State.unseenAfterRead, if_pos ⟨rfl, h⟩]

/-- A read other than of STATUS that is not free notes the register's word and does nothing else. -/
theorem hostRead_exact {s : State} {a : Nat} (h : s.readIsFree (regAt a) = false) (hs : regAt a ≠ .status) :
    s.hostRead a = { s with reads := (a, s.regValue (regAt a)) :: s.reads } := by
  simp only [State.hostRead, readValue_of_not_free h, h, Bool.false_eq_true, if_false, unseenAfterRead_of_ne hs]

/-- A read of STATUS notes its word and what the host has now seen. -/
theorem hostRead_status (s : State) :
    s.hostRead 0x008 = { s with reads := (0x008, s.status.word) :: s.reads, unseen := s.unseenAfterRead .status } := rfl

/-- A free read notes the next draw and does nothing else. -/
theorem hostRead_free {s : State} {a : Nat} (h : s.readIsFree (regAt a) = true) :
    s.hostRead a = { s with reads := (a, Config.freeWord s.draws) :: s.reads, draws := s.draws + 1 } := by
  have hs : regAt a ≠ .status := fun hc => by rw [hc] at h; contradiction
  simp only [State.hostRead, readValue_of_free h, h, if_true, unseenAfterRead_of_ne hs]

/-- The issue of a word: what `issueWord` can do. -/
theorem issueWord_cases (w : Word) (s : State) :
    (∃ i, decode w = .ok i ∧ s.issueWord w = issueCommand i id s)
      ∨ (∃ r, decode w = .error r ∧ s.issueWord w = issueIllegal r s) := by
  unfold State.issueWord
  cases h : decode w with
  | ok i => exact .inl ⟨i, rfl, rfl⟩
  | error r => exact .inr ⟨r, rfl, rfl⟩

theorem hostWrite_busy {s : State} (h : s.status.busy = true) (r : Reg) (v : Word) :
    s.hostWrite r v = if r.writable then s.dropWrite else s := by
  cases r <;> simp [State.hostWrite, h, Reg.writable, State.writeReg]

theorem hostWrite_cmd {s : State} (h : s.status.busy = false) (w : Word) : s.hostWrite .cmd w = s.issueWord w := by
  simp [State.hostWrite, h]

theorem hostWrite_idle {s : State} (h : s.status.busy = false) {r : Reg} (hr : r ≠ .cmd) (v : Word) :
    s.hostWrite r v = s.writeReg r v := by simp [State.hostWrite, h, hr]

@[simp] theorem writeReg_cipher (r : Reg) (v : Word) (s : State) : (s.writeReg r v).cipher = s.cipher := by
  cases r <;> simp only [State.writeReg]
@[simp] theorem writeReg_status (r : Reg) (v : Word) (s : State) : (s.writeReg r v).status = s.status := by
  cases r <;> simp only [State.writeReg]
@[simp] theorem writeReg_digest (r : Reg) (v : Word) (s : State) : (s.writeReg r v).digest = s.digest := by
  cases r <;> simp only [State.writeReg]
@[simp] theorem writeReg_seq (r : Reg) (v : Word) (s : State) : (s.writeReg r v).seq = s.seq := by
  cases r <;> simp only [State.writeReg]
theorem writeReg_unseen {r : Reg} (h : r ≠ .blkL ∧ r ≠ .blkR) (v : Word) (s : State) :
    (s.writeReg r v).unseen = s.unseen := by cases r <;> simp_all [State.writeReg]
@[simp] theorem writeReg_dropMark (r : Reg) (v : Word) (s : State) : (s.writeReg r v).dropMark = s.dropMark := by
  cases r <;> simp only [State.writeReg]
@[simp] theorem writeReg_inputs (r : Reg) (v : Word) (s : State) : (s.writeReg r v).inputs = s.inputs := by
  cases r <;> simp only [State.writeReg]
@[simp] theorem writeReg_reads (r : Reg) (v : Word) (s : State) : (s.writeReg r v).reads = s.reads := by
  cases r <;> simp only [State.writeReg]
@[simp] theorem writeReg_draws (r : Reg) (v : Word) (s : State) : (s.writeReg r v).draws = s.draws := by
  cases r <;> simp only [State.writeReg]

/-- Everything a host access inside the interface can do: a read, a dropped write, a write without effect while BUSY, a
store, or an issue. -/
theorem hostAccess_cases {acc : Access} {s t : State} (h : hostAccess acc s = .next t) :
    (∃ a, acc = .read a 4 ∧ a % 4 = 0 ∧ a < 0x2000 ∧ t = s.hostRead a)
      ∨ (∃ a v, acc = .write a 4 v ∧ a % 4 = 0 ∧ a < 0x2000
          ∧ ((s.status.busy = true ∧ (t = s.dropWrite ∨ t = s))
            ∨ (s.status.busy = false ∧ regAt a ≠ .cmd ∧ t = s.writeReg (regAt a) v)
            ∨ (s.status.busy = false ∧ a = 0x004 ∧ t = s.issueWord v))) := by
  have key : ∀ a width, accessRefusal a width = none → width = 4 ∧ a % 4 = 0 ∧ a < 0x2000 := by
    intro a width ha
    unfold accessRefusal at ha
    split at ha <;> first | contradiction | skip
    split at ha <;> first | contradiction | skip
    split at ha <;> first | contradiction | skip
    omega
  cases acc with
  | read a width =>
    simp only [hostAccess] at h
    split at h
    · contradiction
    · rename_i ha
      obtain ⟨rfl, h4, hw⟩ := key a width ha
      injection h with h
      exact .inl ⟨a, rfl, h4, hw, h.symm⟩
  | write a width v =>
    simp only [hostAccess] at h
    split at h
    · contradiction
    · rename_i ha
      obtain ⟨rfl, h4, hw⟩ := key a width ha
      injection h with h
      refine .inr ⟨a, v, rfl, h4, hw, ?_⟩
      subst h
      cases hb : s.status.busy with
      | true =>
        left
        rw [hostWrite_busy hb]
        split <;> simp
      | false =>
        right
        by_cases hc : regAt a = .cmd
        · right
          rw [hc, hostWrite_cmd hb]
          have ho := regAt_cases a h4 hw
          rw [hc] at ho
          simp only [Reg.offset, reduceCtorEq, false_and, false_or] at ho
          exact ⟨rfl, ho.2.2.symm, rfl⟩
        · exact .inl ⟨rfl, hc, hostWrite_idle hb hc v⟩

end Sys2Proof.Machine
end

