-- ==== Sys2Proof/Laws/Sequencer.lean ====
section
/-! SUPPORT. What one sequencer step can do, a row of 42_eks_bcrypt.md R152 at a time, and what every row leaves alone. -/

namespace Sys2Proof.Machine

/-- `SeqRow s t`: a row of the table of 42_eks_bcrypt.md R152 takes `s` to `t`. -/
inductive SeqRow (s : State) : State → Prop where
  | idle (hp : s.seq.phase = .idle) : SeqRow s s
  | loadInit (hp : s.seq.phase = .load) (hc : s.seq.cur = some .init) : SeqRow s (s.loadRom.toPhase .finish)
  | loadEks (x : Bool) (hp : s.seq.phase = .load) (hc : s.seq.cur = some (.eks x) ∨ s.seq.cur = some (.bcrypt x)) :
      SeqRow s (s.loadRom.beginExpansion .key x true .state)
  | enc (hp : s.seq.phase = .enc) : SeqRow s (s.encryptBlk.toPhase .finish)
  | keyxor (hp : s.seq.phase = .keyxor) (hn : s.seq.n < 18) : SeqRow s s.keyxorStep
  | keyxorEnd (hp : s.seq.phase = .keyxor) (hn : s.seq.n = 18) : SeqRow s s.beginFill
  | fill (hp : s.seq.phase = .fill) (hn : s.seq.n < 521) : SeqRow s s.fillStep
  | fillSingle (hp : s.seq.phase = .fill) (hn : s.seq.n = 521) (hg : s.seq.stage = .single) :
      SeqRow s (s.toPhase .finish)
  | fillState (hp : s.seq.phase = .fill) (hn : s.seq.n = 521) (hg : s.seq.stage = .state) :
      SeqRow s { s with seq := { s.seq with iter := BitVec.ofNat 32 (2 ^ s.costNat), phase := .loopk } }
  | fillKey (hp : s.seq.phase = .fill) (hn : s.seq.n = 521) (hg : s.seq.stage = .lk) : SeqRow s (s.toPhase .loops)
  | fillSalt (hp : s.seq.phase = .fill) (hn : s.seq.n = 521) (hg : s.seq.stage = .ls) :
      SeqRow s { s with seq := { s.seq with iter := s.seq.iter - 1#32, phase := .loopk } }
  | loopEnd (x : Bool) (hp : s.seq.phase = .loopk) (hc : s.seq.cur = some (.eks x)) (hi : s.seq.iter = 0#32) :
      SeqRow s (s.toPhase .finish)
  | loopDigest (x : Bool) (hp : s.seq.phase = .loopk) (hc : s.seq.cur = some (.bcrypt x)) (hi : s.seq.iter = 0#32) :
      SeqRow s s.beginDigest
  | loopKey (x : Bool) (hp : s.seq.phase = .loopk) (hc : s.seq.cur = some (.eks x) ∨ s.seq.cur = some (.bcrypt x))
      (hi : s.seq.iter ≠ 0#32) : SeqRow s (s.beginExpansion .key x false .lk)
  | loopSalt (hp : s.seq.phase = .loops) : SeqRow s (s.beginExpansion .salt false false .ls)
  | digest (hp : s.seq.phase = .digest) (hn : s.seq.pass < 64) : SeqRow s s.digestStep
  | digestEnd (hp : s.seq.phase = .digest) (hn : s.seq.pass = 64) : SeqRow s s.endDigest
  | finish (i : Instr) (hp : s.seq.phase = .finish) (hc : s.seq.cur = some i) : SeqRow s (s.complete i)

/-- A step that answers a next state is one of the rows. -/
theorem SeqRow.of_step {s t : State} (h : sequencerStep s = .next t) : SeqRow s t := by
  unfold sequencerStep at h
  split at h
  case h_1 hp => injection h with h; subst h; exact .idle hp
  case h_2 hp =>
    unfold loadRow at h
    split at h
    case h_1 hc => injection h with h; subst h; exact .loadInit hp hc
    case h_2 x hc => injection h with h; subst h; exact .loadEks x hp (.inl hc)
    case h_3 x hc => injection h with h; subst h; exact .loadEks x hp (.inr hc)
    case h_4 => contradiction
  case h_3 hp => injection h with h; subst h; exact .enc hp
  case h_4 hp =>
    unfold keyxorRow at h
    split at h
    case isTrue hn => injection h with h; subst h; exact .keyxor hp hn
    case isFalse =>
      split at h
      case isTrue hn => injection h with h; subst h; exact .keyxorEnd hp hn
      case isFalse => contradiction
  case h_5 hp =>
    unfold fillRow at h
    split at h
    case isTrue hn => injection h with h; subst h; exact .fill hp hn
    case isFalse =>
      split at h
      case isTrue hn =>
        injection h with h
        subst h
        unfold State.endFill
        split
        case h_1 hg => exact .fillSingle hp hn hg
        case h_2 hg => exact .fillState hp hn hg
        case h_3 hg => exact .fillKey hp hn hg
        case h_4 hg => exact .fillSalt hp hn hg
      case isFalse => contradiction
  case h_6 hp =>
    unfold loopkRow at h
    split at h
    case h_1 x hc =>
      split at h
      case isTrue hi => injection h with h; subst h; exact .loopEnd x hp hc hi
      case isFalse hi => injection h with h; subst h; exact .loopKey x hp (.inl hc) hi
    case h_2 x hc =>
      split at h
      case isTrue hi => injection h with h; subst h; exact .loopDigest x hp hc hi
      case isFalse hi => injection h with h; subst h; exact .loopKey x hp (.inr hc) hi
    case h_3 => contradiction
  case h_7 hp => injection h with h; subst h; exact .loopSalt hp
  case h_8 hp =>
    unfold digestRow at h
    split at h
    case isTrue hn => injection h with h; subst h; exact .digest hp hn
    case isFalse =>
      split at h
      case isTrue hn => injection h with h; subst h; exact .digestEnd hp hn
      case isFalse => contradiction
  case h_9 hp =>
    unfold finishRow at h
    split at h
    case h_1 i hc => injection h with h; subst h; exact .finish i hp hc
    case h_2 => contradiction

/-- A row answers the step: the rows are exactly what the sequencer can do. -/
theorem SeqRow.step {s t : State} (h : SeqRow s t) : sequencerStep s = .next t := by
  cases h with
  | idle hp | enc hp | loopSalt hp => simp only [sequencerStep, hp]
  | loadInit hp hc => simp only [sequencerStep, hp, loadRow, hc]
  | loadEks x hp hc => rcases hc with hc | hc <;> simp only [sequencerStep, hp, loadRow, hc]
  | keyxor hp hn => simp only [sequencerStep, hp, keyxorRow, Config.pWords, hn, if_true]
  | keyxorEnd hp hn => simp [sequencerStep, hp, keyxorRow, Config.pWords, hn]
  | fill hp hn => simp only [sequencerStep, hp, fillRow, Config.fillBlocks, hn, if_true]
  | fillSingle hp hn hg | fillState hp hn hg | fillKey hp hn hg | fillSalt hp hn hg =>
    simp [sequencerStep, hp, fillRow, Config.fillBlocks, hn, State.endFill, hg]
  | loopEnd x hp hc hi | loopDigest x hp hc hi => simp only [sequencerStep, hp, loopkRow, hc, hi, if_true]
  | loopKey x hp hc hi => rcases hc with hc | hc <;> simp only [sequencerStep, hp, loopkRow, hc, hi, if_false]
  | digest hp hn => simp only [sequencerStep, hp, digestRow, Config.digestPasses, hn, if_true]
  | digestEnd hp hn => simp [sequencerStep, hp, digestRow, Config.digestPasses, hn]
  | finish i hp hc => simp only [sequencerStep, hp, finishRow, hc]

/-- What every row leaves: the operands, the model's own fields and the command latch. -/
theorem SeqRow.frame {s t : State} (h : SeqRow s t) : s.SameOperands t ∧ s.SameModel t ∧ t.seq.cur = s.seq.cur := by
  cases h <;> simp [State.SameOperands, State.SameModel, State.complete, State.beginFill, State.beginDigest,
    State.digestStep]

/-- STATUS is written by the FINISH row only. -/
theorem SeqRow.status {s t : State} (h : SeqRow s t) :
    (s.seq.phase ≠ .finish ∧ t.status = s.status)
      ∨ ∃ i, s.seq.phase = .finish ∧ s.seq.cur = some i ∧ t = s.complete i := by
  cases h with
  | finish i hp hc => exact .inr ⟨i, hp, hc, rfl⟩
  | idle hp | enc hp | loopSalt hp => exact .inl ⟨by simp [hp], by simp⟩
  | loadInit hp _ | loadEks _ hp _ | keyxor hp _ | keyxorEnd hp _ | fill hp _ | fillSingle hp _ _ | fillState hp _ _
  | fillKey hp _ _ | fillSalt hp _ _ | loopEnd _ hp _ _ | loopDigest _ hp _ _ | loopKey _ hp _ _ | digest hp _
  | digestEnd hp _ => exact .inl ⟨by simp [hp], by simp [State.beginFill, State.beginDigest, State.digestStep]⟩

/-- BLK is written by the ENC row only. -/
theorem SeqRow.blk {s t : State} (h : SeqRow s t) (he : s.seq.phase ≠ .enc) : t.blkL = s.blkL ∧ t.blkR = s.blkR := by
  cases h with
  | enc hp => exact absurd hp he
  | _ => simp [State.complete, State.beginFill, State.beginDigest, State.digestStep]

/-- Everything the engine's turn can do. -/
theorem engineTurn_cases {s t : State} (h : engineTurn s = .next t) :
    (s.status.busy = false ∧ t = s) ∨ (s.status.busy = true ∧ SeqRow s t) := by
  unfold engineTurn at h
  cases hb : s.status.busy with
  | false =>
    rw [hb] at h
    injection h with h
    exact .inl ⟨rfl, h.symm⟩
  | true =>
    rw [hb] at h
    exact .inr ⟨rfl, .of_step h⟩

theorem engineTurn_idle {s : State} (h : s.status.busy = false) : engineTurn s = .next s := by simp [engineTurn, h]

theorem engineTurn_row {s t : State} (hb : s.status.busy = true) (h : SeqRow s t) : engineTurn s = .next t := by
  simp [engineTurn, hb, h.step]

/-- An engine turn changes neither DROP nor, while the command stays in flight, any other field of STATUS. -/
theorem engineTurn_status {s t : State} (h : engineTurn s = .next t) :
    t.status = s.status ∨ ∃ i, s.status.busy = true ∧ s.seq.cur = some i ∧ t = s.complete i := by
  obtain ⟨_, rfl⟩ | ⟨hb, hr⟩ := engineTurn_cases h
  · exact .inl rfl
  · obtain ⟨_, h⟩ | ⟨i, _, hc, rfl⟩ := hr.status
    · exact .inl h
    · exact .inr ⟨i, hb, hc, rfl⟩

theorem engineTurns_idle (k : Nat) {s : State} (h : s.status.busy = false) : engineTurns k s = .next s := by
  induction k with
  | zero => rfl
  | succ k ih => simp [engineTurns, engineTurn_idle h, ih]

theorem engineTurns_succ {k : Nat} {s t : State} (h : engineTurn s = .next t) : engineTurns (k + 1) s = engineTurns k t := by
  simp only [engineTurns, h]

/-- Turns taken one after another. -/
theorem engineTurns_add {m n : Nat} {s t : State} (h : engineTurns m s = .next t) :
    engineTurns (m + n) s = engineTurns n t := by
  induction m generalizing s with
  | zero =>
    injection h with h
    subst h
    rw [Nat.zero_add]
  | succ m ih =>
    rw [engineTurns] at h
    rw [Nat.succ_add_eq_add_succ, Nat.add_succ]
    split at h
    · rename_i u hu
      rw [engineTurns_succ hu]
      exact ih h
    · contradiction
    · contradiction

end Sys2Proof.Machine
end

