-- ==== Sys2Proof/Laws/Invariant.lean ====
section
/-! SUPPORT. Each kind of step keeps the machine's invariant (10_state.md R26 to R38, 42_eks_bcrypt.md R152), and the
sequencer never lacks a row under it (60_exceptions.md R220). -/

namespace Sys2Proof.Machine

/-- The key source of the command in hand has at least one byte, and at most 73 (60_exceptions.md R226). -/
theorem State.sourceBytes_length {s : State} {i : Instr} (hk : s.seq.src = .key → needsKeylen i = true)
    (hc : issueCheck i s = none) :
    1 ≤ (s.sourceBytes s.seq.src).length ∧ (s.sourceBytes s.seq.src).length ≤ 73 := by
  cases hs : s.seq.src with
  | salt => simp [State.sourceBytes, saltBytes_length]
  | key =>
    have h := (issueCheck_eq_none.1 hc).2.1 (hk hs)
    simp only [State.sourceBytes, keyBytes_length h.2]
    exact h

/-- 2^COST is not zero in 32 bits for a checked COST. -/
theorem iter_ne_zero {c : Nat} (h : c ≤ 31) : BitVec.ofNat 32 (2 ^ c) ≠ 0#32 := by
  have h2 : 2 ^ c ≤ 2 ^ 31 := Nat.pow_le_pow_right (by decide) h
  have h1 : 0 < 2 ^ c := Nat.pow_pos (by decide)
  intro he
  have := congrArg BitVec.toNat he
  rw [BitVec.toNat_ofNat, Nat.mod_eq_of_lt (by omega)] at this
  simp at this

/-- A command in flight always has a row (60_exceptions.md R220). -/
theorem sequencerStep_next {s : State} (h : s.InFlight) : ∃ t, SeqRow s t := by
  obtain ⟨i, hc, _, hp⟩ := h
  unfold Seq.PhaseOf at hp
  split at hp
  case h_1 => exact hp.elim
  case h_2 ph =>
    obtain rfl | hn := hp
    · exact ⟨_, .loadInit ph hc⟩
    · cases i <;> first | contradiction | skip
      · exact ⟨_, .loadEks _ ph (.inl hc)⟩
      · exact ⟨_, .loadEks _ ph (.inr hc)⟩
  case h_3 ph => exact ⟨_, .enc ph⟩
  case h_4 ph =>
    obtain hn | hn := Nat.lt_or_eq_of_le hp.1
    · exact ⟨_, .keyxor ph hn⟩
    · exact ⟨_, .keyxorEnd ph hn⟩
  case h_5 ph =>
    obtain hn | hn := Nat.lt_or_eq_of_le hp.1
    · exact ⟨_, .fill ph hn⟩
    · cases hg : s.seq.stage with
      | single => exact ⟨_, .fillSingle ph hn hg⟩
      | state => exact ⟨_, .fillState ph hn hg⟩
      | lk => exact ⟨_, .fillKey ph hn hg⟩
      | ls => exact ⟨_, .fillSalt ph hn hg⟩
  case h_6 ph =>
    cases i <;> first | contradiction | skip
    all_goals by_cases hi : s.seq.iter = 0#32
    · exact ⟨_, .loopEnd _ ph hc hi⟩
    · exact ⟨_, .loopKey _ ph (.inl hc) hi⟩
    · exact ⟨_, .loopDigest _ ph hc hi⟩
    · exact ⟨_, .loopKey _ ph (.inr hc) hi⟩
  case h_7 ph => exact ⟨_, .loopSalt ph⟩
  case h_8 ph =>
    obtain hn | hn := Nat.lt_or_eq_of_le hp.1
    · exact ⟨_, .digest ph hn⟩
    · exact ⟨_, .digestEnd ph hn⟩
  case h_9 ph => exact ⟨_, .finish i ph hc⟩

/-- A next state whose operands, latch and INIT are those of a state in flight is in flight, if its phase is one of the
command's. -/
theorem State.InFlight.of_phase {s t : State} {i : Instr} (hc : s.seq.cur = some i) (hk : issueCheck i s = none)
    (ho : s.SameOperands t) (hs : t.status = s.status) (hcur : t.seq.cur = s.seq.cur) (hp : t.seq.PhaseOf i) :
    t.InFlight :=
  ⟨i, hcur.trans hc, (issueCheck_congr i (by rw [hs]) ho.2.1 ho.1).trans hk, hp⟩

/-- STATUS stays legal at the completion of a command in flight. -/
theorem Status.Legal.completed {t : Status} (h : t.Legal) (hb : t.busy = true) (i : Instr) : (t.completed i).Legal := by
  obtain ⟨_, h2, _, h4, h5⟩ := h
  have he : t.err = false := by cases hx : t.err with
    | true => exact absurd ⟨hb, hx⟩ h2
    | false => rfl
  exact ⟨by simp, by simp, by simp [he], h4, h5⟩

/-- Every row but FINISH leaves its command in flight, in one of its phases. -/
theorem SeqRow.inFlight {s t : State} (hr : SeqRow s t) (h : s.InFlight) (hf : s.seq.phase ≠ .finish) : t.InFlight := by
  obtain ⟨i, hc, hk, hp⟩ := h
  obtain ⟨ho, _, hcur⟩ := hr.frame
  obtain ⟨_, hs⟩ | ⟨j, hph, _, _⟩ := hr.status
  · suffices hq : t.seq.PhaseOf i from .of_phase hc hk ho hs hcur hq
    unfold Seq.PhaseOf at hp
    cases hr with
    | idle ph => rw [ph] at hp; exact hp.elim
    | loadInit ph _ => trivial
    | loadEks x ph hx =>
      rw [hc] at hx
      have hn : needsKeylen i = true ∧ needsCost i = true := by
        rcases hx with hx | hx <;> injection hx with hx <;> subst hx <;> exact ⟨rfl, rfl⟩
      exact ⟨Nat.zero_le _, fun _ => hn.1, hn.2⟩
    | enc ph => trivial
    | keyxor ph hn =>
      rw [ph] at hp
      simp only [Seq.PhaseOf, State.keyxorStep, ph]
      exact ⟨by omega, hp.2⟩
    | keyxorEnd ph hn =>
      rw [ph] at hp
      exact ⟨Nat.zero_le _, hp.2⟩
    | fill ph hn =>
      rw [ph] at hp
      simp only [Seq.PhaseOf, State.fillStep, ph]
      exact ⟨by omega, hp.2⟩
    | fillSingle ph hn hg => trivial
    | fillState ph hn hg | fillKey ph hn hg =>
      rw [ph] at hp
      have := hp.2.2
      rw [hg] at this
      exact this
    | fillSalt ph hn hg =>
      rw [ph] at hp
      have := hp.2.2
      rw [hg] at this
      exact this.1
    | loopEnd x ph _ hi => trivial
    | loopDigest x ph hx hi =>
      rw [hc] at hx
      injection hx with hx
      exact ⟨Nat.zero_le _, x, hx⟩
    | loopKey x ph hx hi =>
      rw [ph] at hp
      rw [hc] at hx
      have hn : needsKeylen i = true := by rcases hx with hx | hx <;> injection hx with hx <;> subst hx <;> rfl
      exact ⟨Nat.zero_le _, fun _ => hn, hp, hi⟩
    | loopSalt ph =>
      rw [ph] at hp
      exact ⟨Nat.zero_le _, fun hx => by contradiction, hp⟩
    | digest ph hn =>
      rw [ph] at hp
      simp only [Seq.PhaseOf, State.digestStep, ph]
      exact ⟨by omega, hp.2⟩
    | digestEnd ph hn => trivial
    | finish j ph _ => exact absurd ph hf
  · exact absurd hph hf

/-- Every row keeps the working registers in their ranges (10_state.md R38). -/
theorem SeqRow.ranges {s t : State} (hr : SeqRow s t) (h : s.InFlight) (hq : s.seq.InRange) : t.seq.InRange := by
  obtain ⟨i, _, hk, hp⟩ := h
  obtain ⟨h1, h2, h3, h4⟩ := hq
  unfold Seq.PhaseOf at hp
  cases hr with
  | keyxor ph hn =>
    rw [ph] at hp
    have hl := State.sourceBytes_length hp.2.1 hk
    have := streamWord_off_lt (s.sourceBytes s.seq.src) s.seq.koff s.seq.sx (by intro he; simp [he] at hl)
    refine ⟨?_, h2, ?_, h4⟩
    · simp only [State.keyxorStep, keyXorWord]
      omega
    · simp only [State.keyxorStep]
      omega
  | fill ph hn =>
    refine ⟨h1, ?_, ?_, h4⟩
    · simp only [State.fillStep, fillBlock, FillRun.store, FillRun.encrypt]
      split
      · have := streamWord_off_lt s.saltBytes (streamWord s.saltBytes s.seq.soff false).2 false
          (by intro he; have := saltBytes_length s; simp [he] at this)
        rw [saltBytes_length] at this
        simp only [FillRun.addSalt]
        omega
      · exact h2
    · simp only [State.fillStep]
      omega
  | digest ph hn =>
    refine ⟨h1, h2, h3, ?_⟩
    simp only [State.digestStep]
    omega
  | loadEks x ph hx => exact ⟨Nat.zero_le _, h2, Nat.zero_le _, h4⟩
  | loopKey x ph hx hi => exact ⟨Nat.zero_le _, h2, Nat.zero_le _, h4⟩
  | loopSalt ph => exact ⟨Nat.zero_le _, h2, Nat.zero_le _, h4⟩
  | keyxorEnd ph hn => exact ⟨h1, Nat.zero_le _, Nat.zero_le _, h4⟩
  | loopDigest x ph hx hi => exact ⟨h1, h2, h3, Nat.zero_le _⟩
  | idle | loadInit | enc | fillSingle | fillState | fillKey | fillSalt | loopEnd | digestEnd | finish =>
    exact ⟨h1, h2, h3, h4⟩

/-- Every row keeps the invariant. -/
theorem SeqRow.inv {s t : State} (hr : SeqRow s t) (h : s.Inv) (hb : s.status.busy = true) : t.Inv := by
  have hq := hr.ranges (h.busy hb) h.ranges
  obtain ⟨hne, hs⟩ | ⟨j, _, _, rfl⟩ := hr.status
  · exact
      { status := hs ▸ h.status
        ranges := hq
        busy := fun _ => hr.inFlight (h.busy hb) hne
        idle := fun hf => absurd (hs ▸ hf) (by simp [hb])
        mark := fun hd => hr.frame.2.1.1.trans (h.mark (hs ▸ hd)) }
  · exact
      { status := h.status.completed hb j
        ranges := h.ranges
        busy := fun hx => by simp [State.complete] at hx
        idle := fun _ => rfl
        mark := h.mark }

/-- A dropped write keeps the invariant: the ghost mark is set with DROP. -/
theorem State.dropWrite_inv {s : State} (h : s.Inv) : s.dropWrite.Inv where
  status := h.status
  ranges := h.ranges
  busy hb := by
    obtain ⟨i, hc, hk, hp⟩ := h.busy hb
    exact ⟨i, hc, hk, hp⟩
  idle := h.idle
  mark _ := rfl

/-- A rejection keeps the invariant. -/
theorem reject_inv {s : State} (h : s.Inv) (hb : s.status.busy = false) (r : Reject) : (s.clearRecord.reject r).Inv where
  status := by
    refine ⟨by simp, by simp [hb], by simp, ?_, ?_⟩ <;> cases r <;> simp [rejectCode]
  ranges := h.ranges
  busy hx := by simp [hb] at hx
  idle _ := h.idle hb
  mark hd := by simp at hd

/-- Acceptance puts the command in flight. -/
theorem accept_inFlight {i : Instr} {s : State} (ha : s.Accepts i) : (s.clearRecord.accept i).InFlight := by
  refine ⟨i, State.accept_cur _ i, ?_, ?_⟩
  · rw [← (State.accepts_iff.1 ha).2]
    exact issueCheck_congr i (by simp) (by simp) (by simp)
  · cases i <;> simp [State.accept, startPhase, Seq.PhaseOf, Seq.ExpansionOf, needsCost, needsKeylen]

theorem accept_inv {i : Instr} {s : State} (h : s.Inv) (ha : s.Accepts i) : (s.clearRecord.accept i).Inv := by
  obtain ⟨h1, h2, h3, h4⟩ := h.ranges
  refine
    { status := ⟨by simp, by simp, by simp, by simp, by simp⟩
      ranges := ?_
      busy := fun _ => accept_inFlight ha
      idle := fun hf => by simp at hf
      mark := fun hd => by simp at hd }
  cases i <;> simp [State.accept, startPhase, Seq.InRange, h1, h2, h3, h4]

/-- The issue of a command, left in flight, keeps the invariant. -/
theorem issueCommand_inv {i : Instr} {s : State} (h : s.Inv) : (issueCommand i id s).Inv := by
  obtain ⟨_, e⟩ | ⟨r, hb, _, e⟩ | ⟨ha, e⟩ := issueCommand_cases i id s
  · rw [e]; exact State.dropWrite_inv h
  · rw [e]; exact reject_inv h hb r
  · rw [e]; exact accept_inv h ha

theorem issueIllegal_inv {s : State} (h : s.Inv) (r : Reject) : (issueIllegal r s).Inv := by
  unfold issueIllegal
  split
  · exact State.dropWrite_inv h
  · rename_i hb; exact reject_inv h (by simpa using hb) r

theorem issueWord_inv {s : State} (h : s.Inv) (w : Word) : (s.issueWord w).Inv := by
  obtain ⟨i, _, e⟩ | ⟨r, _, e⟩ := issueWord_cases w s
  · rw [e]; exact issueCommand_inv h
  · rw [e]; exact issueIllegal_inv h r

/-- A command run whole keeps the invariant. -/
theorem exec_inv {i : Instr} {s t : State} (h : s.Inv) (he : exec i s = .next t) : t.Inv := by
  obtain ⟨_, rfl⟩ | ⟨r, hb, _, rfl⟩ | ⟨ha, rfl⟩ := exec_cases he
  · exact State.dropWrite_inv h
  · exact reject_inv h hb r
  · have h' := accept_inv h ha
    exact
      { status := by
          have := h'.status.completed (by simp) i
          simpa [State.complete] using this
        ranges := by
          have := h'.ranges
          simpa [State.complete, Seq.InRange] using this
        busy := fun hx => by simp [State.complete] at hx
        idle := fun _ => rfl
        mark := fun hd => by simp [State.complete] at hd }

/-- A store by the host, and a read, keep the invariant. -/
theorem hostAccess_inv {acc : Access} {s t : State} (h : s.Inv) (he : hostAccess acc s = .next t) : t.Inv := by
  obtain ⟨a, _, _, _, rfl⟩ | ⟨a, v, _, _, _, ⟨_, rfl | rfl⟩ | ⟨hb, _, rfl⟩ | ⟨_, _, rfl⟩⟩ := hostAccess_cases he
  · exact
      { status := h.status
        ranges := h.ranges
        busy := h.busy
        idle := h.idle
        mark := h.mark }
  · exact State.dropWrite_inv h
  · exact h
  · exact
      { status := by simpa using h.status
        ranges := by simpa using h.ranges
        busy := fun hx => by simp [hb] at hx
        idle := fun _ => by simpa using h.idle hb
        mark := by simpa using h.mark }
  · exact issueWord_inv h v

theorem engineTurn_inv {s t : State} (h : s.Inv) (he : engineTurn s = .next t) : t.Inv := by
  obtain ⟨_, rfl⟩ | ⟨hb, hr⟩ := engineTurn_cases he
  · exact h
  · exact hr.inv h hb

theorem applyReset_inv {s : State} : s.applyReset.Inv where
  status := (by unfold Status.Legal; decide : Status.reset.Legal)
  ranges := (by unfold Seq.InRange; decide : Seq.reset.InRange)
  busy hx := by contradiction
  idle _ := rfl
  mark hd := by contradiction

/-- The invariant says nothing of the inputs to come. -/
theorem Inv.setInputs {s : State} (h : s.Inv) (l : List Input) : ({ s with inputs := l } : State).Inv where
  status := h.status
  ranges := h.ranges
  busy := h.busy
  idle := h.idle
  mark := h.mark

end Sys2Proof.Machine
end

