-- ==== Sys2Proof/Laws/Radix64.lean ====
section
/-! SUPPORT. The radix-64 codec symbol by symbol (44_host_protocol.md R195 to R198). -/

namespace Sys2Proof.Machine.Radix64

/-- The index of a symbol is the number it stands for (44_host_protocol.md R195). -/
theorem index_symbol : ∀ k : BitVec 6, index (symbol k) = some k := by decide +kernel

/-- The indices an encoding is made of: `encode` before the alphabet is applied (44_host_protocol.md R196). -/
def indices : List Byte → List (BitVec 6)
  | [] => []
  | [a] => [a.extractLsb' 2 6, a.extractLsb' 0 2 ++ 0#4]
  | [a, b] => [a.extractLsb' 2 6, a.extractLsb' 0 2 ++ b.extractLsb' 4 4, b.extractLsb' 0 4 ++ 0#2]
  | a :: b :: c :: rest =>
    a.extractLsb' 2 6 :: (a.extractLsb' 0 2 ++ b.extractLsb' 4 4) :: (b.extractLsb' 0 4 ++ c.extractLsb' 6 2)
      :: c.extractLsb' 0 6 :: indices rest

theorem encode_eq (d : List Byte) : encode d = (indices d).map symbol := by
  induction d using indices.induct with
  | case1 => rfl
  | case2 => rfl
  | case3 => rfl
  | case4 a b c rest ih => simp only [encode, indices, List.map_cons, ih]

theorem mapM_index_symbol (v : List (BitVec 6)) : (v.map symbol).mapM index = some v := by
  induction v with
  | nil => rfl
  | cons k v ih => simp [List.mapM_cons, index_symbol, ih]

theorem byte_split (a : Byte) : a.extractLsb' 2 6 ++ a.extractLsb' 0 2 = a := by
  revert a
  decide +kernel

theorem nibble_split (b : Byte) : b.extractLsb' 4 4 ++ b.extractLsb' 0 4 = b := by
  revert b
  decide +kernel

theorem pair_split (c : Byte) : c.extractLsb' 6 2 ++ c.extractLsb' 0 6 = c := by
  revert c
  decide +kernel

theorem high_part (x : BitVec 2) (y : BitVec 4) : (x ++ y).extractLsb' 4 2 = x ∧ (x ++ y).extractLsb' 0 4 = y := by
  revert x y
  decide +kernel

theorem low_part (x : BitVec 4) (y : BitVec 2) : (x ++ y).extractLsb' 2 4 = x ∧ (x ++ y).extractLsb' 0 2 = y := by
  revert x y
  decide +kernel

/-- Decoding the indices of an encoding gives the bytes back (44_host_protocol.md R197). -/
theorem decodeIndices_indices (d : List Byte) : decodeIndices (indices d) = d := by
  induction d using indices.induct with
  | case1 => rfl
  | case2 a => simp only [indices, decodeIndices, (high_part _ _).1, byte_split]
  | case3 a b =>
    simp only [indices, decodeIndices, (high_part _ _).1, (high_part _ _).2, (low_part _ _).1, byte_split, nibble_split]
  | case4 a b c rest ih =>
    simp only [indices, decodeIndices, (high_part _ _).1, (high_part _ _).2, (low_part _ _).1, (low_part _ _).2,
      byte_split, nibble_split, pair_split, ih]

/-- What decoding an encoding gives, whatever the bound (44_host_protocol.md R196, R197). -/
theorem decode_encode_take (d : List Byte) (m : Nat) : decode (encode d) m = some (d.take m) := by
  simp only [decode, encode_eq, mapM_index_symbol, Option.map_some, decodeIndices_indices]

theorem index_eq_none (c : Char) : index c = none ↔ c ∉ alphabet := by
  rw [index, Option.map_eq_none_iff, List.idxOf?_eq_none_iff]

/-- A symbol is a character of the alphabet. -/
theorem symbol_mem : ∀ k : BitVec 6, symbol k ∈ alphabet := by decide +kernel

/-- Symbols of an encoding: 4 for 3 bytes, 2 for a last one, 3 for a last two (44_host_protocol.md R196). -/
theorem encode_length (d : List Byte) : (encode d).length = (8 * d.length + 5) / 6 := by
  rw [encode_eq, List.length_map]
  induction d using indices.induct with
  | case1 => rfl
  | case2 => simp [indices]
  | case3 => simp [indices]
  | case4 a b c rest ih =>
    simp only [indices, List.length_cons, ih]
    omega

end Sys2Proof.Machine.Radix64
end

