-- ==== Sys2Proof/Laws/Library.lean ====
section
/-! SUPPORT. What the host software's register traffic does to an IDLE engine (30_encoding.md R91, 44_host_protocol.md R181,
R203). -/

namespace Sys2Proof.Machine

/-- An invariant of a fold over an initial range of numbers. -/
theorem foldl_range {σ : Type} (f : σ → Nat → σ) (P : Nat → σ → Prop) (n : Nat) (s : σ) (h0 : P 0 s)
    (hs : ∀ k t, k < n → P k t → P (k + 1) (f t k)) : P n ((List.range n).foldl f s) := by
  induction n with
  | zero => exact h0
  | succ n ih =>
    rw [List.range_succ, List.foldl_append]
    exact hs n _ (by omega) (ih (fun k t hk => hs k t (by omega)))

theorem hostWrite_keyw {t : State} (hb : t.status.busy = false) {k : Nat} (hk : k < 19) (w : Word) :
    t.hostWrite (regAt (0x020 + 4 * k)) w = { t with key := setBufferWord t.key k w } := by
  rw [regAt_keyw ⟨k, hk⟩ rfl, hostWrite_idle hb (by simp)]
  rfl

theorem hostWrite_saltw {t : State} (hb : t.status.busy = false) {k : Nat} (hk : k < 4) (w : Word) :
    t.hostWrite (regAt (0x070 + 4 * k)) w = { t with salt := setBufferWord t.salt k w } := by
  rw [regAt_saltw ⟨k, hk⟩ rfl, hostWrite_idle hb (by simp)]
  rfl

/-- The bytes of a buffer after one of its words is written (20_memory.md R65). -/
theorem setBufferWord_getElem {m : Nat} (buf : Vector Byte m) (k : Nat) (w : Word) (j : Nat) (hj : j < m) :
    (setBufferWord buf k w)[j] = if j / 4 = k then byteOf w (j % 4) else buf[j] := by
  simp [setBufferWord, Vector.get]

/-- A byte of the word that `ldkey` or `ldsalt` writes for word `k` (30_encoding.md R91). -/
theorem byteOf_wordOf (b : List Byte) {k j : Nat} (h : j / 4 = k) :
    byteOf (be32 (b.getD (4 * k) 0) (b.getD (4 * k + 1) 0) (b.getD (4 * k + 2) 0) (b.getD (4 * k + 3) 0)) (j % 4)
      = b.getD j 0 := by
  obtain ⟨e0, e1, e2, e3⟩ :=
    byteOf_be32 (b.getD (4 * k) 0) (b.getD (4 * k + 1) 0) (b.getD (4 * k + 2) 0) (b.getD (4 * k + 3) 0)
  have : j % 4 = 0 ∨ j % 4 = 1 ∨ j % 4 = 2 ∨ j % 4 = 3 := by omega
  rcases this with h' | h' | h' | h' <;> rw [h']
  · rw [e0, show 4 * k = j by omega]
  · rw [e1, show 4 * k + 1 = j by omega]
  · rw [e2, show 4 * k + 2 = j by omega]
  · rw [e3, show 4 * k + 3 = j by omega]

/-- What `ldkey` leaves on an IDLE engine (30_encoding.md R91). -/
theorem hostWrites_ldkey {s : State} (b : List Byte) (hb : s.status.busy = false) (hl : b.length ≤ 73) :
    ∃ key, s.hostWrites (ldkeyWrites b) = { s with key := key, keylen := BitVec.ofNat 7 b.length }
      ∧ ∀ j, (h : j < 73) → j < b.length → key[j] = b.getD j 0 := by
  unfold State.hostWrites ldkeyWrites
  rw [List.foldl_append, List.foldl_map]
  obtain ⟨key, e, hkey⟩ := foldl_range
    (fun t k => State.hostWrite (regAt (0x020 + 4 * k))
      (be32 (b.getD (4 * k) 0) (b.getD (4 * k + 1) 0) (b.getD (4 * k + 2) 0) (b.getD (4 * k + 3) 0)) t)
    (fun m t => ∃ key, t = { s with key := key } ∧ ∀ j, (h : j < 73) → j / 4 < m → key[j] = b.getD j 0)
    ((b.length + 3) / 4) s ⟨s.key, rfl, by intro j _ h; omega⟩
    (by
      rintro k t hk ⟨key, rfl, hkey⟩
      rw [hostWrite_keyw (by exact hb) (by omega)]
      refine ⟨setBufferWord key k
        (be32 (b.getD (4 * k) 0) (b.getD (4 * k + 1) 0) (b.getD (4 * k + 2) 0) (b.getD (4 * k + 3) 0)), rfl, ?_⟩
      intro j hj hjk
      rw [setBufferWord_getElem]
      split
      · rename_i h; exact byteOf_wordOf b h
      · exact hkey j hj (by omega))
  refine ⟨key, ?_, fun j h h' => hkey j h (by omega)⟩
  rw [e]
  simp only [List.foldl_cons, List.foldl_nil]
  rw [show regAt 0x010 = .keylen from by decide, hostWrite_idle (by exact hb) (by simp)]
  simp only [State.writeReg]
  congr 1
  apply BitVec.eq_of_toNat_eq
  simp [BitVec.extractLsb'_toNat]

/-- What `ldsalt` leaves on an IDLE engine (30_encoding.md R91). -/
theorem hostWrites_ldsalt {s : State} (b : List Byte) (hb : s.status.busy = false) (hl : b.length = 16) :
    ∃ salt, s.hostWrites (ldsaltWrites b) = { s with salt := salt } ∧ salt.toList = b := by
  unfold State.hostWrites ldsaltWrites
  rw [List.foldl_map]
  obtain ⟨salt, e, hsalt⟩ := foldl_range
    (fun t k => State.hostWrite (regAt (0x070 + 4 * k))
      (be32 (b.getD (4 * k) 0) (b.getD (4 * k + 1) 0) (b.getD (4 * k + 2) 0) (b.getD (4 * k + 3) 0)) t)
    (fun m t => ∃ salt, t = { s with salt := salt } ∧ ∀ j, (h : j < 16) → j / 4 < m → salt[j] = b.getD j 0)
    4 s ⟨s.salt, rfl, by intro j _ h; omega⟩
    (by
      rintro k t hk ⟨salt, rfl, hsalt⟩
      rw [hostWrite_saltw (by exact hb) (by omega)]
      refine ⟨setBufferWord salt k
        (be32 (b.getD (4 * k) 0) (b.getD (4 * k + 1) 0) (b.getD (4 * k + 2) 0) (b.getD (4 * k + 3) 0)), rfl, ?_⟩
      intro j hj hjk
      rw [setBufferWord_getElem]
      split
      · rename_i h; exact byteOf_wordOf b h
      · exact hsalt j hj (by omega))
  refine ⟨salt, e, ?_⟩
  apply List.ext_getElem
  · simp [hl]
  · intro i h1 h2
    have := hsalt i (by omega) (by omega)
    simp [this, h2]

theorem toList_six (v : Vector Word 6) : v.toList = [v.get 0, v.get 1, v.get 2, v.get 3, v.get 4, v.get 5] := by
  rcases v with ⟨⟨l⟩, h⟩
  match l, h with
  | [_, _, _, _, _, _], _ => rfl

theorem hostRead_digest {t : State} (k : Fin 6) {a : Nat} (hb : t.status.busy = false)
    (hu : t.unseen.digest = false) (ha : a = 0x080 + 4 * k.val) :
    t.hostRead a = { t with reads := (a, t.digest.get k) :: t.reads } := by
  rw [hostRead_exact (by rw [regAt_digest k ha]; simp [State.readIsFree, hb, hu]) (by rw [regAt_digest k ha]; simp),
    regAt_digest k ha]
  rfl

/-- The 24 bytes the host reads, once it has seen BUSY = 0, are those of DIGEST, each word big-endian (42_eks_bcrypt.md R157). -/
theorem readDigest_eq {s : State} (hb : s.status.busy = false) (hu : s.unseen.digest = false) : s.readDigest = s.digest.toList.flatMap unbe32 := by
  simp only [State.readDigest, State.hostReads, digestOffsets, List.foldl_cons, List.foldl_nil]
  rw [hostRead_digest 0 (a := 0x080) hb hu rfl, hostRead_digest 1 (a := 0x084) (by exact hb) (by exact hu) rfl,
    hostRead_digest 2 (a := 0x088) (by exact hb) (by exact hu) rfl,
    hostRead_digest 3 (a := 0x08C) (by exact hb) (by exact hu) rfl,
    hostRead_digest 4 (a := 0x090) (by exact hb) (by exact hu) rfl,
    hostRead_digest 5 (a := 0x094) (by exact hb) (by exact hu) rfl]
  simp [toList_six]

end Sys2Proof.Machine
end

