-- ==== Sys2Proof/Laws/PerInstr.lean ====
section
/-! SUPPORT. Statements about every command as syntax, one lemma per constructor of `Instr`. -/

namespace Sys2Proof.Laws.RoundTrip

/-- The command is well formed, its encoding is a well-formed word (30_encoding.md R81 to R83), and decoding its encoding gives
it back (30_encoding.md R82, R85). -/
def Statement (i : Instr) : Prop := i.wf = true ∧ wordWf (encode i) = true ∧ decode (encode i) = .ok i

theorem nop : Statement .nop := by unfold Statement; decide
theorem init : Statement .init := by unfold Statement; decide
theorem enc : Statement .enc := by unfold Statement; decide
theorem expkey (x : Bool) : Statement (.expkey x) := by unfold Statement; revert x; decide
theorem expsalt (x : Bool) : Statement (.expsalt x) := by unfold Statement; revert x; decide
theorem expstate (x : Bool) : Statement (.expstate x) := by unfold Statement; revert x; decide
theorem eks (x : Bool) : Statement (.eks x) := by unfold Statement; revert x; decide
theorem bcrypt (x : Bool) : Statement (.bcrypt x) := by unfold Statement; revert x; decide

end Sys2Proof.Laws.RoundTrip
end

