-- ==== Sys2Proof/Laws/Run.lean ====
section
/-! SUPPORT. A command in flight, run to its end: how many engine steps are left to it, and what it will leave. Each row of
the sequencer takes one from the first and keeps the second (42_eks_bcrypt.md R152, R153; 70_reset_and_hazards.md R258,
R259). -/

namespace Sys2Proof.Machine

/-- `m` iterations of a counted loop, from iteration `n` on. -/
def forFrom {α : Type} (f : Nat → α → α) : Nat → Nat → α → α
  | _, 0, a => a
  | n, m + 1, a => forFrom f (n + 1) m (f n a)

theorem forFrom_forUp {α : Type} (f : Nat → α → α) (m n : Nat) (a : α) :
    forFrom f n m (forUp f n a) = forUp f (n + m) a := by
  induction m generalizing n with
  | zero => rfl
  | succ m ih =>
    rw [forFrom, ← forUp_succ f n a, ih (n + 1)]
    congr 1
    omega

theorem forFrom_zero {α : Type} (f : Nat → α → α) (m : Nat) (a : α) : forFrom f 0 m a = forUp f m a := by
  have := forFrom_forUp f m 0 a
  rwa [Nat.zero_add] at this

/-- The X bit of the command in flight. -/
def State.curX (s : State) : Bool := (s.seq.cur.map Instr.x).getD false

/-- The cipher state `n` iterations of the Eks loop leave. -/
def State.loopFrom (s : State) (n : Nat) (c : Cipher) : Cipher :=
  repeatTimes (Cipher.eksIteration s.saltBytes s.keyBytes s.curX) n c

/-- The cipher state the command leaves once a fill has left `c`. -/
def State.cipherAfterFill (s : State) (c : Cipher) : Cipher :=
  match s.seq.stage with
  | .single => c
  | .state => s.loopFrom (2 ^ s.costNat) c
  | .lk => s.loopFrom (s.seq.iter.toNat - 1) (c.expandKey s.saltBytes false)
  | .ls => s.loopFrom (s.seq.iter.toNat - 1) c

/-- The cipher state the command leaves once a key-XOR has left `c`. -/
def State.cipherAfterKeyXor (s : State) (c : Cipher) : Cipher := s.cipherAfterFill (c.fill s.seq.fillSalt s.saltBytes)

/-- The cipher state the command in flight will leave. -/
def State.finalCipher (s : State) : Cipher :=
  match s.seq.phase with
  | .idle | .enc | .digest | .finish => s.cipher
  | .load => match s.seq.cur with
    | some .init => Cipher.load
    | _ => eksSetup s.costNat s.saltBytes s.keyBytes s.curX
  | .keyxor => s.cipherAfterKeyXor
      (forFrom (keyXorWord (s.sourceBytes s.seq.src) s.seq.sx) s.seq.n (18 - s.seq.n) (s.cipher, s.seq.koff)).1
  | .fill => s.cipherAfterFill
      (forFrom (fillBlock s.seq.fillSalt s.saltBytes) s.seq.n (521 - s.seq.n)
        ⟨s.cipher, s.seq.bl, s.seq.br, s.seq.soff⟩).cipher
  | .loopk => s.loopFrom s.seq.iter.toNat s.cipher
  | .loops => s.loopFrom (s.seq.iter.toNat - 1) (s.cipher.expandKey s.saltBytes false)

/-- The digest the command in flight will leave. -/
def State.finalDigest (s : State) : Vector Word 6 :=
  match s.seq.phase, s.seq.cur with
  | .finish, _ => s.digest
  | .digest, some (.bcrypt _) => repeatTimes s.cipher.digestPass (64 - s.seq.pass) s.seq.c
  | _, some (.bcrypt _) => s.finalCipher.digest
  | _, _ => s.digest

/-- The block the command in flight will leave. -/
def State.finalBlk (s : State) : Word × Word :=
  match s.seq.phase with
  | .enc => s.cipher.encryptBlock (s.blkL, s.blkR)
  | _ => (s.blkL, s.blkR)

/-- The state the command in flight will leave, the hidden working registers apart. -/
def State.outcome (s : State) : State :=
  match s.seq.cur with
  | some i =>
    { s with
      cipher := s.finalCipher
      digest := s.finalDigest
      blkL := s.finalBlk.1
      blkR := s.finalBlk.2
      status := s.status.completed i
      seq := .idleAfter i }
  | none => s

theorem keyXor_forFrom (key : List Byte) (sx : Bool) (c : Cipher) :
    (forFrom (keyXorWord key sx) 0 18 (c, 0)).1 = c.keyXor key sx := by rw [forFrom_zero]; rfl

theorem fill_forFrom (salted : Bool) (salt : List Byte) (c : Cipher) :
    (forFrom (fillBlock salted salt) 0 521 ⟨c, 0#32, 0#32, 0⟩).cipher = c.fill salted salt := by rw [forFrom_zero]; rfl

/-- An unsalted fill does not read the salt. -/
theorem fill_unsalted (salt : List Byte) (c : Cipher) : c.fill false salt = c.fill false [] := by
  have h : fillBlock false salt = fillBlock false [] := by
    funext n r
    simp [fillBlock]
  rw [Cipher.fill, Cipher.fill, h]

theorem toNat_pred {v : BitVec 32} (h : v ≠ 0#32) : (v - 1#32).toNat = v.toNat - 1 := by
  have h1 : v.toNat ≠ 0 := fun he => h (BitVec.eq_of_toNat_eq he)
  have := v.isLt
  rw [BitVec.toNat_sub, BitVec.toNat_ofNat]
  omega

theorem pos_of_ne_zero {v : BitVec 32} (h : v ≠ 0#32) : 1 ≤ v.toNat :=
  Nat.pos_of_ne_zero fun he => h (BitVec.eq_of_toNat_eq he)

theorem iter_toNat {c : Nat} (h : c ≤ 31) : (BitVec.ofNat 32 (2 ^ c)).toNat = 2 ^ c := by
  rw [BitVec.toNat_ofNat, Nat.mod_eq_of_lt]
  exact Nat.pow_lt_pow_right (by decide) (by omega)

/-- One iteration of the Eks loop taken off the front (42_eks_bcrypt.md R151). -/
theorem loopFrom_pos (s : State) (c : Cipher) {n : Nat} (h : 1 ≤ n) :
    s.loopFrom n c = s.loopFrom (n - 1) ((c.expandKey s.keyBytes s.curX).expandKey s.saltBytes false) := by
  obtain ⟨m, rfl⟩ : ∃ m, n = m + 1 := ⟨n - 1, by omega⟩
  rw [State.loopFrom, repeatTimes_succ']
  rfl

/-- COST of an Eks command in flight is at most 31. -/
theorem cost_le {s : State} {i : Instr} (hk : issueCheck i s = none) (hn : needsCost i = true) : s.costNat ≤ 31 :=
  ((issueCheck_eq_none.1 hk).2.2 hn).2

/-- Outside FINISH and DIGEST the digest to come follows from the cipher state to come. -/
theorem finalDigest_congr {s t : State} (hs : s.seq.phase ≠ .finish ∧ s.seq.phase ≠ .digest)
    (ht : t.seq.phase ≠ .finish ∧ t.seq.phase ≠ .digest) (hc : t.seq.cur = s.seq.cur) (hf : t.finalCipher = s.finalCipher)
    (hd : t.digest = s.digest) : t.finalDigest = s.finalDigest := by
  have key : ∀ u : State, u.seq.phase ≠ .finish → u.seq.phase ≠ .digest →
      u.finalDigest = match u.seq.cur with
        | some (.bcrypt _) => u.finalCipher.digest
        | _ => u.digest := by
    intro u h1 h2
    unfold State.finalDigest
    split <;> simp_all
  rw [key s hs.1 hs.2, key t ht.1 ht.2, hc, hf, hd]

/-- The command of a single expansion is no BCRYPT, so its digest to come is the one there is. -/
theorem finalDigest_single {s : State} (h : ∀ x, s.seq.cur ≠ some (.bcrypt x)) : s.finalDigest = s.digest := by
  unfold State.finalDigest
  split <;> simp_all

/-- Every row but FINISH takes one step from those left and keeps what the command will leave. -/
theorem SeqRow.progress {s t : State} (hr : SeqRow s t) (h : s.InFlight) (hb : s.status.busy = true)
    (hf : s.seq.phase ≠ .finish) :
    s.remaining = t.remaining + 1 ∧ t.finalCipher = s.finalCipher ∧ t.finalDigest = s.finalDigest
      ∧ t.finalBlk = s.finalBlk := by
  obtain ⟨i, hc, hk, hp⟩ := h
  have hcur := hr.frame.2.2
  unfold Seq.PhaseOf at hp
  cases hr with
  | idle ph => rw [ph] at hp; exact hp.elim
  | finish j ph _ => exact absurd ph hf
  | loadInit ph hx =>
    simp [State.remaining, State.finalCipher, State.finalDigest, State.finalBlk, hb, ph, hx, State.loadRom]
  | enc ph =>
    rw [ph] at hp
    subst hp
    simp [State.remaining, State.finalCipher, State.finalDigest, State.finalBlk, hb, ph, hc]
  | loadEks x ph hx =>
    have hX : s.curX = x := by rcases hx with hx | hx <;> simp [State.curX, hx, Instr.x]
    have hl : ∀ c : Option Instr, s.seq.cur = c → c ≠ some .init := by
      rintro c rfl
      rcases hx with hx | hx <;> simp [hx]
    have hfc : (s.loadRom.beginExpansion .key x true .state).finalCipher = s.finalCipher := by
      have h1 : s.finalCipher = eksSetup s.costNat s.saltBytes s.keyBytes s.curX := by
        rcases hx with hx | hx <;> simp [State.finalCipher, ph, hx]
      have h2 : (s.loadRom.beginExpansion .key x true .state).finalCipher
          = s.loopFrom (2 ^ s.costNat) (Cipher.load.expandState s.saltBytes s.keyBytes x) := by
        simp only [State.finalCipher, State.beginExpansion, State.cipherAfterKeyXor, Nat.sub_zero, keyXor_forFrom,
          State.cipherAfterFill, State.sourceBytes]
        rfl
      rw [h1, h2]
      simp only [State.loopFrom, eksSetup, hX]
    refine ⟨?_, hfc, finalDigest_congr (by simp [ph]) (by simp) hcur hfc (by simp), by simp [State.finalBlk, ph]⟩
    rcases hx with hx | hx <;>
      simp [State.remaining, hb, ph, hx, stepsAfterFill, State.costNat] <;> omega
  | keyxor ph hn =>
    have hfc : s.keyxorStep.finalCipher = s.finalCipher := by
      have e : 18 - s.seq.n = (18 - (s.seq.n + 1)) + 1 := by omega
      simp only [State.finalCipher, ph]
      rw [e, forFrom]
      simp only [State.keyxorStep, ph]
      rfl
    refine ⟨?_, hfc, finalDigest_congr (by simp [ph]) (by simp [State.keyxorStep, ph]) hcur hfc (by simp), ?_⟩
    · simp [State.remaining, State.keyxorStep, hb, ph, stepsAfterFill, State.costNat]
      omega
    · simp [State.finalBlk, State.keyxorStep, ph]
  | keyxorEnd ph hn =>
    have hfc : s.beginFill.finalCipher = s.finalCipher := by
      simp only [State.finalCipher, ph, State.beginFill, hn, Nat.sub_self, Nat.sub_zero, fill_forFrom]
      rfl
    refine ⟨?_, hfc, finalDigest_congr (by simp [ph]) (by simp [State.beginFill]) hcur hfc (by simp), ?_⟩
    · simp only [State.remaining, State.beginFill, hb, ph, hn, stepsAfterFill, State.costNat, if_true]
      omega
    · simp [State.finalBlk, State.beginFill, ph]
  | fill ph hn =>
    have hfc : s.fillStep.finalCipher = s.finalCipher := by
      have e : 521 - s.seq.n = (521 - (s.seq.n + 1)) + 1 := by omega
      simp only [State.finalCipher, ph]
      rw [e, forFrom]
      simp only [State.fillStep, ph]
      rfl
    refine ⟨?_, hfc, finalDigest_congr (by simp [ph]) (by simp [State.fillStep, ph]) hcur hfc (by simp), ?_⟩
    · simp [State.remaining, State.fillStep, hb, ph, stepsAfterFill, State.costNat]
      omega
    · simp [State.finalBlk, State.fillStep, ph]
  | fillSingle ph hn hg =>
    rw [ph] at hp
    have hs := hp.2.2
    rw [hg] at hs
    have hd : ∀ x, s.seq.cur ≠ some (.bcrypt x) := by
      intro x
      rw [hc]
      obtain ⟨y, rfl | rfl | rfl⟩ := hs <;> simp
    refine ⟨?_, ?_, ?_, by simp [State.finalBlk, ph]⟩
    · simp [State.remaining, hb, ph, hn, stepsAfterFill, hg]
    · simp [State.finalCipher, ph, hn, State.cipherAfterFill, hg, forFrom]
    · rw [finalDigest_single hd, finalDigest_single (by simpa using hd)]
      simp
  | fillState ph hn hg =>
    rw [ph] at hp
    have hs := hp.2.2
    rw [hg] at hs
    have hi := iter_toNat (cost_le hk hs)
    have hfc : State.finalCipher { s with seq := { s.seq with iter := BitVec.ofNat 32 (2 ^ s.costNat), phase := .loopk } }
        = s.finalCipher := by
      simp only [State.finalCipher, ph, hn, Nat.sub_self, forFrom, State.cipherAfterFill, hg, hi]
      rfl
    refine ⟨?_, hfc, finalDigest_congr (by simp [ph]) (by simp) hcur hfc rfl, by simp [State.finalBlk, ph]⟩
    simp only [State.remaining, hb, ph, hn, stepsAfterFill, hg, hi, if_true]
    omega
  | fillKey ph hn hg =>
    have hfc : (s.toPhase .loops).finalCipher = s.finalCipher := by
      simp only [State.finalCipher, State.toPhase, ph, hn, Nat.sub_self, forFrom, State.cipherAfterFill, hg]
      rfl
    refine ⟨?_, hfc, finalDigest_congr (by simp [ph]) (by simp) hcur hfc rfl, by simp [State.finalBlk, ph]⟩
    simp only [State.remaining, State.toPhase, hb, ph, hn, stepsAfterFill, hg, if_true]
    omega
  | fillSalt ph hn hg =>
    rw [ph] at hp
    have hs := hp.2.2
    rw [hg] at hs
    have hi := toNat_pred hs.2
    have hfc : State.finalCipher { s with seq := { s.seq with iter := s.seq.iter - 1#32, phase := .loopk } }
        = s.finalCipher := by
      simp only [State.finalCipher, ph, hn, Nat.sub_self, forFrom, State.cipherAfterFill, hg, hi]
      rfl
    refine ⟨?_, hfc, finalDigest_congr (by simp [ph]) (by simp) hcur hfc rfl, by simp [State.finalBlk, ph]⟩
    simp only [State.remaining, hb, ph, hn, stepsAfterFill, hg, hi, if_true]
    omega
  | loopEnd x ph hx hi =>
    refine ⟨?_, ?_, ?_, by simp [State.finalBlk, ph]⟩
    · simp [State.remaining, hb, ph, hx, hi, stepsOfLoop, stepsAfterLoop]
    · simp [State.finalCipher, ph, hi, State.loopFrom, repeatTimes]
    · rw [finalDigest_single (by simp [hx]), finalDigest_single (by simp [hx])]
      simp
  | loopDigest x ph hx hi =>
    have hfc : s.finalCipher = s.cipher := by simp [State.finalCipher, ph, hi, State.loopFrom, repeatTimes]
    refine ⟨?_, ?_, ?_, by simp [State.finalBlk, State.beginDigest, ph]⟩
    · simp [State.remaining, State.beginDigest, hb, ph, hx, hi, stepsOfLoop, stepsAfterLoop]
    · rw [hfc]
      rfl
    · have h1 : s.finalDigest = s.finalCipher.digest := by simp [State.finalDigest, ph, hx]
      rw [h1, hfc]
      simp only [State.finalDigest, State.beginDigest, hx]
      rfl
  | loopKey x ph hx hi =>
    have hX : s.curX = x := by rcases hx with hx | hx <;> simp [State.curX, hx, Instr.x]
    have hpos := pos_of_ne_zero hi
    have hfc : (s.beginExpansion .key x false .lk).finalCipher = s.finalCipher := by
      have h1 : s.finalCipher = s.loopFrom s.seq.iter.toNat s.cipher := by simp only [State.finalCipher, ph]
      rw [h1, loopFrom_pos s s.cipher hpos, hX]
      simp only [State.finalCipher, State.beginExpansion, State.cipherAfterKeyXor, Nat.sub_zero, keyXor_forFrom,
        State.cipherAfterFill, State.sourceBytes, Cipher.expandKey]
      rw [fill_unsalted]
      rfl
    refine ⟨?_, hfc, finalDigest_congr (by simp [ph]) (by simp) hcur hfc rfl, by simp [State.finalBlk, ph]⟩
    simp only [State.remaining, State.beginExpansion, hb, ph, stepsAfterFill, stepsOfLoop, if_true]
    omega
  | loopSalt ph =>
    have hfc : (s.beginExpansion .salt false false .ls).finalCipher = s.finalCipher := by
      simp only [State.finalCipher, ph, State.beginExpansion, State.cipherAfterKeyXor, Nat.sub_zero, keyXor_forFrom,
        State.cipherAfterFill, State.sourceBytes, Cipher.expandKey]
      rw [fill_unsalted]
      rfl
    refine ⟨?_, hfc, finalDigest_congr (by simp [ph]) (by simp) hcur hfc rfl, by simp [State.finalBlk, ph]⟩
    simp only [State.remaining, State.beginExpansion, hb, ph, stepsAfterFill, if_true]
    omega
  | digest ph hn =>
    rw [ph] at hp
    obtain ⟨_, x, rfl⟩ := hp
    have e : 64 - s.seq.pass = (64 - (s.seq.pass + 1)) + 1 := by omega
    refine ⟨?_, by simp [State.finalCipher, State.digestStep, ph], ?_, by simp [State.finalBlk, State.digestStep, ph]⟩
    · simp only [State.remaining, State.digestStep, hb, ph, if_true]
      omega
    · simp only [State.finalDigest, State.digestStep, ph, hc]
      rw [e, repeatTimes_succ']
  | digestEnd ph hn =>
    rw [ph] at hp
    obtain ⟨_, x, rfl⟩ := hp
    refine ⟨?_, by simp [State.finalCipher, State.endDigest, ph], ?_, by simp [State.finalBlk, State.endDigest, ph]⟩
    · simp [State.remaining, State.endDigest, hb, ph, hn]
    · simp [State.finalDigest, State.endDigest, ph, hc, hn, repeatTimes]

/-- A command in flight has at least one step left. -/
theorem remaining_pos {s : State} (h : s.InFlight) (hb : s.status.busy = true) : 1 ≤ s.remaining := by
  obtain ⟨i, _, _, hp⟩ := h
  unfold Seq.PhaseOf at hp
  cases ph : s.seq.phase with
  | idle => rw [ph] at hp; exact hp.elim
  | load => simp only [State.remaining, hb, ph, if_true]; split <;> omega
  | loopk =>
    simp only [State.remaining, hb, ph, if_true, stepsOfLoop, stepsAfterLoop]
    split <;> omega
  | enc | keyxor | fill | loops | digest | finish => simp only [State.remaining, hb, ph, if_true]; omega

theorem remaining_idle {s : State} (h : s.status.busy = false) : s.remaining = 0 := by simp [State.remaining, h]

/-- What the FINISH row leaves is what was to come. -/
theorem complete_outcome {s : State} {i : Instr} (ph : s.seq.phase = .finish) (hc : s.seq.cur = some i) :
    (s.complete i).hideWork = s.outcome := by
  simp only [State.outcome, hc, State.finalCipher, State.finalDigest, State.finalBlk, ph]
  simp only [State.hideWork, State.complete, Seq.idleAfter, hc]

/-- What is to come follows from the parts a step can change. -/
theorem outcome_congr {s t : State} (ho : s.SameOperands t) (hm : s.SameModel t) (hs : t.status = s.status)
    (hc : t.seq.cur = s.seq.cur) (hn : s.seq.cur ≠ none) (h1 : t.finalCipher = s.finalCipher)
    (h2 : t.finalDigest = s.finalDigest) (h3 : t.finalBlk = s.finalBlk) : t.outcome = s.outcome := by
  obtain ⟨o1, o2, o3, o4⟩ := ho
  obtain ⟨m1, m2, m3, m4, m5⟩ := hm
  unfold State.outcome
  rw [hc]
  split
  · rw [h1, h2, h3, hs, o1, o2, o3, o4, m1, m2, m3, m4, m5]
  · rename_i he
    exact absurd he hn

/-- One engine turn of a command in flight: a step fewer is left, and what is to come stays or has come. -/
theorem engineTurn_progress {s : State} (h : s.InFlight) (hb : s.status.busy = true) :
    ∃ t, engineTurn s = .next t ∧ s.remaining = t.remaining + 1
      ∧ ((t.InFlight ∧ t.status.busy = true ∧ t.outcome = s.outcome)
        ∨ (t.status.busy = false ∧ t.status.done = true ∧ t.seq.phase = .idle ∧ t.hideWork = s.outcome)) := by
  obtain ⟨t, hr⟩ := sequencerStep_next h
  refine ⟨t, engineTurn_row hb hr, ?_⟩
  obtain ⟨hne, hs⟩ | ⟨i, ph, hc, rfl⟩ := hr.status
  · obtain ⟨h0, h1, h2, h3⟩ := hr.progress h hb hne
    obtain ⟨ho, hm, hc⟩ := hr.frame
    have hn : s.seq.cur ≠ none := by
      obtain ⟨i, hi, _⟩ := h
      simp [hi]
    exact ⟨h0, .inl ⟨hr.inFlight h hne, by rw [hs, hb], outcome_congr ho hm hs hc hn h1 h2 h3⟩⟩
  · refine ⟨?_, .inr ⟨rfl, rfl, rfl, complete_outcome ph hc⟩⟩
    rw [remaining_idle (s := s.complete i) rfl]
    simp [State.remaining, hb, ph]

/-- A command in flight, run through all the steps left to it (42_eks_bcrypt.md R152). -/
theorem engineTurns_remaining {s : State} (h : s.InFlight) (hb : s.status.busy = true) :
    ∃ t, engineTurns s.remaining s = .next t ∧ t.status.busy = false ∧ t.status.done = true ∧ t.seq.phase = .idle
      ∧ t.hideWork = s.outcome := by
  obtain ⟨n, hn⟩ : ∃ n, s.remaining = n := ⟨_, rfl⟩
  rw [hn]
  induction n generalizing s with
  | zero => have := remaining_pos h hb; omega
  | succ n ih =>
    obtain ⟨t, he, hr, ⟨hi, hbt, ho⟩ | ⟨hbt, hd, hp, ho⟩⟩ := engineTurn_progress h hb
    · obtain ⟨u, h1, h2, h3, h4, h5⟩ := ih hi hbt (by omega)
      exact ⟨u, by rw [engineTurns_succ he, h1], h2, h3, h4, by rw [h5, ho]⟩
    · refine ⟨t, ?_, hbt, hd, hp, ho⟩
      rw [engineTurns_succ he, engineTurns_idle _ hbt]

/-- Before that many turns it is still in flight. -/
theorem engineTurns_before {s : State} (h : s.InFlight) {k : Nat} (hk : k < s.remaining) :
    ∃ t, engineTurns k s = .next t ∧ t.status.busy = true ∧ t.InFlight ∧ t.remaining = s.remaining - k
      ∧ t.outcome = s.outcome := by
  have hb : s.status.busy = true := by
    cases hx : s.status.busy with
    | true => rfl
    | false => rw [remaining_idle hx] at hk; omega
  induction k generalizing s with
  | zero => exact ⟨s, rfl, hb, h, rfl, rfl⟩
  | succ k ih =>
    obtain ⟨t, he, hr, ⟨hi, hbt, ho⟩ | ⟨hbt, _⟩⟩ := engineTurn_progress h hb
    · obtain ⟨u, h1, h2, h3, h4, h5⟩ := ih hi (by omega) hbt
      exact ⟨u, by rw [engineTurns_succ he, h1], h2, h3, by omega, by rw [h5, ho]⟩
    · rw [remaining_idle hbt] at hr
      omega

/-- The steps of an accepted command (70_reset_and_hazards.md R259). -/
theorem accept_remaining (i : Instr) (s : State) : (s.accept i).remaining = sequencerSteps i s.cost.toNat := by
  cases i <;>
    simp [State.remaining, State.accept, startPhase, sequencerSteps, stepsAfterFill, stepsOfLoop, stepsAfterLoop,
      State.costNat] <;> omega

/-- What an accepted command will leave in P and S is its effect on them (42_eks_bcrypt.md R152, R153). -/
theorem accept_finalCipher (i : Instr) (s : State) : (s.accept i).finalCipher = (effectOf i s).cipher := by
  cases i with
  | nop => rfl
  | init => rfl
  | enc => rfl
  | expkey x =>
    simp only [State.finalCipher, State.accept, startPhase, State.beginExpansion, State.cipherAfterKeyXor, Nat.sub_zero,
      keyXor_forFrom, State.cipherAfterFill, State.sourceBytes, effectOf, State.expandWithKey_cipher, Cipher.expandKey]
    rw [fill_unsalted]
    rfl
  | expsalt x =>
    simp only [State.finalCipher, State.accept, startPhase, State.beginExpansion, State.cipherAfterKeyXor, Nat.sub_zero,
      keyXor_forFrom, State.cipherAfterFill, State.sourceBytes, effectOf, State.expandWithSalt_cipher, Cipher.expandKey]
    rw [fill_unsalted]
    rfl
  | expstate x =>
    simp only [State.finalCipher, State.accept, startPhase, State.beginExpansion, State.cipherAfterKeyXor, Nat.sub_zero,
      keyXor_forFrom, State.cipherAfterFill, State.sourceBytes, effectOf, State.expandWithBoth_cipher,
      Cipher.expandState]
    rfl
  | eks x =>
    simp only [effectOf, State.runEks_cipher]
    rfl
  | bcrypt x =>
    simp only [effectOf, State.runBcrypt_cipher]
    rfl

theorem accept_finalDigest (i : Instr) (s : State) : (s.accept i).finalDigest = (effectOf i s).digest := by
  cases i with
  | bcrypt x =>
    have h : (s.accept (.bcrypt x)).finalDigest = (s.accept (.bcrypt x)).finalCipher.digest := rfl
    rw [h, accept_finalCipher]
    simp only [effectOf, State.runBcrypt_cipher, State.runBcrypt_digest]
  | _ =>
    rw [finalDigest_single (by simp), State.accept_digest]
    simp [effectOf]

theorem accept_finalBlk (i : Instr) (s : State) :
    (s.accept i).finalBlk = ((effectOf i s).blkL, (effectOf i s).blkR) := by
  cases i <;> simp [State.finalBlk, State.accept, startPhase, State.beginExpansion, State.toPhase, effectOf,
    State.encryptBlk]

/-- What an accepted command will leave is its effect (00_scope.md R14). -/
theorem accept_outcome (i : Instr) (s : State) :
    (s.clearRecord.accept i).outcome
      = { effectOf i s with
          status := .doneWith (s.status.init || setsInit i), seq := .idleAfter i, unseen := s.unseen.after i } := by
  obtain ⟨h1, h2, h3, h4⟩ := effectOf_congr i (s := s) (t := s.clearRecord) (by simp [State.SameData])
  unfold State.outcome
  rw [State.accept_cur, accept_finalCipher, accept_finalDigest, accept_finalBlk, h1, h2, h3, h4]
  simp [Status.doneWith, Status.completed, Status.accepted, Status.cleared]

end Sys2Proof.Machine
end

