-- ==== Sys2Proof/Laws/Step.lean ====
section
/-! SUPPORT. What one step of the machine can do, input by input (00_scope.md R6, 44_host_protocol.md R180), said once. -/

namespace Sys2Proof.Machine

/-- Everything a step that answers a next state can do. -/
theorem step_cases {s t : State} (h : step s = .next t) :
    (s.inputs = [] ∧ engineTurn s = .next t)
      ∨ (∃ a rest, s.inputs = .access a :: rest ∧ hostAccess a { s with inputs := rest } = .next t)
      ∨ (∃ rest, s.inputs = .reset :: rest ∧ t = State.applyReset { s with inputs := rest })
      ∨ (∃ rest, s.inputs = .engine :: rest ∧ engineTurn { s with inputs := rest } = .next t)
      ∨ (∃ w i rest, s.inputs = .run w :: rest ∧ decode w = .ok i ∧ exec i { s with inputs := rest } = .next t)
      ∨ (∃ w r rest, s.inputs = .run w :: rest ∧ decode w = .error r ∧ t = issueIllegal r { s with inputs := rest }) := by
  unfold step at h
  split at h
  case h_1 e => exact .inl ⟨e, h⟩
  case h_2 inp rest e =>
    right
    cases inp with
    | access a => exact .inl ⟨a, rest, e, h⟩
    | reset => injection h with h; exact .inr (.inl ⟨rest, e, h.symm⟩)
    | engine => exact .inr (.inr (.inl ⟨rest, e, h⟩))
    | run w =>
      right; right; right
      simp only [takeInput, runWord] at h
      split at h
      case h_1 i hd => exact .inl ⟨w, i, rest, e, hd, h⟩
      case h_2 r hd => injection h with h; exact .inr ⟨w, r, rest, e, hd, h.symm⟩

theorem issueIllegal_idle {r : Reject} {s : State} (h : s.status.busy = false) :
    issueIllegal r s = s.clearRecord.reject r := by simp [issueIllegal, h]

theorem issueIllegal_busy {r : Reject} {s : State} (h : s.status.busy = true) : issueIllegal r s = s.dropWrite := by
  simp [issueIllegal, h]

theorem runWord_ok {w : Word} {i : Instr} (s : State) (h : decode w = .ok i) : runWord w s = exec i s := by
  simp only [runWord, h]

/-- A word that decoding refuses, run on an IDLE engine (60_exceptions.md R223, R224, R229). -/
theorem runWord_error {w : Word} {s : State} {r : Reject} (hd : decode w = .error r) (h : s.status.busy = false) :
    runWord w s = .next { s with status := .rejectedWith (rejectCode r) s.status.init } := by
  simp only [runWord, hd, issueIllegal_idle h, reject_eq r h]

/-- An issue does not change STATUS.INIT (60_exceptions.md R229, 42_eks_bcrypt.md R152). -/
theorem issueWord_init (w : Word) (s : State) : (s.issueWord w).status.init = s.status.init := by
  obtain ⟨i, _, e⟩ | ⟨r, _, e⟩ := issueWord_cases w s
  · rw [e]
    obtain ⟨_, e⟩ | ⟨r, _, _, e⟩ | ⟨_, e⟩ := issueCommand_cases i id s <;> rw [e] <;> simp
  · rw [e]
    unfold issueIllegal
    split <;> simp

/-- An issue writes STATUS and the sequencer only. -/
theorem issueWord_frame (w : Word) (s : State) :
    s.SameData (s.issueWord w) ∧ (s.issueWord w).inputs = s.inputs ∧ (s.issueWord w).reads = s.reads
      ∧ (s.issueWord w).draws = s.draws := by
  obtain ⟨i, _, e⟩ | ⟨r, _, e⟩ := issueWord_cases w s
  · rw [e]
    obtain ⟨_, e⟩ | ⟨r, _, _, e⟩ | ⟨_, e⟩ := issueCommand_cases i id s <;> rw [e] <;> simp [State.SameData]
  · rw [e]
    unfold issueIllegal
    split <;> simp [State.SameData]

/-- A host access changes INIT never, and the inputs to come never. -/
theorem hostAccess_init {acc : Access} {s t : State} (h : hostAccess acc s = .next t) :
    t.status.init = s.status.init ∧ t.inputs = s.inputs := by
  obtain ⟨a, _, _, _, rfl⟩ | ⟨a, v, _, _, _, ⟨_, rfl | rfl⟩ | ⟨_, _, rfl⟩ | ⟨_, _, rfl⟩⟩ := hostAccess_cases h
  · simp
  · simp
  · exact ⟨rfl, rfl⟩
  · simp
  · exact ⟨issueWord_init v s, (issueWord_frame v s).2.1⟩

/-- A host access while a command is in flight leaves it in flight, with the same steps left and the same outcome, but for
what the access itself leaves (20_memory.md R70). -/
theorem hostAccess_inFlight {a : Access} {s t : State} (h : s.InFlight) (hb : s.status.busy = true)
    (he : hostAccess a s = .next t) :
    t.InFlight ∧ t.status.busy = true ∧ t.remaining = s.remaining ∧ t.outcome.hideHost = s.outcome.hideHost := by
  obtain ⟨i, hc, hk, hp⟩ := h
  obtain ⟨a, _, _, _, rfl⟩ | ⟨a, v, _, _, _, ⟨_, rfl | rfl⟩ | ⟨hb', _, rfl⟩ | ⟨hb', _, rfl⟩⟩ := hostAccess_cases he
  · refine ⟨⟨i, hc, hk, hp⟩, hb, rfl, ?_⟩
    simp only [State.outcome, State.hostRead_seq, hc, State.hideHost, State.hostRead_unseen, unseenAfterRead_busy hb]
    rfl
  · refine ⟨⟨i, hc, hk, hp⟩, hb, rfl, ?_⟩
    simp only [State.outcome, State.dropWrite_seq, hc, State.hideHost]
    rfl
  · exact ⟨⟨i, hc, hk, hp⟩, hb, rfl, rfl⟩
  · rw [hb] at hb'; contradiction
  · rw [hb] at hb'; contradiction

/-- The inputs to come play no part in a command in flight. -/
theorem State.InFlight.setInputs {s : State} (h : s.InFlight) (l : List Input) :
    State.InFlight { s with inputs := l } ∧ (State.outcome { s with inputs := l }).hideHost = s.outcome.hideHost := by
  obtain ⟨i, hc, hk, hp⟩ := h
  refine ⟨⟨i, hc, hk, hp⟩, ?_⟩
  simp only [State.outcome, hc, State.hideHost]
  rfl

theorem engineTurn_inputs {s t : State} (h : engineTurn s = .next t) : t.inputs = s.inputs := by
  obtain ⟨_, rfl⟩ | ⟨_, hr⟩ := engineTurn_cases h
  · rfl
  · exact hr.frame.2.1.2.1

/-- The engine's own steps make no result seen (70_reset_and_hazards.md R255). -/
theorem engineTurn_unseen {s t : State} (h : engineTurn s = .next t) : t.unseen = s.unseen := by
  obtain ⟨_, rfl⟩ | ⟨_, hr⟩ := engineTurn_cases h
  · rfl
  · exact hr.frame.2.1.2.2.2.2

/-- Steps taken one after another. -/
theorem runSteps_add {m n : Nat} {s t : State} (h : runSteps m s = .next t) : runSteps (m + n) s = runSteps n t := by
  induction m generalizing s with
  | zero =>
    injection h with h
    subst h
    rw [Nat.zero_add]
  | succ m ih =>
    rw [runSteps] at h
    rw [Nat.succ_add, runSteps]
    cases hs : step s with
    | next u => rw [hs] at h; exact ih h
    | fault => rw [hs] at h; contradiction
    | refused => rw [hs] at h; contradiction

/-- Commands issued one after another. -/
theorem runCommands_append {a b : List Instr} {s t : State} (h : runCommands a s = .next t) :
    runCommands (a ++ b) s = runCommands b t := by
  induction a generalizing s with
  | nil =>
    injection h with h
    subst h
    rfl
  | cons i a ih =>
    rw [runCommands, exec_eq] at h
    rw [List.cons_append, runCommands, exec_eq]
    exact ih h

end Sys2Proof.Machine
end

