-- ==== Sys2Proof/Tests/Slice0.lean ====
section
/-! SUPPORT. Tests: decoding of words written out from 30_encoding.md R81 and R82, smoke tests of the well-formedness checks,
single steps whose expected values stand in the spec, and a witness for the hypotheses of each statement. -/

namespace Sys2Proof.Tests

open Sys2Proof.Machine

/-! ## Decoding (30_encoding.md R81, R82): RSV, X and OP written out bit by bit -/

theorem test_decode_nop : decode 0b00000000000000000000000_0_00000000#32 = .ok .nop := by decide
theorem test_decode_init : decode 0b00000000000000000000000_0_00000001#32 = .ok .init := by decide
theorem test_decode_enc : decode 0b00000000000000000000000_0_00000010#32 = .ok .enc := by decide
theorem test_decode_expkey : decode 0b00000000000000000000000_0_00000011#32 = .ok (.expkey false) := by decide
theorem test_decode_expkey_x : decode 0b00000000000000000000000_1_00000011#32 = .ok (.expkey true) := by decide
theorem test_decode_expsalt : decode 0b00000000000000000000000_1_00000100#32 = .ok (.expsalt true) := by decide
theorem test_decode_expstate : decode 0b00000000000000000000000_1_00000101#32 = .ok (.expstate true) := by decide
theorem test_decode_eks : decode 0b00000000000000000000000_1_00000110#32 = .ok (.eks true) := by decide
theorem test_decode_bcrypt : decode 0b00000000000000000000000_1_00000111#32 = .ok (.bcrypt true) := by decide
theorem test_decode_nop_x : decode 0b00000000000000000000000_1_00000000#32 = .error .reservedBits := by decide
theorem test_decode_rsv_low : decode 0b00000000000000000000001_0_00000111#32 = .error .reservedBits := by decide
theorem test_decode_rsv_high : decode 0b10000000000000000000000_0_00000001#32 = .error .reservedBits := by decide
theorem test_decode_illegal : decode 0b00000000000000000000000_0_00001000#32 = .error .illegalOpcode := by decide
theorem test_decode_table_word : decodeTableWord 32 0x107 = some (.bcrypt true) := by decide
theorem test_decode_table_word_illegal : decodeTableWord 32 0x100 = none := by decide
/-- A table number of more than 32 bits is no command; a shorter one has zeros above (30_encoding.md R80). -/
theorem test_decode_table_word_wide : decodeTableWord 40 0x100000003 = none ∧ decodeTableWord 8 0x103 = some (.expkey false) := by
  decide

/-! ## Well-formedness: an ill-formed term for each check -/

theorem test_wf_opcode : opAssigned 0x00000008#32 = false ∧ wordWf 0x00000008#32 = false := by decide
theorem test_wf_reserved : reservedZero 0x00000207#32 = false ∧ wordWf 0x00000207#32 = false := by decide
theorem test_wf_x : xAllowed 0x00000102#32 = false ∧ wordWf 0x00000102#32 = false := by decide
theorem test_wf_accepts : wordWf 0x00000107#32 = true := by decide
theorem test_wf_width : accessWidthOk 2 = false ∧ accessWf 0x008 2 = false := by decide
theorem test_wf_alignment : accessAligned 0x009 = false ∧ accessWf 0x009 4 = false := by decide
theorem test_wf_window : accessInWindow 0x2000 = false ∧ accessWf 0x2000 4 = false := by decide
theorem test_wf_access : accessWf 0x1FFC 4 = true := by decide

/-! ## States for the tests -/

/-- The salt of 42_eks_bcrypt.md R160. -/
def saltR160 : Vector Byte 16 :=
  #v[0xD5#8, 0x72#8, 0x68#8, 0x31#8, 0x2B#8, 0xC8#8, 0x21#8, 0x2A#8, 0x9D#8, 0x01#8, 0xD0#8, 0x4F#8, 0x7B#8, 0xD9#8, 0xFF#8,
    0x3D#8]

/-- The state after reset and INIT, with KEYLEN, COST and SALT loaded; KEY is all 00. -/
def loaded (keylen cost : Nat) : State :=
  { State.reset with
    cipher := Cipher.load
    status := .doneWith true
    keylen := BitVec.ofNat 7 keylen
    cost := BitVec.ofNat 8 cost
    salt := saltR160 }

/-- `loaded` with the key 61 62 63 00 (41_key_schedule.md R131). -/
def loadedAbc : State :=
  { loaded 4 4 with key := (((Vector.replicate 73 0#8).set 0 0x61#8).set 1 0x62#8).set 2 0x63#8 }

/-- A state with a command in flight. -/
def flying (i : Instr) : State := (loaded 1 4).clearRecord.accept i

/-- A property of the next state of an outcome, false of a fault or a refusal. -/
def onNext (o : Host.Outcome State Fault Refusal) (p : State → Bool) : Bool :=
  match o with
  | .next s => p s
  | .fault _ => false
  | .refused _ => false

/-! ## Single steps, with expected values from the spec -/

/-- 40_blowfish.md R106, the example. -/
theorem test_nop_acknowledges : onNext (exec .nop { State.reset with status := .rejectedWith 5#4 true })
    (fun t => t.status.word == 0x0000000A#32) = true := by decide
/-- 40_blowfish.md R107, the example. -/
theorem test_init_loads : onNext (exec .init State.reset)
    (fun t => t.status.word == 0x0000000A#32 && t.regValue (.p 0) == 0x243F6A88#32 && t.regValue (.s 3 255) == 0x3AC372E6#32)
      = true := by decide +kernel
/-- 40_blowfish.md R108, the example. -/
theorem test_enc_zero_block : onNext (exec .enc (loaded 0 0))
    (fun t => t.blkL == 0x706D9FCC#32 && t.blkR == 0x1792D23A#32) = true := by decide +kernel
/-- 60_exceptions.md R225: ENCRYPT from reset. -/
theorem test_enc_not_initialised : onNext (exec .enc State.reset) (fun t => t.status.word == 0x00000034#32) = true := by decide
/-- 41_key_schedule.md R131: P[0] after EXPKEY with key 61 62 63 00, which the first block of the fill writes. -/
theorem test_expkey_first_block :
    onNext (engineTurns 20 (loadedAbc.accept (.expkey false))) (fun t => t.cipher.pAt 0 == 0x12D0F5B1#32) = true := by
  decide +kernel
/-- 60_exceptions.md R226: EXPKEY with KEYLEN = 0, on an initialised engine. -/
theorem test_expkey_keylen : onNext (exec (.expkey false) (loaded 0 4)) (fun t => t.status.word == 0x0000004C#32) = true := by
  decide
/-- 41_key_schedule.md R132: P[0] after EXPSALT. -/
theorem test_expsalt_first_block :
    onNext (engineTurns 20 ((loaded 0 0).accept (.expsalt false))) (fun t => t.cipher.pAt 0 == 0x2FA1452F#32) = true := by
  decide +kernel
/-- 41_key_schedule.md R132: KEYLEN is not checked, so EXPSALT with KEYLEN = 0 goes in flight. -/
theorem test_expsalt_ignores_keylen :
    onNext (hostAccess (.write 0x004 4 0x00000104#32) (loaded 0 0)) (fun t => t.status.word == 0x00000009#32) = true := by decide
/-- 41_key_schedule.md R133: P[0] and P[1] after EXPSTATE with the key 00. -/
theorem test_expstate_first_block :
    onNext (engineTurns 20 ((loaded 1 0).accept (.expstate false)))
      (fun t => t.cipher.pAt 0 == 0x1D8A7BFE#32 && t.cipher.pAt 1 == 0x0ABD78B0#32) = true := by decide +kernel
/-- 60_exceptions.md R225 before R226: EXPSTATE from reset, with KEYLEN = 0. -/
theorem test_expstate_priority : onNext (exec (.expstate true) State.reset) (fun t => t.status.word == 0x00000034#32) = true := by
  decide
/-- 42_eks_bcrypt.md R151, step 2: EKS from reset expands as EXPSTATE after INIT does (41_key_schedule.md R133). -/
theorem test_eks_first_block :
    onNext (engineTurns 21 ({ State.reset with keylen := 1#7, cost := 4#8, salt := saltR160 }.accept (.eks false)))
      (fun t => t.cipher.pAt 0 == 0x1D8A7BFE#32 && t.cipher.pAt 1 == 0x0ABD78B0#32) = true := by decide +kernel
/-- 60_exceptions.md R227: COST = 32 rejects. -/
theorem test_eks_cost : onNext (exec (.eks false) (loaded 73 32)) (fun t => t.status.word == 0x0000005C#32) = true := by decide
/-- 60_exceptions.md R228: BCRYPT with KEYLEN = 0 and COST = 0 reports 4. -/
theorem test_bcrypt_priority : onNext (exec (.bcrypt true) (loaded 0 0)) (fun t => t.status.word == 0x0000004C#32) = true := by
  decide
/-- 60_exceptions.md R226, R227: KEYLEN = 73 and COST = 31 are accepted. -/
theorem test_bcrypt_accepts :
    onNext (hostAccess (.write 0x004 4 0x00000107#32) (loaded 73 31)) (fun t => t.status.word == 0x00000009#32) = true := by decide

/-- 20_memory.md R65: a write of KEYW[0] and of KEYW[18], whose low bits do not exist. -/
theorem test_keyw_write :
    onNext (andThen (hostAccess (.write 0x020 4 0x61626300#32) State.reset) (hostAccess (.write 0x068 4 0xAABBCCDD#32)))
      (fun t => t.key.toList.take 4 == [0x61#8, 0x62#8, 0x63#8, 0x00#8] && t.regValue (.keyw 18) == 0xAA000000#32)
      = true := by decide
/-- 95_test_vectors.md section 3.11: a write while BUSY is dropped, and DROP is seen. -/
theorem test_busy_write : onNext (hostAccess (.write 0x00C 4 9#32) (flying .nop))
    (fun t => t.cost == 4#8 && t.status.word == 0x00000109#32 && t.dropMark) = true := by decide
/-- 20_memory.md R62, R60. -/
theorem test_refusals :
    hostAccess (.read 0x008 2) State.reset = .refused .accessWidth
      ∧ hostAccess (.write 0x00A 4 0#32) State.reset = .refused .accessMisaligned
      ∧ hostAccess (.read 0x2000 4) State.reset = .refused .accessOutsideWindow := ⟨rfl, rfl, rfl⟩
/-- 70_reset_and_hazards.md R252. -/
theorem test_reset_in_flight : onNext (step { flying (.bcrypt false) with inputs := [.reset] })
    (fun t => t.status.word == 0#32 && t.cost == 0#8 && t.keylen == 0#7 && decide (t.seq.phase = .idle)) = true := by decide
/-- 30_encoding.md R89: `.x` on `bf.nop` is an assembly error. -/
theorem test_assemble : assemble "bf.eks.x".toList = some 0x00000106#32 ∧ assemble "bf.nop.x".toList = none := by decide
/-- 30_encoding.md R90: the examples of register names. -/
theorem test_register_names : regName (.keyw 3) = some "KEYW3".toList ∧ regName (.p 5) = some "P5".toList
    ∧ regName (.s 2 17) = some "S2_17".toList := by decide
/-- 44_host_protocol.md R196: the digest part of the first vector of 95_test_vectors.md section 1, from R161's digest words. -/
theorem test_radix64 : Radix64.encode
    ([0xF969ED69#32, 0xE636EC79#32, 0x30125054#32, 0xCEE1D005#32, 0xBBE43FF0#32, 0x283F5DE8#32].flatMap unbe32 |>.take 23)
      = "8UlrYcW05FiuCj/SxsFO/ZtiN9.mNzy".toList := by decide +kernel

/-! ## Witnesses: states and operands that meet the hypotheses of each statement, at the ends of their ranges -/

theorem test_loaded_accepts_low (i : Instr) : (loaded 1 4).Accepts i := by
  refine ⟨rfl, fun _ => rfl, fun _ => ?_, fun _ => ?_⟩ <;> decide

theorem test_loaded_accepts_high (i : Instr) : (loaded 73 31).Accepts i := by
  refine ⟨rfl, fun _ => rfl, fun _ => ?_, fun _ => ?_⟩ <;> decide

/-- The invariant holds of an initialised IDLE engine and of one with any command in flight. -/
theorem test_loaded_inv : (loaded 1 4).Inv where
  status := by unfold Status.Legal; decide
  ranges := by unfold Seq.InRange; decide
  busy h := by contradiction
  idle _ := rfl
  mark h := by contradiction

theorem test_flying_inv (i : Instr) : (flying i).Inv ∧ (flying i).status.busy = true :=
  ⟨accept_inv test_loaded_inv (test_loaded_accepts_low i), by simp [flying]⟩

theorem test_witness_IllegalAndReservedWordsReject :
    State.reset.status.busy = false ∧ (∀ w ∈ [0x00000008#32, 0x000000FF#32, 0x00000408#32], 0x08 ≤ w.toNat % 256)
      ∧ (∀ w ∈ [0x00000100#32, 0x00000102#32, 0x00000200#32, 0x00000407#32], w.toNat % 256 ≤ 0x07
        ∧ (w.toNat / 512 ≠ 0 ∨ (w.toNat / 256 % 2 = 1 ∧ w.toNat % 256 ≤ 0x02))) :=
  ⟨rfl, by simp, by simp⟩

theorem test_witness_RejectionReportsTheFirstCondition : (loaded 1 4).status.busy = false := rfl

theorem test_witness_RejectionChangesStatusOnly :
    State.reset.status.busy = false
      ∧ rejectionCode 0x08 false 0 0 = 1 ∧ rejectionCode 0x200 true 1 4 = 2 ∧ rejectionCode 0x02 false 0 0 = 3
      ∧ rejectionCode 0x03 true 0 4 = 4 ∧ rejectionCode 0x05 true 74 4 = 4 ∧ rejectionCode 0x06 true 73 3 = 5
      ∧ rejectionCode 0x07 true 1 32 = 5 ∧ rejectionCode 0x07 true 1 4 = 0 ∧ rejectionCode 0x07 true 73 31 = 0 := by decide

theorem test_witness_AcceptedCommandGoesInFlight (i : Instr) : (loaded 1 4).Accepts i ∧ (loaded 73 31).Accepts i :=
  ⟨test_loaded_accepts_low i, test_loaded_accepts_high i⟩

theorem test_witness_NopChangesStatusOnly :
    State.reset.status.busy = false
      ∧ (∀ w ∈ [0x00000100#32, 0x00000200#32, 0x00000400#32], w.toNat % 256 = 0
        ∧ (w.toNat / 512 ≠ 0 ∨ w.toNat / 256 % 2 = 1))
      ∧ ({ State.reset with status := .rejectedWith 5#4 false } : State).status = .rejectedWith 5#4 false
      ∧ ({ State.reset with status := .rejectedWith 5#4 true } : State).status = .rejectedWith 5#4 true :=
  ⟨rfl, by simp, rfl, rfl⟩

theorem test_witness_InitLoadsTheRom :
    State.reset.status.busy = false
      ∧ (∀ w ∈ [0x00000101#32, 0x00000201#32, 0x00000401#32], w.toNat % 256 = 1
        ∧ (w.toNat / 512 ≠ 0 ∨ w.toNat / 256 % 2 = 1)) := ⟨rfl, by simp⟩

theorem test_witness_EncryptReplacesTheBlock :
    ((loaded 0 0).status.busy = false ∧ (loaded 0 0).status.init = true ∧ (loaded 0 0).cipher = ⟨pInit, sInit⟩
        ∧ (loaded 0 0).blkL = 0x00000000#32 ∧ (loaded 0 0).blkR = 0x00000000#32)
      ∧ (State.reset.status.busy = false ∧ State.reset.status.init = false)
      ∧ (∀ w ∈ [0x00000102#32, 0x00000202#32, 0x00000402#32], w.toNat % 256 = 2
        ∧ (w.toNat / 512 ≠ 0 ∨ w.toNat / 256 % 2 = 1)) :=
  ⟨⟨rfl, rfl, rfl, rfl, rfl⟩, ⟨rfl, rfl⟩, by simp⟩

/-- The hypotheses of the statements of EXPKEY, EXPSALT and EXPSTATE, at both ends of KEYLEN. -/
theorem test_witness_ExpansionStatements :
    ∀ k ∈ [1, 73], (loaded k 0).status.busy = false ∧ (loaded k 0).status.init = true ∧ 1 ≤ (loaded k 0).keylen.toNat
      ∧ (loaded k 0).keylen.toNat ≤ 73 := by decide

/-- The hypotheses of the statements of EKS and BCRYPT and of EksIsAProgramOfPrimitives, at the ends of KEYLEN and COST. -/
theorem test_witness_EksStatements :
    ∀ k ∈ [1, 73], ∀ c ∈ [4, 31], (loaded k c).status.busy = false ∧ 1 ≤ (loaded k c).keylen.toNat
      ∧ (loaded k c).keylen.toNat ≤ 73 ∧ 4 ≤ (loaded k c).cost.toNat ∧ (loaded k c).cost.toNat ≤ 31 := by decide

/-- One command of each kind the clauses tell apart: completed, rejected, dropped. -/
theorem test_witness_CommandsLeaveOtherRegisters :
    (∃ t, exec .nop (loaded 1 4) = .next t) ∧ (∃ t, exec .enc State.reset = .next t)
      ∧ (∃ t, exec (.bcrypt true) (flying .init) = .next t) ∧ Instr.nop ≠ .enc ∧ (∀ x, Instr.nop ≠ .bcrypt x) :=
  ⟨⟨_, exec_eq _ _⟩, ⟨_, exec_eq _ _⟩, ⟨_, exec_eq _ _⟩, by decide, by simp⟩

theorem test_witness_StepRunsTheIssuedCommand :
    decode 0x00000003#32 = .ok (.expkey false) ∧ decode 0x00000008#32 = .error .illegalOpcode
      ∧ decodeTableWord 32 0x107 = some (.bcrypt true)
      ∧ State.reset.status.busy = false ∧ State.reset.inputs = [] := by decide

theorem test_witness_ResetStateHoldsTheResetValues :
    needsInit .enc = true ∧ needsInit (.expkey true) = true ∧ needsInit (.expsalt true) = true
      ∧ needsInit (.expstate true) = true := by decide

theorem test_witness_EveryStepKeepsTheInvariant : (flying .init).Inv ∧ ∃ t, step (flying .init) = .next t :=
  ⟨(test_flying_inv .init).1, _, rfl⟩

theorem test_witness_NothingFailsUnderTheInvariant : (flying (.bcrypt true)).Inv := (test_flying_inv _).1

theorem test_witness_InitBitIsSetByLoadsAndClearedByReset :
    (∃ t, step (loaded 1 4) = .next t ∧ (loaded 1 4).status.init = true ∧ (loaded 1 4).inputs.head? ≠ some .reset)
      ∧ (∃ t, step (State.reset.placeCommand 0x00000001#32) = .next t ∧ State.reset.status.init = false
        ∧ t.status.init = true)
      ∧ (∀ x, (loaded 1 4).Accepts .init ∧ (loaded 1 4).Accepts (.eks x) ∧ (loaded 73 31).Accepts (.bcrypt x))
      ∧ (∃ t, engineTurn ((flying .init).toPhase .finish) = .next t ∧ (flying .init).status.busy = true
        ∧ (flying .init).seq.cur = some .init ∧ t.status.busy = false) :=
  ⟨⟨_, rfl, rfl, by decide⟩, ⟨_, exec_eq .init State.reset, rfl, by decide⟩,
    fun _ => ⟨test_loaded_accepts_low _, test_loaded_accepts_low _, test_loaded_accepts_high _⟩, ⟨_, rfl, rfl, rfl, rfl⟩⟩

theorem test_witness_ResetAbandonsTheCommandInFlight :
    ∃ u, step { flying .init with inputs := [.reset] } = .next u ∧ (flying .init).status.busy = true
      ∧ u.status.busy = false ∧ u.status.done = false := ⟨_, rfl, rfl, rfl, rfl⟩

theorem test_witness_BusyAndDoneFollowTheCommand :
    (∃ t, step { loaded 1 4 with inputs := [.access (.write 0x004 4 1#32)] } = .next t ∧ t.status.busy = true)
      ∧ (∃ t, step (flying .nop) = .next t ∧ (flying .nop).status.busy = true ∧ t.status.busy = false
        ∧ (flying .nop).status.done = false ∧ t.status.done = true)
      ∧ (∃ t, step { flying .nop with inputs := [.reset] } = .next t ∧ t.status.busy = false)
      ∧ (∃ t, step (State.reset.placeCommand 0#32) = .next t ∧ State.reset.status.done = false ∧ t.status.done = true)
      ∧ (∃ t, step ((loaded 1 4).placeCommand 8#32) = .next t ∧ (loaded 1 4).status.done = true ∧ t.status.done = false)
      ∧ (∃ t, step { loaded 1 4 with inputs := [.access (.write 0x004 4 8#32)] } = .next t ∧ t.status.done = false)
      ∧ (∃ t, step { loaded 1 4 with inputs := [.reset] } = .next t ∧ t.status.done = false) :=
  ⟨⟨_, rfl, by decide⟩, ⟨_, rfl, rfl, rfl, rfl, rfl⟩, ⟨_, rfl, rfl⟩, ⟨_, exec_eq .nop State.reset, rfl, by decide⟩,
    ⟨_, rfl, rfl, rfl⟩, ⟨_, rfl, rfl⟩, ⟨_, rfl, rfl⟩⟩

theorem test_witness_OperandsAreStableInFlight :
    ∃ t, step (flying .init) = .next t ∧ (flying .init).status.busy = true ∧ t.status.busy = true
      ∧ (flying .init).seq.phase ≠ .enc := ⟨_, rfl, rfl, rfl, by decide⟩

theorem test_witness_BusyWritesAreDropped :
    (flying .nop).status.busy = true
      ∧ (∀ a ∈ [0x004, 0x00C, 0x010, 0x014, 0x018, 0x020, 0x068, 0x070, 0x07C], a % 4 = 0
        ∧ (a = 0x004 ∨ a = 0x00C ∨ a = 0x010 ∨ a = 0x014 ∨ a = 0x018 ∨ (0x020 ≤ a ∧ a < 0x06C) ∨ (0x070 ≤ a ∧ a < 0x080)))
      ∧ (∀ a ∈ [0x000, 0x008, 0x080, 0x094, 0x800, 0x844, 0x1000, 0x1FFC], a % 4 = 0 ∧ a < 0x2000
        ∧ (a = 0x000 ∨ a = 0x008 ∨ (0x080 ≤ a ∧ a < 0x098) ∨ (0x800 ≤ a ∧ a < 0x848) ∨ 0x1000 ≤ a))
      ∧ (∃ t, engineTurn (flying .nop) = .next t) ∧ (loaded 1 4).status.busy = false :=
  ⟨rfl, by decide, by decide, ⟨_, rfl⟩, rfl⟩

theorem test_witness_reservedOffset :
    ∀ a ∈ [0x01C, 0x06C, 0x098, 0x7FC, 0x848, 0xFFC], a % 4 = 0 ∧ a < 0x2000 ∧ reservedOffset a := by
  unfold reservedOffset
  decide

theorem test_witness_BusyReadsAreFreeButIdAndStatus :
    (flying .nop).status.busy = true
      ∧ (∀ a ∈ [0x00C, 0x018, 0x020, 0x068, 0x070, 0x07C, 0x080, 0x094, 0x800, 0x844, 0x1000, 0x1FFC], a % 4 = 0 ∧ a < 0x2000
        ∧ a ≠ 0x000 ∧ a ≠ 0x004 ∧ a ≠ 0x008 ∧ ¬reservedOffset a) := by
  unfold reservedOffset
  exact ⟨rfl, by decide⟩

/-- The hypotheses of IdleReadsReturnTheRegisters and IdleWritesStoreTheirRegister; the offsets are those of the two
witnesses above. -/
theorem test_witness_IdleAccesses : (loaded 1 4).status.busy = false ∧ State.reset.status.busy = false := ⟨rfl, rfl⟩

theorem test_witness_ByteBuffersAreBigEndian :
    (loaded 4 4).status.busy = false ∧ (loaded 4 4).unseen.digest = false ∧ 4 * 0 + 4 ≤ (loaded 4 4).keylen.toNat ∧ 4 * 17 + 4 ≤ (loaded 72 4).keylen.toNat
      ∧ (∀ w ∈ [0, 1, 2, 8], w ≠ 4) := by decide

theorem test_witness_RegisterMapIsOneToOne :
    Reg.id ≠ .reserved ∧ Reg.s 3 255 ≠ .reserved ∧ 0x1FFC % 4 = 0 ∧ 0x1FFC < 0x2000 ∧ ¬reservedOffset 0x1FFC := by
  unfold reservedOffset
  decide

theorem test_witness_AccessesOutsideTheInterfaceAreRefused :
    (1 ≠ 4 ∨ 0 % 4 ≠ 0) ∧ (4 ≠ 4 ∨ 0x00A % 4 ≠ 0) ∧ 0x2000 ≤ 0x2000 ∧ 0x1FFC % 4 = 0 ∧ 0x1FFC < 0x2000 := by decide

theorem test_witness_HostAccessesLeaveTheEnginesResults :
    (∃ t, hostAccess (.read 0x800 4) (flying .init) = .next t)
      ∧ (∃ t, hostAccess (.write 0x004 4 1#32) (flying .init) = .next t) ∧ (flying .init).status.busy = true
      ∧ (∀ v, Access.read 0x800 4 ≠ .write 0x004 4 v) := ⟨⟨_, rfl⟩, ⟨_, rfl⟩, rfl, by simp⟩

/-- A byte of 0x80 and one of 0x7F, at each step of a stream word. -/
theorem test_witness_StreamWordReadsCyclically :
    0 < [0x80#8].length
      ∧ (∀ t, t < 4 → 0x80#8 ≤ [0x80#8].getD ((0 + t) % [0x80#8].length) 0)
      ∧ (∀ t, t < 4 → [0x7F#8].getD ((0 + t) % [0x7F#8].length) 0 < 0x80#8)
      ∧ 8 * (4 - 1) ≤ 31 ∧ 8 * (4 - 3) ≤ 8 := by decide

theorem test_witness_KeyXorReadsSeventyTwoKeyBytes :
    [0#8] ≠ [] ∧ 72 ≤ (List.replicate 72 0#8).length ∧ 72 ≤ (List.replicate 73 0#8).length
      ∧ (List.replicate 72 0#8).length = 72 := by decide

/-- The hypotheses of the statements about fills: the first and the last block, and a salt of 16 bytes. -/
theorem test_witness_FillStatements (c : Cipher) : 0 < 521 ∧ 520 < 521 ∧ saltR160.toList.length = 16
    ∧ ∃ r, r = forUp (fillBlock true saltR160.toList) 0 ⟨c, 0#32, 0#32, 0⟩ := ⟨by decide, by decide, by decide, _, rfl⟩

theorem test_witness_SignExtensionNeedsAHighKeyByte :
    [0x00#8, 0x7F#8] ≠ [] ∧ ∀ b ∈ [0x00#8, 0x7F#8], b < 0x80#8 := by decide

/-- A key of 73 bytes with another last byte, and one of one byte with another second byte. -/
theorem test_witness_UnreadKeyBytesDoNotMatter :
    (∀ j : Fin 73, j.val < (loaded 73 4).keylen.toNat → j.val < 72 →
        ((loaded 73 4).key.set 72 1#8).get j = (loaded 73 4).key.get j)
      ∧ (∀ j : Fin 73, j.val < (loaded 1 4).keylen.toNat → j.val < 72 →
        ((loaded 1 4).key.set 1 1#8).get j = (loaded 1 4).key.get j) := by decide

theorem test_witness_LoadsForgetTheEarlierCipherState (x : Bool) :
    (loaded 1 4).Accepts .init ∧ (loaded 1 4).Accepts (.eks x) ∧ needsCost (.eks x) = true ∧ needsCost (.bcrypt x) = true :=
  ⟨test_loaded_accepts_low _, test_loaded_accepts_low _, rfl, rfl⟩

theorem test_witness_SequencerPerformsEveryCommand (i : Instr) :
    (loaded 1 4).Accepts i ∧ (loaded 73 31).Accepts i ∧ 0 < sequencerSteps i 4 :=
  ⟨test_loaded_accepts_low i, test_loaded_accepts_high i, by cases i <;> simp [sequencerSteps]⟩

/-- ENCRYPT, with a read and a dropped write between its two steps. -/
theorem test_witness_InterleavingDoesNotChangeResults :
    (loaded 1 4).Accepts .enc
      ∧ (∀ inp ∈ [Input.access (.read 0x014 4), .engine, .access (.write 0x014 4 1#32)], inp.Between)
      ∧ [Input.access (.read 0x014 4), .engine, .access (.write 0x014 4 1#32)].count .engine + 1
        = sequencerSteps .enc (loaded 1 4).cost.toNat := by
  refine ⟨test_loaded_accepts_low _, ?_, by decide⟩
  simp only [List.mem_cons, List.not_mem_nil, or_false, forall_eq_or_imp, forall_eq, Input.Between, Access.Wf]
  decide

theorem test_witness_CommandInFlightCompletes (i : Instr) : (flying i).Inv ∧ (flying i).status.busy = true := test_flying_inv i

theorem test_witness_EveryWaitEnds (i : Instr) : (flying i).Inv ∧ (loaded 1 4).Inv := ⟨(test_flying_inv i).1, test_loaded_inv⟩

theorem test_witness_Radix64Statements :
    (∃ c ∈ ['*'], c ∉ Radix64.alphabet) ∧ Radix64.decode ['.', '.'] 0 = some [] ∧ saltR160.toList.length = 16
      ∧ (List.replicate 23 0#8).length = 23 :=
  ⟨⟨'*', by decide, by decide⟩, by decide, rfl, rfl⟩

theorem test_witness_FormattedHashParsesBack :
    4 ≤ 4 ∧ 31 ≤ 31 ∧ saltR160.toList.length = 16 ∧ (List.replicate 24 0#8).length = 24 := by decide

theorem test_witness_OperandWritesLoadTheKeyAndSalt :
    State.reset.status.busy = false ∧ 255 < 256 ∧ 1 ≤ [0#8].length ∧ (List.replicate 73 0#8).length ≤ 73
      ∧ saltR160.toList.length = 16 := by decide

/-- The hypotheses of HashEncodesTheBcryptDigest and VerifyMatchesItsOwnHash. -/
theorem test_witness_HashStatements :
    State.reset.status.busy = false ∧ (loaded 1 4).status.busy = false ∧ 4 ≤ 4 ∧ 31 ≤ 31 ∧ saltR160.toList.length = 16 := by
  decide

/-- A stored string with no digest part: it parses, and it is shorter than a whole hash. -/
theorem test_witness_VerifyErrorsOnlyOnParsing :
    (∃ p, parseHash "$2a$04$zVHmKQtGGQob.b/Nc7l9NO".toList = .ok p
        ∧ "$2a$04$zVHmKQtGGQob.b/Nc7l9NO".toList.length < p.tag.text.length + 58)
      ∧ parseHash "$2a$04$".toList = .error .malformedHash := ⟨⟨_, rfl, by decide⟩, by decide⟩

theorem test_witness_PasswordsAgreeOnSeventyTwoBytes :
    (List.replicate 72 0x61#8 ++ [0x62#8]).take 72 = (List.replicate 72 0x61#8).take 72 := by decide

/-- Each kind of result, unseen: after ENCRYPT and after BCRYPT; then a step of each kind the third clause keeps it under. -/
theorem test_witness_ResultsAreFreeUntilSeen :
    (∀ i, (loaded 1 4).Accepts i) ∧ (∃ t, exec .enc (loaded 1 4) = .next t)
      ∧ ((State.accept .enc (loaded 1 4)).unseen.blkL = true ∧ (State.accept .enc (loaded 1 4)).unseen.blkR = true)
      ∧ ((State.accept (.bcrypt true) (loaded 1 4)).unseen.digest = true
        ∧ (State.accept (.bcrypt true) (loaded 1 4)).unseen.cipher = true)
      ∧ (∃ t, step { flying .nop with inputs := [.access (.read 0x008 4)] } = .next t ∧ (flying .nop).status.busy = true)
      ∧ ((loaded 1 4).status.busy = false ∧ (loaded 1 4).status.init = true ∧ (loaded 1 4).unseen = .nothing) :=
  ⟨test_loaded_accepts_low, ⟨_, exec_eq _ _⟩, ⟨rfl, rfl⟩, ⟨rfl, rfl⟩, ⟨_, rfl, rfl⟩, rfl, rfl, rfl⟩

end Sys2Proof.Tests
end

section
/-! PROOFS. STATUS.INIT over one step of the machine (10_state.md R30). -/

namespace Sys2Proof.Machine

/-- The commands of 10_state.md R30 are those whose completion sets INIT. -/
theorem setsInit_iff {i : Instr} : setsInit i = true ↔ i = .init ∨ ∃ x, i = .eks x ∨ i = .bcrypt x := by
  cases i <;> simp [setsInit]

/-- The command a step from `s` can complete: the one in flight, or one that the next input runs whole and that is
accepted. -/
def State.CanComplete (s : State) (i : Instr) : Prop :=
  (s.status.busy = true ∧ s.seq.cur = some i)
    ∨ ∃ w rest, s.inputs = .run w :: rest ∧ decode w = .ok i ∧ s.Accepts i

/-- STATUS shows that `i` has completed, where INIT was `init` before. -/
def Status.ShowsCompletion (t : Status) (i : Instr) (init : Bool) : Prop :=
  t.done = true ∧ t.busy = false ∧ t.init = (init || setsInit i)

theorem Status.completed_showsCompletion (t : Status) (i : Instr) : (t.completed i).ShowsCompletion i t.init :=
  ⟨rfl, rfl, rfl⟩

theorem issueIllegal_init (r : Reject) (s : State) : (issueIllegal r s).status.init = s.status.init := by
  cases hb : s.status.busy with
  | true => simp [issueIllegal_busy hb]
  | false => simp [issueIllegal_idle hb]

/-- A command done whole keeps INIT where it is dropped or rejected, and completes where it is accepted. -/
theorem exec_init {i : Instr} {s t : State} (h : exec i s = .next t) :
    t.status.init = s.status.init ∨ (s.Accepts i ∧ t.status.ShowsCompletion i s.status.init) := by
  obtain ⟨_, rfl⟩ | ⟨r, _, _, rfl⟩ | ⟨ha, rfl⟩ := exec_cases h
  · exact .inl rfl
  · exact .inl rfl
  · refine .inr ⟨ha, ?_⟩
    simp [Status.ShowsCompletion, State.complete]

/-- An engine turn keeps INIT, but for the FINISH row, which completes the command in flight. -/
theorem engineTurn_init {s t : State} (h : engineTurn s = .next t) :
    t.status.init = s.status.init
      ∨ ∃ i, s.status.busy = true ∧ s.seq.cur = some i ∧ t.status.ShowsCompletion i s.status.init := by
  obtain he | ⟨i, hb, hc, rfl⟩ := engineTurn_status h
  · exact .inl (congrArg Status.init he)
  · exact .inr ⟨i, hb, hc, s.status.completed_showsCompletion i⟩

/-- Every step but reset keeps INIT or completes a command, which sets INIT where it is one of R30's. -/
theorem step_init {s t : State} (h : step s = .next t) :
    s.inputs.head? = some .reset ∨ t.status.init = s.status.init
      ∨ ∃ i, s.CanComplete i ∧ t.status.ShowsCompletion i s.status.init := by
  obtain ⟨_, ht⟩ | ⟨a, rest, _, ht⟩ | ⟨rest, hin, _⟩ | ⟨rest, _, ht⟩ | ⟨w, i, rest, hin, hd, ht⟩
    | ⟨w, r, rest, _, _, rfl⟩ := step_cases h
  · exact .inr ((engineTurn_init ht).imp_right fun ⟨i, hb, hc, hs⟩ => ⟨i, .inl ⟨hb, hc⟩, hs⟩)
  · exact .inr (.inl (hostAccess_init ht).1)
  · exact .inl (by rw [hin]; rfl)
  · exact .inr ((engineTurn_init ht).imp_right fun ⟨i, hb, hc, hs⟩ => ⟨i, .inl ⟨hb, hc⟩, hs⟩)
  · exact .inr ((exec_init ht).imp_right fun ⟨ha, hs⟩ => ⟨i, .inr ⟨w, rest, hin, hd, ha⟩, hs⟩)
  · exact .inr (.inl (issueIllegal_init r _))

/-- Only reset clears INIT. -/
theorem step_keeps_init {s t : State} (h : step s = .next t) (hi : s.status.init = true)
    (hr : s.inputs.head? ≠ some .reset) : t.status.init = true := by
  obtain he | he | ⟨i, _, _, _, he⟩ := step_init h
  · exact absurd he hr
  · exact he.trans hi
  · rw [he, hi, Bool.true_or]

/-- A reset input leaves INIT = 0 (70_reset_and_hazards.md R251). -/
theorem step_reset_init {s t : State} (h : step s = .next t) (hr : s.inputs.head? = some .reset) :
    t.status.init = false := by
  obtain ⟨rest, hin⟩ := List.head?_eq_some_iff.1 hr
  simp only [step, hin, takeInput] at h
  injection h with h
  subst h
  rfl

/-- INIT becomes 1 only by the completion of one of R30's commands. -/
theorem step_sets_init {s t : State} (h : step s = .next t) (hs : s.status.init = false) (ht : t.status.init = true) :
    t.status.done = true ∧ t.status.busy = false ∧ ∃ i, setsInit i = true ∧ s.CanComplete i := by
  obtain hr | he | ⟨i, hc, hd, hb, he⟩ := step_init h
  · rw [step_reset_init h hr] at ht; contradiction
  · rw [he, hs] at ht; contradiction
  · rw [he, hs, Bool.false_or] at ht
    exact ⟨hd, hb, i, ht, hc⟩

/-- One of R30's commands, accepted and done whole, sets INIT. -/
theorem exec_sets_init {i : Instr} {s : State} (hi : setsInit i = true) (ha : s.Accepts i) :
    ∃ t, exec i s = .next t ∧ t.status.init = true := by
  refine ⟨_, exec_accept ha, ?_⟩
  simp [State.complete, hi]

/-- The turn that ends BUSY for one of R30's commands sets INIT. -/
theorem engineTurn_sets_init {i : Instr} {s t : State} (hi : setsInit i = true) (hc : s.seq.cur = some i)
    (h : engineTurn s = .next t) (hs : s.status.busy = true) (ht : t.status.busy = false) : t.status.init = true := by
  obtain he | ⟨j, _, hj, rfl⟩ := engineTurn_status h
  · rw [he, hs] at ht; contradiction
  · obtain rfl : i = j := Option.some.inj (hc.symm.trans hj)
    simp [State.complete, hi]

/-- Settles O22, from what one step can do to INIT (`step_init`). -/
theorem initBitIsSetByLoadsAndClearedByReset : Obligations.InitBitIsSetByLoadsAndClearedByReset := by
  unfold Obligations.InitBitIsSetByLoadsAndClearedByReset
  refine ⟨rfl, fun _ _ => step_keeps_init, ?_, fun _ _ hi => exec_sets_init (setsInit_iff.2 hi),
    fun _ _ _ hi => engineTurn_sets_init (setsInit_iff.2 hi)⟩
  intro s t h hs ht
  obtain ⟨hd, hb, i, hi, hc⟩ := step_sets_init h hs ht
  exact ⟨hd, hb, i, setsInit_iff.1 hi, hc⟩

end Sys2Proof.Machine
end

section
/-! PROOFS. The byte order of the byte buffers in the register window (20_memory.md R65). -/

namespace Sys2Proof.Machine

theorem unbe32_getD (w : Word) {t : Nat} (ht : t < 4) : (unbe32 w).getD t 0 = byteOf w t := by
  match t, ht with
  | 0, _ | 1, _ | 2, _ | 3, _ => rfl

theorem setBufferWord_get {m : Nat} (buf : Vector Byte m) (k : Nat) (w : Word) (j : Fin m) :
    (setBufferWord buf k w).get j = if j.val / 4 = k then (unbe32 w).getD (j.val % 4) 0 else buf.get j := by
  rw [unbe32_getD w (Nat.mod_lt _ (by decide))]
  exact setBufferWord_getElem buf k w j j.isLt

theorem hostWrite_keyw_key {s : State} (hb : s.status.busy = false) (k : Fin 19) (v : Word) :
    (s.hostWrite (.keyw k) v).key = setBufferWord s.key k v := by
  rw [hostWrite_idle hb (by simp)]
  rfl

theorem hostWrite_saltw_salt {s : State} (hb : s.status.busy = false) (k : Fin 4) (v : Word) :
    (s.hostWrite (.saltw k) v).salt = setBufferWord s.salt k v := by
  rw [hostWrite_idle hb (by simp)]
  rfl

theorem readValue_keyw {s : State} (hb : s.status.busy = false) (k : Fin 19) :
    s.readValue (.keyw k) = bufferWord s.key k :=
  readValue_of_not_free hb

theorem readValue_saltw {s : State} (hb : s.status.busy = false) (k : Fin 4) :
    s.readValue (.saltw k) = bufferWord s.salt k :=
  readValue_of_not_free hb

theorem readValue_digest {s : State} (hb : s.status.busy = false) (hu : s.unseen.digest = false) (k : Fin 6) :
    s.readValue (.digest k) = s.digest.get k :=
  readValue_of_not_free (by simp [State.readIsFree, hb, hu])

/-- A write narrower or wider than a word is refused (20_memory.md R62), so no byte is written alone. -/
theorem hostAccess_write_width {width : Nat} (h : width ≠ 4) (a : Nat) (v : Word) (s : State) :
    hostAccess (.write a width v) s = .refused .accessWidth := by
  simp only [hostAccess, accessRefusal, if_pos h]

/-- The bytes of the key are those of KEY below KEYLEN (10_state.md R35, R36). -/
theorem keyBytes_getD (s : State) {j : Nat} (h : j < s.keylen.toNat) : s.keyBytes.getD j 0 = s.key.getD j 0 := by
  simp [State.keyBytes, List.getD_eq_getElem?_getD, List.getElem?_take_of_lt h, Vector.getD]

theorem keyBytes_length_eq_min (s : State) : s.keyBytes.length = min s.keylen.toNat 73 := by
  simp [State.keyBytes]

/-- A stream word that does not wrap round is a big-endian word of the data (41_key_schedule.md R121). -/
theorem streamWord_false_of_lt {data : List Byte} {off : Nat} (h : off + 3 < data.length) :
    (streamWord data off false).1
      = be32 (data.getD off 0) (data.getD (off + 1) 0) (data.getD (off + 2) 0) (data.getD (off + 3) 0) := by
  rw [streamWord_eq, Nat.mod_eq_of_lt h, Nat.mod_eq_of_lt (show off + 2 < data.length by omega),
    Nat.mod_eq_of_lt (show off + 1 < data.length by omega)]
  exact pack_false ..

/-- A word of KEYW that lies inside the key is the stream word at its offset. -/
theorem bufferWord_key_eq_streamWord {s : State} {k : Nat} (hk : k < 18) (hl : 4 * k + 4 ≤ s.keylen.toNat) :
    bufferWord s.key k = (streamWord s.keyBytes (4 * k) false).1 := by
  have hlen : 4 * k + 3 < s.keyBytes.length := by rw [keyBytes_length_eq_min]; omega
  rw [streamWord_false_of_lt hlen, keyBytes_getD s (by omega), keyBytes_getD s (by omega), keyBytes_getD s (by omega),
    keyBytes_getD s (by omega)]
  rfl

/-- Settles O30, buffer by buffer: what a write of a word leaves in each byte, and what a read of a word packs. -/
theorem byteBuffersAreBigEndian : Obligations.ByteBuffersAreBigEndian := by
  unfold Obligations.ByteBuffersAreBigEndian
  refine ⟨?keyWrite, ?saltWrite, fun _ k hb => readValue_keyw hb k, fun _ k hb => readValue_saltw hb k, ?digestRead,
    fun s a _ v hw => ⟨_, hostAccess_write_width hw a v s⟩, ?keyStream⟩
  case keyWrite =>
    intro s k v j hb
    rw [hostWrite_keyw_key hb, setBufferWord_get]
  case saltWrite =>
    intro s k v j hb
    rw [hostWrite_saltw_salt hb, setBufferWord_get]
  case digestRead =>
    intro s k hb hu
    rw [readValue_digest hb hu]
    exact (be32_byteOf _).symm
  case keyStream =>
    intro s k hk hb hl
    rw [readValue_keyw hb, bufferWord_key_eq_streamWord hk hl]

end Sys2Proof.Machine
end

section
/-! PROOFS. The words that do not decode, and their rejection (30_encoding.md R86, R87). -/

namespace Sys2Proof

theorem wordWf_eq_false_iff (w : Word) :
    wordWf w = false
      ↔ 8 ≤ w.toNat % 256 ∨ w.toNat / 512 ≠ 0 ∨ (w.toNat / 256 % 2 = 1 ∧ w.toNat % 256 ≤ 2) := by
  rw [← Bool.not_eq_true, wordWf_iff]
  omega

/-- Decoding refuses exactly the ill-formed words: none of them is read as another command. -/
theorem wordWf_eq_false_iff_decode_error (w : Word) : wordWf w = false ↔ ∃ r, decode w = .error r := by
  constructor
  · intro h
    obtain ⟨_, hd⟩ | ⟨_, _, hd⟩ := decode_error h <;> exact ⟨_, hd⟩
  · rintro ⟨r, hr⟩
    by_contra hw
    obtain ⟨i, hi, _⟩ := decode_ok (Bool.of_not_eq_false hw)
    rw [hi] at hr
    contradiction

end Sys2Proof

namespace Sys2Proof.Machine

/-- On an IDLE engine a write of CMD issues the word (60_exceptions.md R221). -/
theorem hostAccess_write_cmd {s : State} (h : s.status.busy = false) (w : Word) :
    hostAccess (.write 0x004 4 w) s = .next (s.issueWord w) := by
  rw [hostAccess_write (by decide) (by decide), show regAt 0x004 = .cmd from rfl, hostWrite_cmd h]

/-- A word that decoding refuses, issued on an IDLE engine (60_exceptions.md R223, R224, R229). -/
theorem issueWord_error {w : Word} {s : State} {r : Reject} (hd : decode w = .error r) (h : s.status.busy = false) :
    s.issueWord w = { s with status := .rejectedWith (rejectCode r) s.status.init } := by
  simp only [State.issueWord, hd, issueIllegal_idle h, reject_eq r h]

/-- Written to CMD or run whole, a word that decoding refuses changes STATUS only, to the rejection's record. -/
theorem decode_error_rejects {w : Word} {s : State} {r : Reject} (hd : decode w = .error r)
    (h : s.status.busy = false) :
    hostAccess (.write 0x004 4 w) s = .next { s with status := .rejectedWith (rejectCode r) s.status.init }
      ∧ runWord w s = .next { s with status := .rejectedWith (rejectCode r) s.status.init } :=
  ⟨by rw [hostAccess_write_cmd h, issueWord_error hd h], runWord_error hd h⟩

/-- Settles O3: each malformed word fails to decode with its own rejection, which both ways of issuing it report. -/
theorem illegalAndReservedWordsReject : Obligations.IllegalAndReservedWordsReject := by
  unfold Obligations.IllegalAndReservedWordsReject
  refine ⟨?illegal, ?reserved, ?undecodable, ?examples⟩
  case illegal =>
    intro w s hb hop
    exact decode_error_rejects (decode_illegal hop) hb
  case reserved =>
    intro w s hb hop hr
    exact decode_error_rejects (decode_reserved hop hr) hb
  case undecodable =>
    intro w
    exact (wordWf_eq_false_iff w).symm.trans (wordWf_eq_false_iff_decode_error w)
  case examples => decide

end Sys2Proof.Machine
end

section
/-! PROOFS. The F-function on its byte slices, and NOP, INIT and ENCRYPT done whole (40_blowfish.md R101 to R108). -/

namespace Sys2Proof.Machine

/-- The word of an S-box that a byte slice of `x` selects, by its number (40_blowfish.md R101). -/
theorem sAt_extractLsb' (c : Cipher) (b : Fin 4) (x : Word) (k : Nat) :
    c.sAt b (x.extractLsb' k 8) = (c.s.get b).getD (x.toNat / 2 ^ k % 256) 0#32 := by
  have hn : (x.extractLsb' k 8).toNat = x.toNat / 2 ^ k % 256 := by
    rw [BitVec.extractLsb'_toNat, Nat.shiftRight_eq_div_pow]
  rw [← hn, getD_lt _ _ (x.extractLsb' k 8).isLt]
  rfl

/-- The rule's example and the values of 95_test_vectors.md section 3.3. -/
theorem load_f_values :
    Cipher.load.f 0x00000000#32 = 0x2FCFF51E#32 ∧ Cipher.load.f 0xFFFFFFFF#32 = 0x452C2867#32
      ∧ Cipher.load.f 0x01234567#32 = 0xF36E574C#32 ∧ Cipher.load.f 0x00000001#32 = 0xC9911CB6#32
      ∧ Cipher.load.f 0x80000000#32 = 0x1D9CE8BC#32 := by decide +kernel

/-- Settles O35: each slice of the word selects by its number, and the top one needs no reduction. -/
theorem fAddsXorsAddsTheByteSlices : Obligations.FAddsXorsAddsTheByteSlices := by
  unfold Obligations.FAddsXorsAddsTheByteSlices
  refine ⟨fun c x => ?_, load_f_values⟩
  have htop : x.toNat / 2 ^ 24 % 256 = x.toNat / 2 ^ 24 := by omega
  simp only [Cipher.f, sAt_extractLsb', htop, Nat.pow_zero, Nat.div_one]

/-- A command that reads neither KEYLEN nor COST is accepted wherever BUSY = 0 and its need of INIT is met
(60_exceptions.md R225 to R227). -/
theorem accepts_of_no_operand {i : Instr} {s : State} (hk : needsKeylen i = false) (hc : needsCost i = false)
    (hb : s.status.busy = false) (hi : needsInit i = true → s.status.init = true) : s.Accepts i :=
  ⟨hb, hi, by simp [hk], by simp [hc]⟩

/-- Opcodes 0 to 2 take no X and no reserved bit: the word is rejected whole (60_exceptions.md R224). -/
theorem runWord_reserved {w : Word} {s : State} (hb : s.status.busy = false) (hop : w.toNat % 256 ≤ 2)
    (hr : w.toNat / 512 ≠ 0 ∨ w.toNat / 256 % 2 = 1) :
    runWord w s = .next { s with status := .rejectedWith 2#4 s.status.init } :=
  runWord_error (decode_reserved (by omega) (hr.imp_right fun hx => ⟨hx, hop⟩)) hb

/-- NOP latches itself, ends IDLE and shows DONE; the other working registers keep their values (40_blowfish.md R106). -/
theorem exec_nop {s : State} (hb : s.status.busy = false) :
    exec .nop s = .next { s with
      status := .doneWith s.status.init, seq := { s.seq with phase := .idle, cur := some .nop } } := by
  rw [exec_accept (accepts_of_no_operand rfl rfl hb (by simp [needsInit]))]
  simp [effectOf, State.complete, State.accept, startPhase, State.toPhase, State.clearRecord, Unseen.after,
    Status.doneWith, Status.completed, Status.accepted, Status.cleared, setsInit]

/-- INIT leaves the ROM in P and S and INIT = 1 (40_blowfish.md R107). -/
theorem exec_init_loads {s : State} (hb : s.status.busy = false) :
    ∃ (q : Seq) (u : Unseen), q.phase = .idle
      ∧ exec .init s = .next { s with cipher := Cipher.load, status := .doneWith true, seq := q, unseen := u } := by
  obtain ⟨q, hq, he⟩ := exec_accept_seq (i := .init) (accepts_of_no_operand rfl rfl hb (by simp [needsInit]))
  simp only [setsInit, Bool.or_true] at he
  exact ⟨q, _, hq, he⟩

/-- ENCRYPT leaves the block's encryption in BLK (40_blowfish.md R108). -/
theorem exec_enc {s : State} (hb : s.status.busy = false) (hi : s.status.init = true) :
    ∃ (q : Seq) (u : Unseen), q.phase = .idle
      ∧ exec .enc s = .next { s.encryptBlk with status := .doneWith true, seq := q, unseen := u } := by
  obtain ⟨q, hq, he⟩ := exec_accept_seq (i := .enc) (accepts_of_no_operand rfl rfl hb fun _ => hi)
  simp only [hi, Bool.true_or] at he
  exact ⟨q, _, hq, he⟩

/-- ENCRYPT reads P and S, so it is rejected before they are loaded (60_exceptions.md R225). -/
theorem exec_enc_not_initialised {s : State} (hb : s.status.busy = false) (hi : s.status.init = false) :
    exec .enc s = .next { s with status := .rejectedWith 3#4 false } := by
  have hc : issueCheck .enc s = some .notInitialised := by rw [issueCheck_eq, if_pos ⟨rfl, hi⟩]
  rw [exec_reject hb hc, reject_eq _ hb, hi]
  rfl

/-- STATUS after a completed command: DONE, and INIT as it was (10_state.md R26). -/
theorem Status.word_doneWith (init : Bool) :
    (Status.doneWith init).word = if init then 0x0000000A#32 else 0x00000002#32 := by
  revert init
  decide

/-- What the host reads in STATUS after a NOP: INIT alone decides it, whatever record an earlier rejection left. -/
theorem exec_nop_word {s : State} (hb : s.status.busy = false) :
    ∃ t, exec .nop s = .next t ∧ t.status.word = if s.status.init then 0x0000000A#32 else 0x00000002#32 :=
  ⟨_, exec_nop hb, Status.word_doneWith _⟩

/-- Once a STATUS read has shown BUSY = 0, a read on an initialised engine returns the register's word
(70_reset_and_hazards.md R255). -/
theorem readValue_after_status_read {t : State} (hb : t.status.busy = false) (hi : t.status.init = true) (r : Reg) :
    (t.hostRead 0x008).readValue r = (t.hostRead 0x008).regValue r := by
  have hu : (t.hostRead 0x008).unseen = .nothing := unseenAfterRead_idle hb
  exact readValue_of_not_free (readIsFree_seen (s := t.hostRead 0x008) hb hi hu r)

/-- Words of the ROM that 40_blowfish.md R107 names. -/
theorem load_words :
    Cipher.load.p.get 0 = 0x243F6A88#32 ∧ Cipher.load.p.get 17 = 0x8979FB1B#32
      ∧ (Cipher.load.s.get 0).get 0 = 0xD1310BA6#32 ∧ (Cipher.load.s.get 3).get 255 = 0x3AC372E6#32 := by
  decide +kernel

/-- The same words as the host reads them once P and S hold the ROM and BUSY = 0 has been seen. -/
theorem readValue_romWords {t : State} (hb : t.status.busy = false) (hi : t.status.init = true)
    (hc : t.cipher = Cipher.load) :
    (t.hostRead 0x008).readValue (regAt 0x800) = 0x243F6A88#32
      ∧ (t.hostRead 0x008).readValue (regAt 0x844) = 0x8979FB1B#32
      ∧ (t.hostRead 0x008).readValue (regAt 0x1000) = 0xD1310BA6#32
      ∧ (t.hostRead 0x008).readValue (regAt 0x1FFC) = 0x3AC372E6#32 := by
  simp only [regAt_p (a := 0x800) 0 rfl, regAt_p (a := 0x844) 17 rfl, regAt_s (a := 0x1000) 0 0 rfl,
    regAt_s (a := 0x1FFC) 3 255 rfl, readValue_after_status_read hb hi, State.regValue, State.hostRead_cipher, hc]
  exact load_words

/-- The block 0 under the ROM (40_blowfish.md R108, the example). -/
theorem load_encryptBlock_zero :
    Cipher.load.encryptBlock (0x00000000#32, 0x00000000#32) = (0x706D9FCC#32, 0x1792D23A#32) := by decide +kernel

/-- Settles O7, from `exec_nop`: NOP has no check to fail, so only its word can be rejected. -/
theorem nopChangesStatusOnly : Obligations.NopChangesStatusOnly := by
  unfold Obligations.NopChangesStatusOnly
  refine ⟨by decide, by decide, fun s hb => ⟨_, exec_nop hb⟩, fun w s hb hop => runWord_reserved hb (by omega),
    ?afterError, ?afterErrorInit⟩
  case afterError =>
    intro s hs
    obtain ⟨t, he, hw⟩ := exec_nop_word (s := s) (by rw [hs]; rfl)
    exact ⟨by rw [hs]; decide, t, he, by rw [hw, hs]; rfl⟩
  case afterErrorInit =>
    intro s hs
    obtain ⟨t, he, hw⟩ := exec_nop_word (s := s) (by rw [hs]; rfl)
    exact ⟨t, he, by rw [hw, hs]; rfl⟩

/-- Settles O8: the ROM replaces P and S, and a STATUS read makes its words readable. -/
theorem initLoadsTheRom : Obligations.InitLoadsTheRom := by
  unfold Obligations.InitLoadsTheRom
  refine ⟨by decide, by decide, fun s hb => exec_init_loads hb, fun w s hb hop => runWord_reserved hb (by omega),
    fun s hb => ?_⟩
  obtain ⟨q, u, _, he⟩ := exec_init_loads hb
  exact ⟨_, he, readValue_romWords rfl rfl rfl⟩

/-- Settles O9, from `exec_enc`: the one check that reads state is INIT's, so the two rejections are all. -/
theorem encryptReplacesTheBlock : Obligations.EncryptReplacesTheBlock := by
  unfold Obligations.EncryptReplacesTheBlock
  refine ⟨by decide, by decide, fun s hb hi => exec_enc hb hi, fun w s hb hop => runWord_reserved hb (by omega),
    fun s hb hi => exec_enc_not_initialised hb hi, fun s hb hi hc hl hr => ?_⟩
  obtain ⟨q, u, _, he⟩ := exec_enc hb hi
  have hblock : s.cipher.encryptBlock (s.blkL, s.blkR) = (0x706D9FCC#32, 0x1792D23A#32) := by
    rw [hc, hl, hr]
    exact load_encryptBlock_zero
  exact ⟨_, he, congrArg Prod.fst hblock, congrArg Prod.snd hblock⟩

end Sys2Proof.Machine
end

section
/-! PROOFS. Stream words, the key-XOR and the salt halves of a salted fill (41_key_schedule.md R121 to R125). -/

namespace Sys2Proof.Machine

/-- A bit set in widened byte `t` is set in the stream word, `8 * (3 - t)` places up: the bytes are ORed, so no other byte
clears it (41_key_schedule.md R121). -/
theorem streamWord_getLsbD_of_widen {data : List Byte} {off t j : Nat} {sx : Bool} (ho : off < data.length) (ht : t < 4)
    (hj : 8 * (3 - t) ≤ j) (hj' : j < 32)
    (hb : (widen sx (data.getD ((off + t) % data.length) 0)).getLsbD (j - 8 * (3 - t)) = true) :
    (streamWord data off sx).1.getLsbD j = true := by
  simp only [streamWord_eq, BitVec.getLsbD_or, BitVec.getLsbD_shiftLeft, Bool.or_eq_true, Bool.and_eq_true,
    Bool.not_eq_true', decide_eq_true_eq, decide_eq_false_iff_not, Nat.not_lt]
  match t, ht with
  | 0, _ =>
    rw [Nat.add_zero, Nat.mod_eq_of_lt ho] at hb
    exact .inl (.inl (.inl ⟨⟨hj', hj⟩, hb⟩))
  | 1, _ => exact .inl (.inl (.inr ⟨⟨hj', hj⟩, hb⟩))
  | 2, _ => exact .inl (.inr ⟨⟨hj', hj⟩, hb⟩)
  | 3, _ => exact .inr hb

/-- Sign extension of a byte from 0x80 up sets every bit above the byte (00_scope.md R11). -/
theorem widen_true_getLsbD_of_high {b : Byte} {i : Nat} (hb : 0x80#8 ≤ b) (hi : 8 ≤ i) (hi' : i < 32) :
    (widen true b).getLsbD i = true := by
  have hmsb : b.getLsbD 7 = true := by
    rw [← BitVec.msb_eq_getLsbD_last, BitVec.msb_eq_decide, decide_eq_true_eq]
    exact hb
  rw [widen_getLsbD _ _ i hi', if_neg (by omega), hmsb, Bool.and_self]

/-- Where the four bytes read are below 0x80 the flag changes nothing (41_key_schedule.md R121). -/
theorem streamWord_sx_of_low {data : List Byte} {off : Nat} (ho : off < data.length)
    (hb : ∀ t, t < 4 → data.getD ((off + t) % data.length) 0 < 0x80#8) (sx : Bool) :
    streamWord data off sx = streamWord data off false := by
  have h0 := hb 0 (by decide)
  rw [Nat.add_zero, Nat.mod_eq_of_lt ho] at h0
  rw [streamWord_eq, streamWord_eq, widen_low h0, widen_low (hb 1 (by decide)), widen_low (hb 2 (by decide)),
    widen_low (hb 3 (by decide))]

/-- Settles O37, from the closed form of a stream word (`streamWord_eq`) and the bits of a widened byte. -/
theorem streamWordReadsCyclically : Obligations.StreamWordReadsCyclically := by
  unfold Obligations.StreamWordReadsCyclically
  refine ⟨fun data off sx _ => streamWord_eq data off sx, ?zeroExtended, ?highByte,
    fun data off ho hb => streamWord_sx_of_low ho hb true, ?oneByte, by decide⟩
  case zeroExtended =>
    intro data off _
    rw [streamWord_eq]
    exact pack_false ..
  case highByte =>
    intro data off t j ho ht hb hj hj'
    exact streamWord_getLsbD_of_widen ho ht (by omega) hj' (widen_true_getLsbD_of_high hb (by omega) (by omega))
  case oneByte =>
    intro b sx
    rw [streamWord_eq]
    simp only [List.length_singleton, Nat.mod_one, List.getD_cons_zero]

/-- The stream word of a key-XOR at `P[i]`, its offset counted from the start of the key (41_key_schedule.md R122). -/
theorem streamWord_mod_fst (data : List Byte) (k : Nat) (sx : Bool) :
    (streamWord data (k % data.length) sx).1
      = (widen sx (data.getD (k % data.length) 0) <<< 24) ||| (widen sx (data.getD ((k + 1) % data.length) 0) <<< 16)
          ||| (widen sx (data.getD ((k + 2) % data.length) 0) <<< 8)
          ||| widen sx (data.getD ((k + 3) % data.length) 0) := by
  simp only [streamWord_eq, Nat.mod_add_mod]

/-- A 73rd key byte is never read: the key acts as its first 72 (41_key_schedule.md R123). -/
theorem Cipher.keyXor_append {key : List Byte} (h : key.length = 72) (rest : List Byte) (sx : Bool) (c : Cipher) :
    c.keyXor (key ++ rest) sx = c.keyXor key sx := by
  rw [Cipher.keyXor_take (key ++ rest) sx c (by rw [List.length_append]; omega), List.take_left' h]

/-- Settles O38: `P[i]` takes the stream word at offset `4 * i`, and no word of the eighteen reads past byte 71. -/
theorem keyXorReadsSeventyTwoKeyBytes : Obligations.KeyXorReadsSeventyTwoKeyBytes := by
  unfold Obligations.KeyXorReadsSeventyTwoKeyBytes
  refine ⟨fun key sx c i h => ?_, fun key sx c => keyXor_s key sx c _, Cipher.keyXor_take, fun key b b' sx c h => ?_⟩
  · rw [← pAt_get, ← pAt_get, Cipher.keyXor_pAt key sx c i.val h i.isLt, streamWord_mod_fst]
  · rw [Cipher.keyXor_append h, Cipher.keyXor_append h]

/-- An iteration of a salted fill encrypts the running block with the salt words added (41_key_schedule.md R124). -/
theorem fillBlock_salted_block (salt : List Byte) (n : Nat) (r : FillRun) :
    ((fillBlock true salt n r).bl, (fillBlock true salt n r).br)
      = r.cipher.encryptBlock ((r.addSalt salt).bl, (r.addSalt salt).br) := rfl

/-- The salt words of a block are the next eight salt bytes, zero-extended, where the stream does not wrap within them
(41_key_schedule.md R125). -/
theorem FillRun.addSalt_block {salt : List Byte} {r : FillRun} (h : r.soff + 7 < salt.length) :
    (r.addSalt salt).bl = r.bl ^^^ be32 (salt.getD r.soff 0) (salt.getD (r.soff + 1) 0) (salt.getD (r.soff + 2) 0)
        (salt.getD (r.soff + 3) 0)
      ∧ (r.addSalt salt).br = r.br ^^^ be32 (salt.getD (r.soff + 4) 0) (salt.getD (r.soff + 5) 0)
        (salt.getD (r.soff + 6) 0) (salt.getD (r.soff + 7) 0) := by
  have hoff : (streamWord salt r.soff false).2 = r.soff + 4 := by
    rw [streamWord_off, Nat.mod_eq_of_lt (by omega)]
  constructor
  · rw [FillRun.addSalt, streamWord_false_of_lt (by omega)]
  · simp only [FillRun.addSalt, hoff, streamWord_false_of_lt (show r.soff + 4 + 3 < salt.length by omega), Nat.add_assoc,
      Nat.reduceAdd]

/-- Settles O40: the salt offset before block `n` is `8 * (n % 2)` (`fill_soff`), so the block takes that half. -/
theorem saltedFillAlternatesTheSaltHalves : Obligations.SaltedFillAlternatesTheSaltHalves := by
  unfold Obligations.SaltedFillAlternatesTheSaltHalves
  intro salt c n r hlen hr
  have hsoff : r.soff = 8 * (n % 2) := by
    rw [hr]
    exact fill_soff salt _ hlen rfl n
  obtain ⟨hbl, hbr⟩ := FillRun.addSalt_block (salt := salt) (r := r) (by omega)
  rw [fillBlock_salted_block, hbl, hbr, hsoff]
  exact ⟨rfl, rfl⟩

end Sys2Proof.Machine
end

section
/-! PROOFS. EKS and BCRYPT as programs of the primitive commands (42_eks_bcrypt.md R158). -/

namespace Sys2Proof.Machine

theorem runCommands_cons {i : Instr} {s t : State} (h : exec i s = .next t) (rest : List Instr) :
    runCommands (i :: rest) s = runCommands rest t := by
  rw [runCommands, h, andThen]

theorem State.SameOperands.keyBytes {s t : State} (h : s.SameOperands t) : t.keyBytes = s.keyBytes := by
  obtain ⟨_, hlen, hkey, _⟩ := h
  rw [State.keyBytes, State.keyBytes, hlen, hkey]

theorem State.SameOperands.saltBytes {s t : State} (h : s.SameOperands t) : t.saltBytes = s.saltBytes := by
  obtain ⟨_, _, _, hsalt⟩ := h
  rw [State.saltBytes, State.saltBytes, hsalt]

/-- A ready engine that holds these key and salt bytes and this cipher state: all that the key commands read. -/
structure State.Holds (s : State) (key salt : List Byte) (c : Cipher) : Prop where
  ready : s.Ready
  key : s.keyBytes = key
  salt : s.saltBytes = salt
  cipher : s.cipher = c

/-- A primitive command keeps the operands and leaves the cipher state of its effect. -/
theorem State.Holds.exec {s : State} {key salt : List Byte} {c : Cipher} (h : s.Holds key salt c) {i : Instr}
    (hn : needsCost i = false) :
    ∃ t, Sys2Proof.Machine.exec i s = .next t ∧ t.Holds key salt (effectOf i s).cipher := by
  obtain ⟨t, he, hr, ho, hc, _, _⟩ := h.ready.exec hn
  exact ⟨t, he, hr, ho.keyBytes.trans h.key, ho.saltBytes.trans h.salt, hc⟩

theorem State.Holds.expkey {s : State} {key salt : List Byte} {c : Cipher} (h : s.Holds key salt c) (x : Bool) :
    ∃ t, Sys2Proof.Machine.exec (.expkey x) s = .next t ∧ t.Holds key salt (c.expandKey key x) := by
  simpa [effectOf, h.key, h.cipher] using h.exec (i := .expkey x) rfl

theorem State.Holds.expsalt {s : State} {key salt : List Byte} {c : Cipher} (h : s.Holds key salt c) (x : Bool) :
    ∃ t, Sys2Proof.Machine.exec (.expsalt x) s = .next t ∧ t.Holds key salt (c.expandKey salt x) := by
  simpa [effectOf, h.salt, h.cipher] using h.exec (i := .expsalt x) rfl

theorem State.Holds.expstate {s : State} {key salt : List Byte} {c : Cipher} (h : s.Holds key salt c) (x : Bool) :
    ∃ t, Sys2Proof.Machine.exec (.expstate x) s = .next t ∧ t.Holds key salt (c.expandState salt key x) := by
  simpa [effectOf, h.key, h.salt, h.cipher] using h.exec (i := .expstate x) rfl

/-- INIT with KEYLEN in range makes the engine ready, whatever its cipher state was (40_blowfish.md R104). -/
theorem exec_init_holds {s : State} (hb : s.status.busy = false) (hk : 1 ≤ s.keylen.toNat ∧ s.keylen.toNat ≤ 73) :
    ∃ t, exec .init s = .next t ∧ t.Holds s.keyBytes s.saltBytes Cipher.load := by
  obtain ⟨q, u, _, he⟩ := exec_init_loads hb
  exact ⟨_, he, ⟨rfl, rfl, hk⟩, rfl, rfl, rfl⟩

/-- EXPKEY and then EXPSALT with X = 0 are one iteration of the Eks loop (42_eks_bcrypt.md R151). -/
theorem State.Holds.runPair {s : State} {key salt : List Byte} {c : Cipher} (h : s.Holds key salt c) (x : Bool) :
    ∃ t, runCommands [.expkey x, .expsalt false] s = .next t ∧ t.Holds key salt (c.eksIteration salt key x) := by
  obtain ⟨u, hu, hku⟩ := h.expkey x
  obtain ⟨t, ht, hst⟩ := hku.expsalt false
  exact ⟨t, by rw [runCommands_cons hu, runCommands_cons ht, runCommands], hst⟩

/-- `n` pairs are `n` iterations, whatever the cipher state they start from. -/
theorem State.Holds.runPairs {key salt : List Byte} (x : Bool) (n : Nat) {s : State} {c : Cipher}
    (h : s.Holds key salt c) :
    ∃ t, runCommands (List.replicate n [Instr.expkey x, Instr.expsalt false]).flatten s = .next t
      ∧ t.Holds key salt (repeatTimes (Cipher.eksIteration salt key x) n c) := by
  induction n generalizing s c with
  | zero => exact ⟨s, rfl, h⟩
  | succ n ih =>
    obtain ⟨u, hu, hpair⟩ := h.runPair x
    obtain ⟨t, ht, hrest⟩ := ih hpair
    refine ⟨t, ?_, ?_⟩
    · rw [List.replicate_succ, List.flatten_cons, runCommands_append hu, ht]
    · rwa [repeatTimes_succ']

/-- The program of R158 leaves the Eks schedule's cipher state. -/
theorem runCommands_eksProgram {s : State} (hb : s.status.busy = false)
    (hk : 1 ≤ s.keylen.toNat ∧ s.keylen.toNat ≤ 73) (x : Bool) (cost : Nat) :
    ∃ t, runCommands (.init :: .expstate x ::
        (List.replicate (2 ^ cost) [Instr.expkey x, Instr.expsalt false]).flatten) s = .next t
      ∧ t.Holds s.keyBytes s.saltBytes (eksSetup cost s.saltBytes s.keyBytes x) := by
  obtain ⟨u, hu, hload⟩ := exec_init_holds hb hk
  obtain ⟨v, hv, hstate⟩ := hload.expstate x
  obtain ⟨t, ht, hloop⟩ := hstate.runPairs x (2 ^ cost)
  exact ⟨t, by rw [runCommands_cons hu, runCommands_cons hv, ht], hloop⟩

/-- ENCRYPTs one after another encrypt the block again and again under the same P and S (40_blowfish.md R103, R108). -/
theorem State.Ready.runEncs (n : Nat) {s : State} (h : s.Ready) :
    ∃ e, runCommands (List.replicate n .enc) s = .next e
      ∧ (e.blkL, e.blkR) = repeatTimes s.cipher.encryptBlock n (s.blkL, s.blkR) := by
  induction n generalizing s with
  | zero => exact ⟨s, rfl, rfl⟩
  | succ n ih =>
    obtain ⟨t, ht, hr, _, hc, hl, hrt⟩ := h.exec (i := .enc) rfl
    have hc : t.cipher = s.cipher := by rw [hc, effectOf, State.encryptBlk_cipher]
    have hblk : (t.blkL, t.blkR) = s.cipher.encryptBlock (s.blkL, s.blkR) := by rw [hl, hrt]; rfl
    obtain ⟨e, he, heq⟩ := ih hr
    refine ⟨e, ?_, ?_⟩
    · rw [List.replicate_succ, runCommands_cons ht, he]
    · rw [heq, hc, hblk, repeatTimes_succ']

/-- An accepted command leaves the cipher state and the digest of its effect. -/
theorem exec_accept_results {i : Instr} {s : State} (h : s.Accepts i) :
    ∃ t, exec i s = .next t ∧ t.cipher = (effectOf i s).cipher ∧ t.digest = (effectOf i s).digest := by
  obtain ⟨q, _, he⟩ := exec_accept_seq h
  exact ⟨_, he, rfl, rfl⟩

/-- A block of the digest is its block of CTEXT encrypted 64 times (42_eks_bcrypt.md R156). -/
theorem digest_block (c : Cipher) (j : Fin 3) :
    blockOf c.digest j = repeatTimes c.encryptBlock 64 (blockOf ctext j) :=
  digestPasses_block c ctext j.isLt 64

/-- Settles O44: the program, EKS and BCRYPT all leave the Eks schedule's cipher state, and the digest of that state is
independent block by block. -/
theorem eksIsAProgramOfPrimitives : Obligations.EksIsAProgramOfPrimitives := by
  unfold Obligations.EksIsAProgramOfPrimitives
  intro x s hb hk1 hk73 hc4 hc31
  obtain ⟨t, ht, hprog⟩ := runCommands_eksProgram hb ⟨hk1, hk73⟩ x s.cost.toNat
  have hacc {i : Instr} (hi : needsInit i = false) : s.Accepts i :=
    ⟨hb, by simp [hi], fun _ => ⟨hk1, hk73⟩, fun _ => ⟨hc4, hc31⟩⟩
  obtain ⟨u, hu, hcu, _⟩ := exec_accept_results (hacc (i := .eks x) rfl)
  obtain ⟨v, hv, hcv, hdv⟩ := exec_accept_results (hacc (i := .bcrypt x) rfl)
  rw [effectOf, State.runEks_cipher, State.costNat] at hcu
  rw [effectOf, State.runBcrypt_cipher, State.costNat] at hcv
  rw [effectOf, State.runBcrypt_digest, State.costNat] at hdv
  refine ⟨t, u, v, ht, hu, hv, hprog.cipher.trans hcu.symm, hprog.cipher.trans hcv.symm, fun j => ?_⟩
  have hready : State.Ready { t with blkL := ctext.getD (2 * j.val) 0#32, blkR := ctext.getD (2 * j.val + 1) 0#32 } :=
    ⟨hprog.ready.busy, hprog.ready.init, hprog.ready.key⟩
  obtain ⟨e, he, hblk⟩ := hready.runEncs 64
  have hdigest : (e.blkL, e.blkR) = blockOf v.digest j := by
    rw [hblk, hdv, digest_block, ← hprog.cipher]
    rfl
  exact ⟨e, he, congrArg Prod.fst hdigest, congrArg Prod.snd hdigest⟩

end Sys2Proof.Machine
end

section
/-! PROOFS. Lengths and unused tail bits of the radix-64 encodings (44_host_protocol.md R196, R198). -/

namespace Sys2Proof.Machine.Radix64

theorem encode_eq_nil {d : List Byte} : encode d = [] ↔ d = [] := by
  rw [← List.length_eq_zero_iff, ← List.length_eq_zero_iff, encode_length]
  omega

/-- A full group of 3 bytes in front leaves the last symbol as it is. -/
theorem encode_getLast?_cons_group (a b c : Byte) {rest : List Byte} (h : rest ≠ []) :
    (encode (a :: b :: c :: rest)).getLast? = (encode rest).getLast? := by
  obtain ⟨k, ks, hk⟩ := List.exists_cons_of_ne_nil (mt encode_eq_nil.mp h)
  rw [encode, hk]
  simp only [List.getLast?_cons_cons]

/-- The bits of an encoding beyond those of its bytes, 6 a symbol and 8 a byte (44_host_protocol.md R198). -/
def unusedBits (d : List Byte) : Nat := 6 * (encode d).length - 8 * d.length

theorem unusedBits_cons_group (a b c : Byte) (rest : List Byte) : unusedBits (a :: b :: c :: rest) = unusedBits rest := by
  simp only [unusedBits, encode, List.length_cons]
  omega

/-- A last index with `n` low zero bits, as the end of a short group has it, is a multiple of `2 ^ n`. -/
theorem two_pow_dvd_append_zero {m n : Nat} (x : BitVec m) : 2 ^ n ∣ (x ++ 0#n).toNat := by
  simp [BitVec.toNat_append, Nat.shiftLeft_eq]

/-- The unused low bits of the last symbol are 0 (44_host_protocol.md R196). -/
theorem encode_getLast?_unused_zero (d : List Byte) (hd : d ≠ []) :
    ∃ v : BitVec 6, (encode d).getLast? = some (symbol v) ∧ 2 ^ unusedBits d ∣ v.toNat := by
  induction d using encode.induct with
  | case1 => exact absurd rfl hd
  | case2 a => exact ⟨a.extractLsb' 0 2 ++ 0#4, rfl, two_pow_dvd_append_zero _⟩
  | case3 a b => exact ⟨b.extractLsb' 0 4 ++ 0#2, rfl, two_pow_dvd_append_zero _⟩
  | case4 a b c rest ih =>
    rw [unusedBits_cons_group]
    by_cases hrest : rest = []
    · subst hrest
      exact ⟨c.extractLsb' 0 6, rfl, one_dvd _⟩
    · rw [encode_getLast?_cons_group a b c hrest]
      exact ih hrest

/-- The four symbols whose low 4 bits are 0 (44_host_protocol.md R198). -/
theorem symbol_mem_of_dvd : ∀ v : BitVec 6, 2 ^ 4 ∣ v.toNat → symbol v ∈ ['.', 'O', 'e', 'u'] := by decide +kernel

theorem extractLsb'_eq_zero_of_dvd {w n : Nat} {v : BitVec w} (h : 2 ^ n ∣ v.toNat) : v.extractLsb' 0 n = 0#n :=
  BitVec.eq_of_toNat_eq <| by simpa using Nat.mod_eq_zero_of_dvd h

end Sys2Proof.Machine.Radix64

namespace Sys2Proof.Machine

/-- Settles O52: the counts leave 4 unused bits for 16 bytes and 2 for 23, and unused bits are 0. -/
theorem radix64LengthsAndTailBits : Obligations.Radix64LengthsAndTailBits := by
  unfold Obligations.Radix64LengthsAndTailBits
  refine ⟨fun d hd => ?_, fun d hd => ?_⟩
  · have hlen : (Radix64.encode d).length = 22 := by rw [Radix64.encode_length, hd]
    obtain ⟨v, hlast, hv⟩ := Radix64.encode_getLast?_unused_zero d (List.ne_nil_of_length_eq_add_one hd)
    rw [Radix64.unusedBits, hlen, hd] at hv
    exact ⟨hlen, Radix64.symbol v, Radix64.symbol_mem_of_dvd v hv, hlast⟩
  · have hlen : (Radix64.encode d).length = 31 := by rw [Radix64.encode_length, hd]
    obtain ⟨v, hlast, hv⟩ := Radix64.encode_getLast?_unused_zero d (List.ne_nil_of_length_eq_add_one hd)
    rw [Radix64.unusedBits, hlen, hd] at hv
    exact ⟨hlen, v, Radix64.extractLsb'_eq_zero_of_dvd hv, hlast⟩

end Sys2Proof.Machine
end

section
/-! PROOFS. Which issues are rejected and with what code, and writes while BUSY (60_exceptions.md R221 to R231). -/

namespace Sys2Proof

/-- A word that decodes is well formed, and its opcode is its command's. -/
theorem fields_of_decode_ok {w : Word} {i : Instr} (hd : decode w = .ok i) :
    wordWf w = true ∧ i.op.toNat = w.toNat % 256 := by
  have hw : wordWf w = true := by
    by_contra hw
    obtain ⟨r, hr⟩ := (wordWf_eq_false_iff_decode_error w).1 (Bool.of_not_eq_true hw)
    rw [hd] at hr
    contradiction
  obtain ⟨j, hj, hop, _⟩ := decode_ok hw
  obtain rfl : i = j := Except.ok.inj (hd.symm.trans hj)
  exact ⟨hw, by rw [hop, opField_toNat]⟩

end Sys2Proof

namespace Sys2Proof.Machine

/-- The commands each check is made for, by opcode (60_exceptions.md R225 to R227). -/
theorem needs_iff_op (i : Instr) :
    (needsInit i = true ↔ i.op.toNat = 2 ∨ i.op.toNat = 3 ∨ i.op.toNat = 4 ∨ i.op.toNat = 5)
      ∧ (needsKeylen i = true ↔ i.op.toNat = 3 ∨ i.op.toNat = 5 ∨ i.op.toNat = 6 ∨ i.op.toNat = 7)
      ∧ (needsCost i = true ↔ i.op.toNat = 6 ∨ i.op.toNat = 7) := by
  cases i <;> simp [needsInit, needsKeylen, needsCost, Instr.op]

/-- The decoder's two rejections come first in the order of 60_exceptions.md R228. -/
theorem rejectionCode_of_decode_error {w : Word} {r : Reject} (hd : decode w = .error r) (init : Bool)
    (keylen cost : Nat) : rejectionCode w.toNat init keylen cost = (rejectCode r).toNat := by
  have hw : wordWf w = false := (wordWf_eq_false_iff_decode_error w).2 ⟨r, hd⟩
  obtain ⟨hop, he⟩ | ⟨hop, hres, he⟩ := decode_error hw <;> obtain rfl := Except.error.inj (hd.symm.trans he)
  · rw [rejectionCode, if_pos hop]
    rfl
  · rw [rejectionCode, if_neg (by omega), if_pos hres]
    rfl

/-- For a word that decodes, the code is that of the first check its command fails, and 0 where it fails none. -/
theorem rejectionCode_of_decode_ok {w : Word} {i : Instr} (hd : decode w = .ok i) (s : State) :
    rejectionCode w.toNat s.status.init s.keylen.toNat s.cost.toNat
      = (issueCheck i s).elim 0 fun r => (rejectCode r).toNat := by
  obtain ⟨hw, hop⟩ := fields_of_decode_ok hd
  obtain ⟨hlegal, hrsv, hx⟩ := (wordWf_iff w).1 hw
  obtain ⟨hinit, hkeylen, hcost⟩ := needs_iff_op i
  rw [hop] at hinit hkeylen hcost
  rw [rejectionCode, if_neg (by omega), if_neg (by omega), issueCheck_eq]
  simp only [hinit, hkeylen, hcost]
  split_ifs <;> rfl

/-- The word `w` issued on `s` is rejected for `r`: `r` has R228's code, and written to CMD or run whole the word leaves
the record of `r` in STATUS and nothing else (60_exceptions.md R229). -/
def State.Rejects (s : State) (w : Word) (r : Reject) : Prop :=
  rejectionCode w.toNat s.status.init s.keylen.toNat s.cost.toNat = (rejectCode r).toNat
    ∧ s.hostWrite .cmd w = { s with status := .rejectedWith (rejectCode r) s.status.init }
    ∧ runWord w s = .next { s with status := .rejectedWith (rejectCode r) s.status.init }

theorem rejects_of_decode_error {w : Word} {s : State} {r : Reject} (hb : s.status.busy = false)
    (hd : decode w = .error r) : s.Rejects w r :=
  ⟨rejectionCode_of_decode_error hd _ _ _, by rw [hostWrite_cmd hb, issueWord_error hd hb], runWord_error hd hb⟩

theorem rejects_of_issueCheck {w : Word} {s : State} {i : Instr} {r : Reject} (hb : s.status.busy = false)
    (hd : decode w = .ok i) (hc : issueCheck i s = some r) : s.Rejects w r := by
  refine ⟨by rw [rejectionCode_of_decode_ok hd, hc]; rfl, ?_, ?_⟩
  · simp only [hostWrite_cmd hb, State.issueWord, hd, issueCommand_reject id hb hc, reject_eq r hb]
  · rw [runWord_ok s hd, exec_reject hb hc, reject_eq r hb]

/-- Every issue on an IDLE engine is rejected, or has code 0 and is accepted (60_exceptions.md R221). -/
theorem issue_rejects_or_accepts (w : Word) {s : State} (hb : s.status.busy = false) :
    (∃ r, s.Rejects w r)
      ∨ (rejectionCode w.toNat s.status.init s.keylen.toNat s.cost.toNat = 0
        ∧ ∃ i, s.hostWrite .cmd w = s.clearRecord.accept i) := by
  cases hd : decode w with
  | error r => exact .inl ⟨r, rejects_of_decode_error hb hd⟩
  | ok i =>
    cases hc : issueCheck i s with
    | some r => exact .inl ⟨r, rejects_of_issueCheck hb hd hc⟩
    | none =>
      refine .inr ⟨by rw [rejectionCode_of_decode_ok hd, hc]; rfl, i, ?_⟩
      simp only [hostWrite_cmd hb, State.issueWord, hd, issueCommand_accept id (State.accepts_iff.2 ⟨hb, hc⟩), id]

theorem rejectCode_toNat_ne_zero (r : Reject) : (rejectCode r).toNat ≠ 0 := by
  cases r <;> decide

/-- Settles O4: a rejection shows its own code, which is never 0, and an accepted issue shows BUSY and code 0. -/
theorem rejectionReportsTheFirstCondition : Obligations.RejectionReportsTheFirstCondition := by
  unfold Obligations.RejectionReportsTheFirstCondition
  refine ⟨fun w s hb => ⟨_, rfl, ?_⟩, fun _ => ⟨rfl, rfl⟩, by decide, fun _ _ _ => rfl, fun _ _ _ => rfl⟩
  obtain ⟨r, hcode, hwrite, _⟩ | ⟨hcode, i, hwrite⟩ := issue_rejects_or_accepts w hb
  · rw [hcode, hwrite]
    simp [Status.rejectedWith, rejectCode_toNat_ne_zero]
  · rw [hcode, hwrite]
    simp

/-- Settles O5: an issue with a code other than 0 is one of `State.Rejects`. -/
theorem rejectionChangesStatusOnly : Obligations.RejectionChangesStatusOnly := by
  unfold Obligations.RejectionChangesStatusOnly
  intro w s hb hne
  obtain ⟨r, hcode, hwrite, hrun⟩ | ⟨hzero, _⟩ := issue_rejects_or_accepts w hb
  · rw [hcode, hwrite, BitVec.ofNat_toNat, BitVec.setWidth_eq]
    exact ⟨rfl, hrun⟩
  · exact absurd hzero hne

/-- The offsets of CMD and the RW registers (20_memory.md R63). -/
def writableOffset (a : Nat) : Prop :=
  a = 0x004 ∨ a = 0x00C ∨ a = 0x010 ∨ a = 0x014 ∨ a = 0x018 ∨ (0x020 ≤ a ∧ a < 0x06C) ∨ (0x070 ≤ a ∧ a < 0x080)

theorem Reg.writable_iff_offset (r : Reg) : r.writable = true ↔ writableOffset r.offset := by
  unfold writableOffset
  cases r with
  | id | cmd | status | cost | keylen | blkL | blkR | reserved => decide
  | keyw k | saltw k => simp only [Reg.writable, Reg.offset, true_iff]; omega
  | digest k | p k | s b k => simp only [Reg.writable, Reg.offset, Bool.false_eq_true, false_iff]; omega

theorem regAt_writable_iff {a : Nat} (h4 : a % 4 = 0) (hw : a < 0x2000) :
    (regAt a).writable = true ↔ writableOffset a := by
  obtain ⟨hreg, hres⟩ | ⟨_, _, hoff⟩ := regAt_cases a h4 hw
  · rw [hreg]
    unfold reservedOffset at hres
    unfold writableOffset
    simp only [Reg.writable, Bool.false_eq_true, false_iff]
    omega
  · rw [Reg.writable_iff_offset, hoff]

/-- A write while BUSY, by its offset (60_exceptions.md R231). -/
theorem hostAccess_write_busy {s : State} {a : Nat} (hb : s.status.busy = true) (h4 : a % 4 = 0) (hw : a < 0x2000)
    (v : Word) :
    (writableOffset a → hostAccess (.write a 4 v) s = .next s.dropWrite)
      ∧ (¬writableOffset a → hostAccess (.write a 4 v) s = .next s) := by
  rw [hostAccess_write h4 hw, hostWrite_busy hb, ← regAt_writable_iff h4 hw]
  exact ⟨fun h => by rw [if_pos h], fun h => by rw [if_neg h]⟩

theorem engineTurn_drop {s t : State} (h : engineTurn s = .next t) : t.status.drop = s.status.drop := by
  obtain he | ⟨i, _, _, rfl⟩ := engineTurn_status h
  · exact congrArg Status.drop he
  · exact s.status.completed_drop i

/-- Every issue on an IDLE engine clears DROP, whether it is rejected or accepted (60_exceptions.md R221). -/
theorem issue_clears_drop (w : Word) {s : State} (hb : s.status.busy = false) :
    (s.hostWrite .cmd w).status.drop = false := by
  obtain ⟨r, _, hwrite, _⟩ | ⟨_, i, hwrite⟩ := issue_rejects_or_accepts w hb
  · rw [hwrite]
    rfl
  · rw [hwrite]
    simp

/-- Settles O25: the offsets of R231's two clauses are those of the writable registers and the others. -/
theorem busyWritesAreDropped : Obligations.BusyWritesAreDropped := by
  unfold Obligations.BusyWritesAreDropped
  refine ⟨fun s a v hb h4 ha => ?_, fun s a v hb h4 hw ha => ?_, fun _ _ => engineTurn_drop,
    fun _ w hb => issue_clears_drop w hb⟩
  · have hw : a < 0x2000 := by omega
    exact (hostAccess_write_busy hb h4 hw v).1 ha
  · have hn : ¬writableOffset a := by
      unfold reservedOffset at ha
      unfold writableOffset
      omega
    exact (hostAccess_write_busy hb h4 hw v).2 hn

end Sys2Proof.Machine
end

section
/-! PROOFS. Reset abandons the command in flight, and nothing else ends one early (70_reset_and_hazards.md R250 to R252). -/

namespace Sys2Proof.Machine

theorem step_reset (s : State) (rest : List Input) :
    step { s with inputs := .reset :: rest } = .next (State.applyReset { s with inputs := rest }) := rfl

theorem Status.reset_word : Status.reset.word = 0x00000000#32 := by decide

/-- While BUSY = 1 a host access is a read, a dropped write or a write without effect (60_exceptions.md R231). -/
theorem hostAccess_keeps_busy {acc : Access} {s t : State} (h : hostAccess acc s = .next t)
    (hb : s.status.busy = true) : t.status.busy = true := by
  obtain ⟨a, _, _, _, rfl⟩ | ⟨a, v, _, _, _, ⟨_, rfl | rfl⟩ | ⟨hi, _⟩ | ⟨hi, _⟩⟩ := hostAccess_cases h
  · exact hb
  · exact hb
  · exact hb
  · rw [hb] at hi; contradiction
  · rw [hb] at hi; contradiction

/-- While BUSY = 1 a command is dropped (60_exceptions.md R221). -/
theorem exec_keeps_busy {i : Instr} {s t : State} (h : exec i s = .next t) (hb : s.status.busy = true) :
    t.status.busy = true := by
  rw [exec_busy i hb] at h
  injection h with h
  rw [← h]
  exact hb

/-- While BUSY = 1 a word that decoding refuses is dropped too (60_exceptions.md R221). -/
theorem issueIllegal_keeps_busy (r : Reject) {s : State} (hb : s.status.busy = true) :
    (issueIllegal r s).status.busy = true := by
  rw [issueIllegal_busy hb]
  exact hb

/-- Only the FINISH row ends a command, and it sets DONE (42_eks_bcrypt.md R152). -/
theorem engineTurn_keeps_busy_or_sets_done {s t : State} (h : engineTurn s = .next t) (hb : s.status.busy = true) :
    t.status.busy = true ∨ t.status.done = true := by
  obtain he | ⟨i, _, _, rfl⟩ := engineTurn_status h
  · exact .inl (he ▸ hb)
  · exact .inr rfl

/-- Every step but reset leaves the command in flight or completes it. -/
theorem step_keeps_busy_or_sets_done {s t : State} (h : step s = .next t) (hb : s.status.busy = true)
    (hr : s.inputs.head? ≠ some .reset) : t.status.busy = true ∨ t.status.done = true := by
  obtain ⟨_, ht⟩ | ⟨a, rest, _, ht⟩ | ⟨rest, hin, _⟩ | ⟨rest, _, ht⟩ | ⟨w, i, rest, _, _, ht⟩
    | ⟨w, r, rest, _, _, rfl⟩ := step_cases h
  · exact engineTurn_keeps_busy_or_sets_done ht hb
  · exact .inl (hostAccess_keeps_busy ht hb)
  · exact absurd (by rw [hin]; rfl) hr
  · exact engineTurn_keeps_busy_or_sets_done ht hb
  · exact .inl (exec_keeps_busy ht hb)
  · exact .inl (issueIllegal_keeps_busy r hb)

/-- Settles O18: a reset input leaves the reset values and an IDLE engine, whose turns change nothing; every other step
leaves the command in flight or completes it. -/
theorem resetAbandonsTheCommandInFlight : Obligations.ResetAbandonsTheCommandInFlight := by
  unfold Obligations.ResetAbandonsTheCommandInFlight
  refine fun s rest => ⟨⟨_, step_reset s rest, Status.reset_word, rfl, rfl, Vector.get_replicate 6 0#32, rfl,
    fun _ => rfl, fun _ _ => rfl, rfl, rfl, Vector.get_replicate 73 0#8, Vector.get_replicate 16 0#8, rfl, rfl,
    fun k => engineTurns_idle k rfl⟩, fun u h hb hu hd => ?_⟩
  by_contra hr
  obtain hbusy | hdone := step_keeps_busy_or_sets_done h hb hr
  · rw [hu] at hbusy; contradiction
  · rw [hd] at hdone; contradiction

end Sys2Proof.Machine
end

section
/-! PROOFS. Decoding and encoding agree (30_encoding.md R82, R85), and what decoding gives a step of the machine. -/

namespace Sys2Proof

theorem roundTrip (i : Instr) : Laws.RoundTrip.Statement i := by
  cases i with
  | nop => exact Laws.RoundTrip.nop
  | init => exact Laws.RoundTrip.init
  | enc => exact Laws.RoundTrip.enc
  | expkey x => exact Laws.RoundTrip.expkey x
  | expsalt x => exact Laws.RoundTrip.expsalt x
  | expstate x => exact Laws.RoundTrip.expstate x
  | eks x => exact Laws.RoundTrip.eks x
  | bcrypt x => exact Laws.RoundTrip.bcrypt x

theorem decode_encode (i : Instr) : decode (encode i) = .ok i := by
  obtain ⟨_, _, hd⟩ := roundTrip i
  exact hd

/-- A word that decodes has the three fields of its command's encoding, and no others (30_encoding.md R81). -/
theorem eq_encode_of_decode_ok {w : Word} {i : Instr} (hd : decode w = .ok i) : w = encode i := by
  obtain ⟨hw, _⟩ := fields_of_decode_ok hd
  obtain ⟨j, hj, hop, hx⟩ := decode_ok hw
  obtain rfl : i = j := Except.ok.inj (hd.symm.trans hj)
  obtain ⟨_, hrsv, _⟩ := (wordWf_iff w).1 hw
  rw [encode, hop, hx, ← (rsvField_eq_zero w).2 hrsv]
  exact word_eq_fields w

/-- Settles O2: `decode_encode` one way, and a decoded word is made of its command's fields the other way. -/
theorem decodeSucceedsExactlyOnEncodings : Obligations.DecodeSucceedsExactlyOnEncodings := by
  unfold Obligations.DecodeSucceedsExactlyOnEncodings
  exact fun w i => ⟨eq_encode_of_decode_ok, fun hw => hw ▸ decode_encode i⟩

/-- Settles O1: sixteen fixed words, decoded. -/
theorem opcodeTableWordsDecode : Obligations.OpcodeTableWordsDecode := by
  unfold Obligations.OpcodeTableWordsDecode
  decide

end Sys2Proof

namespace Sys2Proof.Machine

/-- A table instruction decodes as the command word it stands for (30_encoding.md R80). -/
theorem decode_tableWord {nbits w : Nat} {i : Instr} (h : decodeTableWord nbits w = some i) :
    decode (tableWord nbits w) = .ok i := by
  unfold decodeTableWord at h
  split at h
  · split at h
    case h_1 j hd =>
      obtain rfl := Option.some.inj h
      exact hd
    case h_2 => contradiction
  · contradiction

/-- A word that stands first among the inputs to be run is run by the next step. -/
theorem step_run (s : State) (w : Word) (rest : List Input) :
    step { s with inputs := .run w :: rest } = runWord w { s with inputs := rest } := rfl

theorem step_placeCommand (s : State) (w : Word) : step (s.placeCommand w) = runWord w s := rfl

/-- Settles O16, from `runWord` on a word that decodes or does not, and `issueWord` for a plain write of CMD. -/
theorem stepRunsTheIssuedCommand : Obligations.StepRunsTheIssuedCommand := by
  unfold Obligations.StepRunsTheIssuedCommand
  refine ⟨?run, ?runIllegal, ?table, ?write, ?noInput⟩
  case run =>
    intro s w i rest hd
    rw [step_run, runWord_ok _ hd]
  case runIllegal =>
    intro s w r rest hd
    simp only [step_run, runWord, hd]
  case table =>
    intro s nbits w i hd
    rw [State.withFetchWord, step_placeCommand, runWord_ok _ (decode_tableWord hd)]
  case write =>
    intro s w i rest hb hd
    have hissue : State.issueWord w { s with inputs := rest } = issueCommand i id { s with inputs := rest } := by
      simp only [State.issueWord, hd]
    rw [← hissue]
    exact hostAccess_write_cmd (s := { s with inputs := rest }) hb w
  case noInput =>
    intro s hs
    simp only [step, hs]

end Sys2Proof.Machine
end

section
/-! PROOFS. The machine's invariant at reset and over every step, and what cannot fail under it (10_state.md R26 to R38,
60_exceptions.md R220). -/

namespace Sys2Proof.Machine

/-- Settles O20, by the kind of the step's input: each kind keeps the invariant (Sys2Proof/Laws/Invariant.lean). -/
theorem everyStepKeepsTheInvariant : Obligations.EveryStepKeepsTheInvariant := by
  unfold Obligations.EveryStepKeepsTheInvariant
  intro s t h hstep
  obtain ⟨_, ht⟩ | ⟨a, rest, _, ht⟩ | ⟨rest, _, rfl⟩ | ⟨rest, _, ht⟩ | ⟨w, i, rest, _, _, ht⟩
    | ⟨w, r, rest, _, _, rfl⟩ := step_cases hstep
  · exact engineTurn_inv h ht
  · exact hostAccess_inv (Inv.setInputs h rest) ht
  · exact applyReset_inv
  · exact engineTurn_inv (Inv.setInputs h rest) ht
  · exact exec_inv (Inv.setInputs h rest) ht
  · exact issueIllegal_inv (Inv.setInputs h rest) r

/-- Settles O19: the reset state is what a reset input leaves of it. -/
theorem resetMeetsTheInvariant : Obligations.ResetMeetsTheInvariant := by
  unfold Obligations.ResetMeetsTheInvariant
  exact applyReset_inv (s := State.reset)

/-- Under the invariant the engine's turn has a row, or BUSY = 0 and it does nothing. -/
theorem engineTurn_next {s : State} (h : s.Inv) : ∃ t, engineTurn s = .next t := by
  cases hb : s.status.busy with
  | false => exact ⟨s, engineTurn_idle hb⟩
  | true =>
    obtain ⟨t, hr⟩ := sequencerStep_next (h.busy hb)
    exact ⟨t, engineTurn_row hb hr⟩

theorem runWord_next (w : Word) (s : State) : ∃ t, runWord w s = .next t := by
  cases hd : decode w with
  | ok i => exact ⟨_, by rw [runWord_ok s hd, exec_eq]⟩
  | error r => exact ⟨issueIllegal r s, by simp only [runWord, hd]⟩

/-- A host access is refused or answers a next state. -/
theorem hostAccess_ne_fault (acc : Access) (s : State) (f : Fault) : hostAccess acc s ≠ .fault f := by
  cases acc with
  | read a width | write a width v =>
    simp only [hostAccess]
    split <;> simp

/-- Under the invariant no input makes the machine fault. -/
theorem takeInput_ne_fault {s : State} (h : s.Inv) (inp : Input) (f : Fault) : takeInput inp s ≠ .fault f := by
  cases inp with
  | access a => exact hostAccess_ne_fault a s f
  | reset => simp [takeInput]
  | engine =>
    obtain ⟨t, ht⟩ := engineTurn_next h
    simp [takeInput, ht]
  | run w =>
    obtain ⟨t, ht⟩ := runWord_next w s
    simp [takeInput, ht]

theorem step_ne_fault {s : State} (h : s.Inv) (f : Fault) : step s ≠ .fault f := by
  cases hin : s.inputs with
  | nil =>
    obtain ⟨t, ht⟩ := engineTurn_next h
    simp [step, hin, ht]
  | cons inp rest =>
    simp only [step, hin]
    exact takeInput_ne_fault (Inv.setInputs h rest) inp f

/-- Settles O21: a command in flight always has a row, and an issue always answers. -/
theorem nothingFailsUnderTheInvariant : Obligations.NothingFailsUnderTheInvariant := by
  unfold Obligations.NothingFailsUnderTheInvariant
  exact fun s h => ⟨step_ne_fault h, engineTurn_next h, fun i => ⟨_, exec_eq i s⟩⟩

/-- Settles O17: each register at its reset value, and no input and no command for the first step. -/
theorem resetStateHoldsTheResetValues : Obligations.ResetStateHoldsTheResetValues := by
  unfold Obligations.ResetStateHoldsTheResetValues
  refine ⟨Status.reset_word, rfl, rfl, rfl, rfl, Vector.get_replicate 73 0#8, Vector.get_replicate 16 0#8,
    Vector.get_replicate 6 0#32, rfl, rfl, fun _ => rfl, fun _ _ => rfl, fun i hi => ?_, rfl⟩
  rw [issueCheck_eq, if_pos ⟨hi, rfl⟩]

end Sys2Proof.Machine
end

section
/-! PROOFS. What an issue leaves, and each command done whole: the accepted ones (41_key_schedule.md section 2,
42_eks_bcrypt.md section 3) and the registers that no command changes (30_encoding.md R84). -/

namespace Sys2Proof.Machine

/-- The issue of an accepted command by a write of CMD (60_exceptions.md R221). -/
theorem issueWord_encode_accept {i : Instr} {s : State} (ha : s.Accepts i) :
    s.issueWord (encode i) = s.clearRecord.accept i := by
  simp only [State.issueWord, decode_encode, issueCommand_accept id ha, id]

theorem hostAccess_write_encode {i : Instr} {s : State} (ha : s.Accepts i) :
    hostAccess (.write 0x004 4 (encode i)) s = .next (s.clearRecord.accept i) := by
  rw [hostAccess_write_cmd ha.1, issueWord_encode_accept ha]

theorem hostWrite_cmd_encode {i : Instr} {s : State} (ha : s.Accepts i) :
    s.hostWrite .cmd (encode i) = s.clearRecord.accept i := by
  rw [hostWrite_cmd ha.1, issueWord_encode_accept ha]

/-- STATUS once a command is accepted: BUSY, and INIT as it was (60_exceptions.md R221). -/
theorem accept_status (i : Instr) (s : State) :
    (s.clearRecord.accept i).status
      = { busy := true, done := false, err := false, init := s.status.init, ecode := 0#4, drop := false } := by
  rw [State.accept_status]
  rfl

/-- Where an accepted command starts (42_eks_bcrypt.md R152, "At acceptance"). -/
theorem accept_start (i : Instr) (s : State) :
    (i = .nop → (s.accept i).seq.phase = .finish) ∧ (i = .enc → (s.accept i).seq.phase = .enc)
      ∧ (i = .init ∨ needsCost i = true → (s.accept i).seq.phase = .load) := by
  cases i <;> simp [State.accept, startPhase, needsCost]

/-- Every command that starts with a key-XOR starts a single expansion at its first word. -/
theorem accept_keyxor {i : Instr} {s : State} (h : (s.accept i).seq.phase = .keyxor) :
    (s.accept i).seq.stage = .single ∧ (s.accept i).seq.koff = 0 ∧ (s.accept i).seq.n = 0 := by
  cases i with
  | expkey x | expsalt x | expstate x => exact ⟨rfl, rfl, rfl⟩
  | nop | init | enc | eks x | bcrypt x => simp [State.accept, startPhase] at h

/-- Settles O6: the write accepts the command, and acceptance writes STATUS, the sequencer and the unseen results only. -/
theorem acceptedCommandGoesInFlight : Obligations.AcceptedCommandGoesInFlight := by
  unfold Obligations.AcceptedCommandGoesInFlight
  intro i s ha
  obtain ⟨hnop, henc, hload⟩ := accept_start i s.clearRecord
  refine ⟨_, hostAccess_write_encode ha, accept_status i s, State.accept_cur _ i, by simp [State.SameData], by simp,
    by simp, by simp, by simp, hnop, henc, hload, ?expkey, ?expsalt, ?expstate, accept_keyxor⟩
  all_goals
    rintro x rfl
    exact ⟨rfl, rfl, rfl, rfl⟩

/-- An accepted command that leaves INIT = 1, as one record: its effect, STATUS showing DONE, an IDLE sequencer. -/
theorem exec_accept_init {i : Instr} {s : State} (ha : s.Accepts i) (hi : (s.status.init || setsInit i) = true) :
    ∃ (q : Seq) (u : Unseen), q.phase = .idle
      ∧ exec i s = .next { effectOf i s with status := .doneWith true, seq := q, unseen := u } := by
  obtain ⟨q, hq, he⟩ := exec_accept_seq ha
  rw [hi] at he
  exact ⟨q, _, hq, he⟩

/-- A command that needs INIT and KEYLEN but not COST. -/
theorem accepts_of_init_keylen {i : Instr} {s : State} (hc : needsCost i = false) (hb : s.status.busy = false)
    (hi : s.status.init = true) (hk : 1 ≤ s.keylen.toNat) (hk' : s.keylen.toNat ≤ 73) : s.Accepts i :=
  ⟨hb, fun _ => hi, fun _ => ⟨hk, hk'⟩, by simp [hc]⟩

/-- A command that needs KEYLEN and COST but not INIT. -/
theorem accepts_of_keylen_cost {i : Instr} {s : State} (hn : needsInit i = false) (hb : s.status.busy = false)
    (hk : 1 ≤ s.keylen.toNat) (hk' : s.keylen.toNat ≤ 73) (hc : 4 ≤ s.cost.toNat) (hc' : s.cost.toNat ≤ 31) :
    s.Accepts i :=
  ⟨hb, by simp [hn], fun _ => ⟨hk, hk'⟩, fun _ => ⟨hc, hc'⟩⟩

/-- Settles O10: EXPKEY's effect is `expandKey` with the key bytes. -/
theorem expkeyExpandsWithTheKey : Obligations.ExpkeyExpandsWithTheKey := by
  unfold Obligations.ExpkeyExpandsWithTheKey
  intro x s hb hi hk hk'
  simpa only [effectOf, State.expandWithKey, Cipher.expandKey, State.keyBytes] using
    exec_accept_init (i := .expkey x) (accepts_of_init_keylen rfl hb hi hk hk') (by simp [hi])

/-- Settles O11: EXPSALT's effect is `expandKey` with the salt bytes, and its checks do not read KEYLEN. -/
theorem expsaltExpandsWithTheSalt : Obligations.ExpsaltExpandsWithTheSalt := by
  unfold Obligations.ExpsaltExpandsWithTheSalt
  intro x s hb hi
  simpa only [effectOf, State.expandWithSalt, Cipher.expandKey, State.saltBytes] using
    exec_accept_init (i := .expsalt x) (accepts_of_no_operand rfl rfl hb fun _ => hi) (by simp [hi])

/-- Settles O12: EXPSTATE's effect is `expandState` with the salt and the key bytes. -/
theorem expstateExpandsWithSaltAndKey : Obligations.ExpstateExpandsWithSaltAndKey := by
  unfold Obligations.ExpstateExpandsWithSaltAndKey
  intro x s hb hi hk hk'
  simpa only [effectOf, State.expandWithBoth, Cipher.expandState, State.keyBytes, State.saltBytes] using
    exec_accept_init (i := .expstate x) (accepts_of_init_keylen rfl hb hi hk hk') (by simp [hi])

/-- Settles O13: EKS sets INIT itself, and its effect is the Eks schedule. -/
theorem eksRunsTheSchedule : Obligations.EksRunsTheSchedule := by
  unfold Obligations.EksRunsTheSchedule
  intro x s hb hk hk' hc hc'
  exact exec_accept_init (i := .eks x) (accepts_of_keylen_cost rfl hb hk hk' hc hc') (Bool.or_true _)

/-- Settles O14: BCRYPT sets INIT itself, and its effect is the Eks schedule and the digest of its state. -/
theorem bcryptRunsTheScheduleAndTheDigest : Obligations.BcryptRunsTheScheduleAndTheDigest := by
  unfold Obligations.BcryptRunsTheScheduleAndTheDigest
  intro x s hb hk hk' hc hc'
  exact exec_accept_init (i := .bcrypt x) (accepts_of_keylen_cost rfl hb hk hk' hc hc') (Bool.or_true _)

/-- Only ENCRYPT's effect writes BLK, only BCRYPT's DIGEST, and NOP's and ENCRYPT's leave P and S (30_encoding.md R84). -/
theorem effectOf_frame (i : Instr) (s : State) :
    (i ≠ .enc → (effectOf i s).blkL = s.blkL ∧ (effectOf i s).blkR = s.blkR)
      ∧ ((∀ x, i ≠ .bcrypt x) → (effectOf i s).digest = s.digest)
      ∧ (i = .nop ∨ i = .enc → (effectOf i s).cipher = s.cipher) := by
  cases i <;> simp [effectOf]

/-- Settles O15: a dropped or rejected command writes STATUS only, a completed one its effect as well. -/
theorem commandsLeaveOtherRegisters : Obligations.CommandsLeaveOtherRegisters := by
  unfold Obligations.CommandsLeaveOtherRegisters
  intro i s t h
  obtain ⟨_, rfl⟩ | ⟨r, _, _, rfl⟩ | ⟨_, rfl⟩ := exec_cases h
  · simp [State.SameOperands]
  · simp [State.SameOperands]
  · obtain ⟨hblk, hdigest, hcipher⟩ := effectOf_frame i (s.clearRecord.accept i)
    refine ⟨by simp [State.SameOperands], by simpa using hblk, by simpa using hdigest, by simpa using hcipher, ?_,
      by simp, by simp, by simp⟩
    rintro rfl
    rfl

end Sys2Proof.Machine
end

section
/-! PROOFS. The register window: its map, and what each offset reads as and stores (20_memory.md R60 to R65,
10_state.md R24 to R42, 70_reset_and_hazards.md R255, R256). -/

namespace Sys2Proof.Machine

/-- Settles O31, from the map's two directions (`regAt_offset`, `regAt_cases`). -/
theorem registerMapIsOneToOne : Obligations.RegisterMapIsOneToOne := by
  unfold Obligations.RegisterMapIsOneToOne
  refine ⟨fun r hr => regAt_offset hr, fun a h4 hw => ?_, fun a h4 hw hn => ?_⟩
  · obtain ⟨hreg, hres⟩ | ⟨hreg, hres, _⟩ := regAt_cases a h4 hw
    · exact iff_of_true hreg hres
    · exact iff_of_false hreg hres
  · obtain ⟨_, hres⟩ | ⟨_, _, hoff⟩ := regAt_cases a h4 hw
    · exact absurd hres hn
    · exact hoff

/-- An access outside the interface is refused, whichever way it goes (20_memory.md R60, R62). -/
theorem hostAccess_refused {a width : Nat} (h : accessWf a width = false) (v : Word) (s : State) :
    (∃ r, hostAccess (.read a width) s = .refused r) ∧ ∃ r, hostAccess (.write a width v) s = .refused r := by
  cases hr : accessRefusal a width with
  | none =>
    rw [(accessRefusal_eq_none a width).1 hr] at h
    contradiction
  | some r => exact ⟨⟨r, by simp only [hostAccess, hr]⟩, ⟨r, by simp only [hostAccess, hr]⟩⟩

/-- Settles O32: an access is refused exactly where it is not well formed. -/
theorem accessesOutsideTheInterfaceAreRefused : Obligations.AccessesOutsideTheInterfaceAreRefused := by
  unfold Obligations.AccessesOutsideTheInterfaceAreRefused
  refine ⟨fun s a width v h => hostAccess_refused ?_ v s, fun s a v h => hostAccess_refused ?_ v s,
    fun s a v h4 hw => ⟨⟨_, hostAccess_read h4 hw s⟩, ⟨_, hostAccess_write h4 hw v s⟩⟩⟩
  · obtain h | h := h <;> simp [accessWf, accessWidthOk, accessAligned, h]
  · have hout : accessInWindow a = false := decide_eq_false (Nat.not_lt.2 h)
    rw [accessWf, hout, Bool.and_false]

/-- Settles O33: a read, a store and a dropped write write no result, and an issue writes STATUS and the sequencer. -/
theorem hostAccessesLeaveTheEnginesResults : Obligations.HostAccessesLeaveTheEnginesResults := by
  unfold Obligations.HostAccessesLeaveTheEnginesResults
  intro acc s t h
  obtain ⟨hinit, _⟩ := hostAccess_init h
  obtain ⟨a, _, _, _, rfl⟩ | ⟨a, v, rfl, _, _, ⟨_, rfl | rfl⟩ | ⟨_, _, rfl⟩ | ⟨hb, rfl, rfl⟩⟩ := hostAccess_cases h
  · exact ⟨rfl, rfl, hinit, fun _ => rfl⟩
  · exact ⟨rfl, rfl, hinit, fun _ => rfl⟩
  · exact ⟨rfl, rfl, hinit, fun _ => rfl⟩
  · exact ⟨writeReg_cipher .., writeReg_digest .., hinit, fun _ => writeReg_seq ..⟩
  · obtain ⟨⟨hcipher, _, _, _, _, _, _, hdigest⟩, _⟩ := issueWord_frame v s
    refine ⟨hcipher, hdigest, hinit, ?_⟩
    rintro (hne | hbusy)
    · exact absurd rfl (hne v)
    · rw [hb] at hbusy; contradiction

/-- Settles O34, bit by bit over the 512 values that the six fields can have. -/
theorem statusWordLayout : Obligations.StatusWordLayout := by
  unfold Obligations.StatusWordLayout
  rintro ⟨busy, done, err, init, ecode, drop⟩
  revert busy done err init ecode drop
  decide +kernel

/-- A read of a register other than STATUS: its word, or a free value that uses up a draw. -/
theorem hostAccess_read_register {s : State} {a : Nat} {r : Reg} (h4 : a % 4 = 0) (hw : a < 0x2000) (hr : regAt a = r)
    (hs : r ≠ .status) :
    hostAccess (.read a 4) s = .next { s with
      reads := (a, if s.readIsFree r then Config.freeWord s.draws else s.regValue r) :: s.reads
      draws := if s.readIsFree r then s.draws + 1 else s.draws } := by
  rw [hostAccess_read h4 hw, State.hostRead, hr, unseenAfterRead_of_ne hs, State.readValue]

theorem hostAccess_read_exact {s : State} {a : Nat} {r : Reg} (h4 : a % 4 = 0) (hw : a < 0x2000) (hr : regAt a = r)
    (hs : r ≠ .status) (hf : s.readIsFree r = false) :
    hostAccess (.read a 4) s = .next { s with reads := (a, s.regValue r) :: s.reads } := by
  rw [hostAccess_read_register h4 hw hr hs]
  simp only [hf, Bool.false_eq_true, if_false]

theorem hostAccess_read_free {s : State} {a : Nat} {r : Reg} (h4 : a % 4 = 0) (hw : a < 0x2000) (hr : regAt a = r)
    (hf : s.readIsFree r = true) :
    hostAccess (.read a 4) s
      = .next { s with reads := (a, Config.freeWord s.draws) :: s.reads, draws := s.draws + 1 } := by
  have hs : r ≠ .status := fun hc => by rw [hc] at hf; contradiction
  rw [hostAccess_read_register h4 hw hr hs]
  simp only [hf, if_true]

/-- A read of P or S: its word where INIT = 1 and the host has seen the last result (10_state.md R41, R42). -/
theorem hostAccess_read_cipher {s : State} {a : Nat} {r : Reg} (hb : s.status.busy = false) (h4 : a % 4 = 0)
    (hw : a < 0x2000) (hr : regAt a = r) (hs : r ≠ .status)
    (hf : s.readIsFree r = (s.status.busy || !s.status.init || s.unseen.cipher)) :
    hostAccess (.read a 4) s = .next { s with
      reads := (a, if s.status.init = true ∧ s.unseen.cipher = false then s.regValue r
        else Config.freeWord s.draws) :: s.reads
      draws := if s.status.init = true ∧ s.unseen.cipher = false then s.draws else s.draws + 1 } := by
  by_cases h : s.status.init = true ∧ s.unseen.cipher = false
  · rw [hostAccess_read_exact h4 hw hr hs (by simp [hf, hb, h.1, h.2])]
    simp only [h, and_self, if_true]
  · have hfree : s.readIsFree r = true := by
      rw [hf, hb]
      cases hi : s.status.init <;> simp_all
    rw [hostAccess_read_free h4 hw hr hfree]
    simp only [h, if_false]

theorem hostAccess_read_id (s : State) :
    hostAccess (.read 0x000 4) s = .next { s with reads := (0x000, 0x42464531#32) :: s.reads } :=
  hostAccess_read_exact (r := .id) (by decide) (by decide) rfl (by decide) rfl

theorem hostAccess_read_status (s : State) :
    hostAccess (.read 0x008 4) s
      = .next { s with reads := (0x008, s.status.word) :: s.reads, unseen := s.unseenAfterRead .status } := by
  rw [hostAccess_read (by decide) (by decide), hostRead_status]

/-- A reserved offset reads as 0 in every state (20_memory.md R64). -/
theorem hostAccess_read_reserved (s : State) {a : Nat} (h4 : a % 4 = 0) (hr : reservedOffset a) :
    hostAccess (.read a 4) s = .next { s with reads := (a, 0#32) :: s.reads } := by
  have hw : a < 0x2000 := by unfold reservedOffset at hr; omega
  exact hostAccess_read_exact h4 hw (regAt_reserved hr) (by decide) rfl

/-- While BUSY = 1 every register but ID, CMD, STATUS and the reserved offsets reads as a free value
(70_reset_and_hazards.md R256). -/
theorem readIsFree_busy {s : State} (hb : s.status.busy = true) {a : Nat} (h4 : a % 4 = 0) (hw : a < 0x2000)
    (hid : a ≠ 0x000) (hcmd : a ≠ 0x004) (hstatus : a ≠ 0x008) (hres : ¬reservedOffset a) :
    s.readIsFree (regAt a) = true := by
  obtain ⟨_, hr⟩ | ⟨hr, _, hoff⟩ := regAt_cases a h4 hw
  · exact absurd hr hres
  · cases hreg : regAt a with
    | id => rw [hreg] at hoff; exact absurd hoff.symm hid
    | cmd => rw [hreg] at hoff; exact absurd hoff.symm hcmd
    | status => rw [hreg] at hoff; exact absurd hoff.symm hstatus
    | reserved => exact absurd hreg hr
    | cost | keylen | blkL | blkR | keyw k | saltw k | digest k | p i | s b i => simp [State.readIsFree, hb]

/-- Settles O26: ID, STATUS and the reserved offsets are never free, and every other read is. -/
theorem busyReadsAreFreeButIdAndStatus : Obligations.BusyReadsAreFreeButIdAndStatus := by
  unfold Obligations.BusyReadsAreFreeButIdAndStatus
  refine ⟨fun s hb => ⟨hostAccess_read_id s, ?_⟩, fun s a _ h4 hr => hostAccess_read_reserved s h4 hr,
    fun s a hb h4 hw hid hcmd hstatus hres => ?_⟩
  · rw [hostAccess_read_status, unseenAfterRead_busy hb]
  · exact hostAccess_read_free h4 hw rfl (readIsFree_busy hb h4 hw hid hcmd hstatus hres)

/-- Settles O27: CMD is never free and holds no word. -/
theorem cmdReadsAsZero : Obligations.CmdReadsAsZero := by
  unfold Obligations.CmdReadsAsZero
  exact fun s => hostAccess_read_exact (r := .cmd) (by decide) (by decide) rfl (by decide) rfl

/-- A word that lies inside a byte buffer is its four bytes (20_memory.md R65). -/
theorem bufferWord_of_lt {m : Nat} (buf : Vector Byte m) {k : Nat} (h : 4 * k + 3 < m) :
    bufferWord buf k = be32 buf[4 * k] buf[4 * k + 1] buf[4 * k + 2] buf[4 * k + 3] := by
  rw [bufferWord, getD_lt _ _ h, getD_lt _ _ (show 4 * k + 2 < m by omega), getD_lt _ _ (show 4 * k + 1 < m by omega),
    getD_lt _ _ (show 4 * k < m by omega)]

theorem be32_of_first (b : Byte) : be32 b 0 0 0 = b ++ 0#24 := by
  revert b
  decide +kernel

/-- The last word of KEYW holds one byte, the bytes the buffer does not have reading as zero (20_memory.md R65). -/
theorem bufferWord_key_last (key : Vector Byte 73) : bufferWord key 18 = key[72] ++ 0#24 := by
  rw [← be32_of_first, bufferWord, getD_ge key _ (show 73 ≤ 4 * 18 + 1 by decide),
    getD_ge key _ (show 73 ≤ 4 * 18 + 2 by decide), getD_ge key _ (show 73 ≤ 4 * 18 + 3 by decide),
    getD_lt key _ (show 4 * 18 < 73 by decide)]

/-- Settles O28, register by register: each word as it stands, and free exactly where the clause says so. -/
theorem idleReadsReturnTheRegisters : Obligations.IdleReadsReturnTheRegisters := by
  unfold Obligations.IdleReadsReturnTheRegisters
  intro s hb
  refine ⟨hostAccess_read_id s, ?status, ?cost, ?keylen, ?blkL, ?blkR, ?keyw, ?keywLast, ?saltw, ?digest, ?p, ?s,
    fun a h4 hr => hostAccess_read_reserved s h4 hr⟩
  case status => rw [hostAccess_read_status, unseenAfterRead_idle hb]
  case cost =>
    have hword : s.regValue .cost = 0#24 ++ s.cost := BitVec.setWidth_eq_append (by decide)
    rw [hostAccess_read_exact (r := .cost) (by decide) (by decide) rfl (by decide) hb, hword]
  case keylen =>
    have hword : s.regValue .keylen = 0#25 ++ s.keylen := BitVec.setWidth_eq_append (by decide)
    rw [hostAccess_read_exact (r := .keylen) (by decide) (by decide) rfl (by decide) hb, hword]
  case blkL =>
    have hfree : s.readIsFree .blkL = s.unseen.blkL := by simp [State.readIsFree, hb]
    rw [hostAccess_read_register (r := .blkL) (by decide) (by decide) rfl (by decide), hfree]
    rfl
  case blkR =>
    have hfree : s.readIsFree .blkR = s.unseen.blkR := by simp [State.readIsFree, hb]
    rw [hostAccess_read_register (r := .blkR) (by decide) (by decide) rfl (by decide), hfree]
    rfl
  case keyw =>
    intro k
    rw [hostAccess_read_exact (by omega) (by omega) (regAt_keyw ⟨k.val, by omega⟩ rfl) (by simp) hb, State.regValue,
      bufferWord_of_lt _ (by simp only []; omega)]
  case keywLast =>
    have hword : s.regValue (.keyw 18) = s.key[72] ++ 0#24 := bufferWord_key_last s.key
    rw [hostAccess_read_exact (a := 0x068) (by decide) (by decide) (regAt_keyw 18 rfl) (by simp) hb, hword]
  case saltw =>
    intro k
    rw [hostAccess_read_exact (by omega) (by omega) (regAt_saltw k rfl) (by simp) hb, State.regValue,
      bufferWord_of_lt _ (by omega)]
  case digest =>
    intro k
    have hfree : s.readIsFree (.digest k) = s.unseen.digest := by simp [State.readIsFree, hb]
    rw [hostAccess_read_register (by omega) (by omega) (regAt_digest k rfl) (by simp), hfree]
    rfl
  case p => exact fun i => hostAccess_read_cipher hb (by omega) (by omega) (regAt_p i rfl) (by simp) rfl
  case s => exact fun b i => hostAccess_read_cipher hb (by omega) (by omega) (regAt_s b i rfl) (by simp) rfl

/-- A store while BUSY = 0 (20_memory.md R67). -/
theorem hostAccess_write_store {s : State} {a : Nat} {r : Reg} (hb : s.status.busy = false) (h4 : a % 4 = 0)
    (hw : a < 0x2000) (hr : regAt a = r) (hc : r ≠ .cmd) (v : Word) :
    hostAccess (.write a 4 v) s = .next (s.writeReg r v) := by
  rw [hostAccess_write h4 hw, hr, hostWrite_idle hb hc]

theorem extractLsb'_zero_eq_ofNat (v : Word) (n : Nat) : v.extractLsb' 0 n = BitVec.ofNat n v.toNat :=
  BitVec.eq_of_toNat_eq (by simp [BitVec.extractLsb'_toNat])

/-- A write to a register that is neither CMD nor RW stores nothing. -/
theorem writeReg_of_not_writable {r : Reg} (h : r.writable = false) (v : Word) (s : State) : s.writeReg r v = s := by
  cases r with
  | id | cmd | status | digest k | p i | s b i | reserved => rfl
  | cost | keylen | blkL | blkR | keyw k | saltw k => simp [Reg.writable] at h

theorem setBufferWord_get_extract {m : Nat} (buf : Vector Byte m) (k : Nat) (w : Word) (j : Fin m) :
    (setBufferWord buf k w).get j = if j.val / 4 = k then w.extractLsb' (24 - 8 * (j.val % 4)) 8 else buf.get j :=
  setBufferWord_getElem buf k w j j.isLt

/-- Settles O29, register by register; an offset outside CMD and the RW registers is one of no writable register. -/
theorem idleWritesStoreTheirRegister : Obligations.IdleWritesStoreTheirRegister := by
  unfold Obligations.IdleWritesStoreTheirRegister
  intro s v hb
  refine ⟨?cost, ?keylen, ?blkL, ?blkR, fun k => ⟨_, ?keyw, setBufferWord_get_extract s.key k v⟩,
    fun k => ⟨_, ?saltw, setBufferWord_get_extract s.salt k v⟩, fun a h4 hw ha => ?readOnly⟩
  case cost =>
    rw [hostAccess_write_store (r := .cost) hb (by decide) (by decide) rfl (by decide), State.writeReg,
      extractLsb'_zero_eq_ofNat]
  case keylen =>
    rw [hostAccess_write_store (r := .keylen) hb (by decide) (by decide) rfl (by decide), State.writeReg,
      extractLsb'_zero_eq_ofNat]
  case blkL => exact hostAccess_write_store (r := .blkL) hb (by decide) (by decide) rfl (by decide) v
  case blkR => exact hostAccess_write_store (r := .blkR) hb (by decide) (by decide) rfl (by decide) v
  case keyw => exact hostAccess_write_store hb (by omega) (by omega) (regAt_keyw k rfl) (by simp) v
  case saltw => exact hostAccess_write_store hb (by omega) (by omega) (regAt_saltw k rfl) (by simp) v
  case readOnly =>
    have hn : (regAt a).writable = false := by
      rw [← Bool.not_eq_true, regAt_writable_iff h4 hw]
      unfold reservedOffset at ha
      unfold writableOffset
      omega
    have hc : regAt a ≠ .cmd := fun hc => by rw [hc] at hn; contradiction
    rw [hostAccess_write_store hb h4 hw rfl hc, writeReg_of_not_writable hn]

end Sys2Proof.Machine
end

section
/-! PROOFS. BUSY and DONE over one step, the operands of a command in flight, and the results the host has not seen
(10_state.md R27, R28, 20_memory.md R70, 70_reset_and_hazards.md R255). -/

namespace Sys2Proof.Machine

/-- What one step does to BUSY and DONE, by what the step is: the life of a command (10_state.md R27, R28). -/
inductive LifeStep (s t : State) : Prop where
  | keeps (hbusy : t.status.busy = s.status.busy) (hdone : t.status.done = s.status.done)
  | reset (hin : s.inputs.head? = some .reset) (hbusy : t.status.busy = false) (hdone : t.status.done = false)
  | completes (hin : s.inputs = [] ∨ s.inputs.head? = some .engine) (hb : s.status.busy = true)
      (hbusy : t.status.busy = false) (hdone : t.status.done = true)
  | accepted (w : Word) (i : Instr) (rest : List Input) (hin : s.inputs = .access (.write 0x004 4 w) :: rest)
      (hd : decode w = .ok i) (ha : s.Accepts i) (hbusy : t.status.busy = true) (hdone : t.status.done = false)
  | runWhole (w : Word) (i : Instr) (rest : List Input) (hin : s.inputs = .run w :: rest) (hd : decode w = .ok i)
      (ha : s.Accepts i) (hbusy : t.status.busy = false) (hdone : t.status.done = true)
  | rejected (w : Word)
      (hin : s.inputs.head? = some (.run w) ∨ s.inputs.head? = some (.access (.write 0x004 4 w)))
      (hb : s.status.busy = false) (hbusy : t.status.busy = false) (hdone : t.status.done = false)

/-- An issue drops the word while BUSY, and rejects or accepts it else: BUSY and DONE follow (60_exceptions.md R221). -/
theorem issueWord_life (w : Word) {s : State} (hb : s.status.busy = false) :
    (s.issueWord w).status.done = false
      ∧ ((s.issueWord w).status.busy = false
        ∨ ∃ i, decode w = .ok i ∧ s.Accepts i ∧ (s.issueWord w).status.busy = true) := by
  obtain ⟨i, hd, e⟩ | ⟨r, _, e⟩ := issueWord_cases w s
  · obtain ⟨hbusy, _⟩ | ⟨r, _, _, e'⟩ | ⟨ha, e'⟩ := issueCommand_cases i id s
    · rw [hb] at hbusy; contradiction
    · rw [e, e']
      exact ⟨rfl, .inl hb⟩
    · rw [e, e']
      exact ⟨by simp, .inr ⟨i, hd, ha, by simp⟩⟩
  · rw [e, issueIllegal_idle hb]
    exact ⟨rfl, .inl hb⟩

theorem engineTurn_life {s t : State} (h : engineTurn s = .next t) :
    (t.status.busy = s.status.busy ∧ t.status.done = s.status.done)
      ∨ (s.status.busy = true ∧ t.status.busy = false ∧ t.status.done = true) := by
  obtain he | ⟨i, hb, _, rfl⟩ := engineTurn_status h
  · exact .inl ⟨congrArg Status.busy he, congrArg Status.done he⟩
  · exact .inr ⟨hb, rfl, rfl⟩

theorem step_life {s t : State} (h : step s = .next t) : LifeStep s t := by
  obtain ⟨hin, ht⟩ | ⟨acc, rest, hin, ht⟩ | ⟨rest, hin, rfl⟩ | ⟨rest, hin, ht⟩ | ⟨w, i, rest, hin, hd, ht⟩
    | ⟨w, r, rest, hin, _, rfl⟩ := step_cases h
  · obtain ⟨hbusy, hdone⟩ | ⟨hb, hbusy, hdone⟩ := engineTurn_life ht
    · exact .keeps hbusy hdone
    · exact .completes (.inl hin) hb hbusy hdone
  · obtain ⟨a, _, _, _, rfl⟩ | ⟨a, w, rfl, _, _, ⟨_, rfl | rfl⟩ | ⟨_, _, rfl⟩ | ⟨hb, rfl, rfl⟩⟩ := hostAccess_cases ht
    · exact .keeps rfl rfl
    · exact .keeps rfl rfl
    · exact .keeps rfl rfl
    · exact .keeps (by rw [writeReg_status]) (by rw [writeReg_status])
    · obtain ⟨hdone, hbusy | ⟨i, hd, ha, hbusy⟩⟩ := issueWord_life w hb
      · exact .rejected w (.inr (by rw [hin]; rfl)) hb hbusy hdone
      · exact .accepted w i rest hin hd ha hbusy hdone
  · exact .reset (by rw [hin]; rfl) rfl rfl
  · obtain ⟨hbusy, hdone⟩ | ⟨hb, hbusy, hdone⟩ := engineTurn_life ht
    · exact .keeps hbusy hdone
    · exact .completes (.inr (by rw [hin]; rfl)) hb hbusy hdone
  · obtain ⟨_, rfl⟩ | ⟨r, hb, _, rfl⟩ | ⟨ha, rfl⟩ := exec_cases ht
    · exact .keeps rfl rfl
    · exact .rejected w (.inl (by rw [hin]; rfl)) hb hb rfl
    · exact .runWhole w i rest hin hd ha rfl rfl
  · cases hb : s.status.busy with
    | true =>
      rw [issueIllegal_busy (by exact hb)]
      exact .keeps rfl rfl
    | false =>
      rw [issueIllegal_idle (by exact hb)]
      exact .rejected w (.inl (by rw [hin]; rfl)) hb hb rfl

/-- Settles O23, from the kinds of step there are (`LifeStep`). -/
theorem busyAndDoneFollowTheCommand : Obligations.BusyAndDoneFollowTheCommand := by
  unfold Obligations.BusyAndDoneFollowTheCommand
  refine ⟨?busySet, ?busyCleared, ?doneSet, ?doneCleared, ?accept, fun w s hb => ?_, fun s => ⟨rfl, rfl⟩⟩
  case busySet =>
    intro s t h hs ht
    cases step_life h with
    | accepted w i rest hin hd ha _ _ => exact ⟨w, i, rest, hin, hd, ha⟩
    | keeps | reset | completes | runWhole | rejected => simp_all
  case busyCleared =>
    intro s t h hs ht
    cases step_life h with
    | reset hin _ _ => exact .inr hin
    | completes hin _ _ hdone => exact .inl ⟨hin, hdone⟩
    | runWhole w i rest _ _ ha _ _ => rw [ha.1] at hs; contradiction
    | keeps | accepted | rejected => simp_all
  case doneSet =>
    intro s t h hs ht
    cases step_life h with
    | completes _ hb hbusy _ => exact ⟨hbusy, .inl hb⟩
    | runWhole w i rest hin hd ha hbusy _ => exact ⟨hbusy, .inr ⟨w, i, rest, hin, hd, ha⟩⟩
    | keeps | reset | accepted | rejected => simp_all
  case doneCleared =>
    intro s t h hs ht
    cases step_life h with
    | reset hin _ _ => exact .inl hin
    | accepted w i rest hin _ ha _ _ => exact .inr ⟨ha.1, w, .inr (by rw [hin]; rfl)⟩
    | rejected w hin hb _ _ => exact .inr ⟨hb, w, hin⟩
    | keeps | completes | runWhole => simp_all
  case accept =>
    intro i s ha
    rw [hostWrite_cmd_encode ha, accept_status]
  · rw [hostWrite_cmd hb]
    exact (issueWord_life w hb).1

/-- A step while BUSY = 1 is a reset, a turn of the engine, or an input that leaves the data and the sequencer alone
(20_memory.md R70, 60_exceptions.md R231). -/
theorem step_busy_cases {s t : State} (h : step s = .next t) (hb : s.status.busy = true) :
    t.status.busy = false
      ∨ ((s.inputs = [] ∨ s.inputs.head? = some .engine) ∧ ∃ l, engineTurn { s with inputs := l } = .next t)
      ∨ (s.SameData t ∧ t.seq = s.seq) := by
  obtain ⟨hin, ht⟩ | ⟨acc, rest, hin, ht⟩ | ⟨rest, hin, rfl⟩ | ⟨rest, hin, ht⟩ | ⟨w, i, rest, hin, hd, ht⟩
    | ⟨w, r, rest, hin, _, rfl⟩ := step_cases h
  · exact .inr (.inl ⟨.inl hin, s.inputs, ht⟩)
  · right; right
    obtain ⟨a, _, _, _, rfl⟩ | ⟨a, w, _, _, _, ⟨_, rfl | rfl⟩ | ⟨hb', _⟩ | ⟨hb', _⟩⟩ := hostAccess_cases ht
    · simp [State.SameData]
    · simp [State.SameData]
    · simp [State.SameData]
    · exact absurd (hb.symm.trans hb') (by decide)
    · exact absurd (hb.symm.trans hb') (by decide)
  · exact .inl rfl
  · exact .inr (.inl ⟨.inr (by rw [hin]; rfl), rest, ht⟩)
  · right; right
    rw [exec_busy i (by exact hb)] at ht
    injection ht with ht
    subst ht
    simp [State.SameData]
  · right; right
    rw [issueIllegal_busy (by exact hb)]
    simp [State.SameData]

/-- Settles O24: only the engine's turn touches a command in flight, and its rows leave the operands and the latch. -/
theorem operandsAreStableInFlight : Obligations.OperandsAreStableInFlight := by
  unfold Obligations.OperandsAreStableInFlight
  intro s t h hs ht
  obtain hbusy | ⟨hin, l, hturn⟩ | ⟨⟨_, hcost, hkeylen, hkey, hsalt, hl, hr, _⟩, hseq⟩ := step_busy_cases h hs
  · rw [ht] at hbusy; contradiction
  · obtain ⟨hidle, _⟩ | ⟨_, hrow⟩ := engineTurn_cases hturn
    · exact absurd (hs.symm.trans hidle) (by decide)
    · obtain ⟨hops, _, hcur⟩ := hrow.frame
      refine ⟨hops, hcur, fun hblk => ⟨?_, hin⟩⟩
      by_contra hne
      obtain ⟨hl, hr⟩ := hrow.blk hne
      exact hblk.elim (absurd hl) (absurd hr)
  · exact ⟨⟨hcost, hkeylen, hkey, hsalt⟩, congrArg Seq.cur hseq, fun hblk => hblk.elim (absurd hl) (absurd hr)⟩

/-- An accepted command adds its results to the unseen ones, left in flight or done whole (70_reset_and_hazards.md R255). -/
theorem accepted_unseen {i : Instr} {s t : State} (ha : s.Accepts i)
    (h : hostAccess (.write 0x004 4 (encode i)) s = .next t ∨ exec i s = .next t) : t.unseen = s.unseen.after i := by
  rw [hostAccess_write_encode ha, exec_accept ha] at h
  obtain h | h := h <;> injection h with h <;> subst h <;> simp

/-- An unseen result is read as a free value (70_reset_and_hazards.md R255). -/
theorem readIsFree_of_unseen {s : State} {a : Nat} (h4 : a % 4 = 0) (hw : a < 0x2000)
    (h : (a = 0x014 ∧ s.unseen.blkL = true) ∨ (a = 0x018 ∧ s.unseen.blkR = true)
      ∨ (0x080 ≤ a ∧ a < 0x098 ∧ s.unseen.digest = true)
      ∨ (((0x800 ≤ a ∧ a < 0x848) ∨ 0x1000 ≤ a) ∧ s.unseen.cipher = true)) : s.readIsFree (regAt a) = true := by
  obtain ⟨rfl, hu⟩ | ⟨rfl, hu⟩ | ⟨h1, h2, hu⟩ | ⟨⟨h1, h2⟩ | h1, hu⟩ := h
  · simp [show regAt 0x014 = .blkL from rfl, State.readIsFree, hu]
  · simp [show regAt 0x018 = .blkR from rfl, State.readIsFree, hu]
  · rw [regAt_digest ⟨(a - 0x080) / 4, by omega⟩ (by simp only []; omega)]
    simp [State.readIsFree, hu]
  · rw [regAt_p ⟨(a - 0x800) / 4, by omega⟩ (by simp only []; omega)]
    simp [State.readIsFree, hu]
  · rw [regAt_s ⟨(a - 0x1000) / 0x400, by omega⟩ ⟨(a - 0x1000) % 0x400 / 4, by omega⟩ (by simp only []; omega)]
    simp [State.readIsFree, hu]

/-- What a step can do to the unseen results, reset and the STATUS read that shows BUSY = 0 apart: keep them, add those of
a command, or store a word of BLK. -/
inductive UnseenStep (s t : State) : Prop where
  | keeps (hu : t.unseen = s.unseen)
  | accepts (i : Instr) (hu : t.unseen = s.unseen.after i)
  | storesL (hb : s.status.busy = false) (v : Word) (hin : s.inputs.head? = some (.access (.write 0x014 4 v)))
      (hu : t.unseen = { s.unseen with blkL := false })
  | storesR (hb : s.status.busy = false) (v : Word) (hin : s.inputs.head? = some (.access (.write 0x018 4 v)))
      (hu : t.unseen = { s.unseen with blkR := false })

theorem offset_eq_of_regAt {a : Nat} {r : Reg} (h4 : a % 4 = 0) (hw : a < 0x2000) (h : regAt a = r)
    (hr : r ≠ .reserved) : a = r.offset := by
  obtain ⟨hreg, _⟩ | ⟨_, _, hoff⟩ := regAt_cases a h4 hw
  · exact absurd (h.symm.trans hreg) hr
  · rw [← h, hoff]

theorem issueWord_unseen (w : Word) (s : State) :
    (s.issueWord w).unseen = s.unseen ∨ ∃ i, (s.issueWord w).unseen = s.unseen.after i := by
  obtain ⟨i, _, e⟩ | ⟨r, _, e⟩ := issueWord_cases w s <;> rw [e]
  · exact (issueCommand_unseen i (fun _ => rfl) s).imp_right fun h => ⟨i, h.2⟩
  · unfold issueIllegal
    split <;> exact .inl rfl

theorem exec_unseen {i : Instr} {s t : State} (h : exec i s = .next t) :
    t.unseen = s.unseen ∨ t.unseen = s.unseen.after i := by
  obtain ⟨_, rfl⟩ | ⟨r, _, _, rfl⟩ | ⟨_, rfl⟩ := exec_cases h
  · exact .inl rfl
  · exact .inl rfl
  · exact .inr (by simp)

theorem hostAccess_unseen {acc : Access} {s t : State} {rest : List Input} (hin : s.inputs = .access acc :: rest)
    (h : hostAccess acc { s with inputs := rest } = .next t)
    (hr : s.status.busy = true ∨ acc ≠ .read 0x008 4) : UnseenStep s t := by
  obtain ⟨a, rfl, h4, hw, rfl⟩ | ⟨a, v, rfl, h4, hw, ⟨_, rfl | rfl⟩ | ⟨hb, hc, rfl⟩ | ⟨_, rfl, rfl⟩⟩ := hostAccess_cases h
  · refine .keeps ?_
    obtain hb | hne := hr
    · exact unseenAfterRead_busy (s := { s with inputs := rest }) hb _
    · refine unseenAfterRead_of_ne (s := { s with inputs := rest }) fun hs => hne ?_
      rw [offset_eq_of_regAt h4 hw hs (by decide)]
      rfl
  · exact .keeps rfl
  · exact .keeps rfl
  · by_cases hl : regAt a = .blkL
    · obtain rfl := offset_eq_of_regAt h4 hw hl (by decide)
      exact .storesL hb v (by rw [hin]; rfl) rfl
    · by_cases hrt : regAt a = .blkR
      · obtain rfl := offset_eq_of_regAt h4 hw hrt (by decide)
        exact .storesR hb v (by rw [hin]; rfl) rfl
      · exact .keeps (writeReg_unseen ⟨hl, hrt⟩ v _)
  · obtain hu | ⟨i, hu⟩ := issueWord_unseen v { s with inputs := rest }
    · exact .keeps hu
    · exact .accepts i hu

theorem step_unseen {s t : State} (h : step s = .next t) (hreset : s.inputs.head? ≠ some .reset)
    (hr : s.status.busy = true ∨ s.inputs.head? ≠ some (.access (.read 0x008 4))) : UnseenStep s t := by
  obtain ⟨_, ht⟩ | ⟨acc, rest, hin, ht⟩ | ⟨rest, hin, _⟩ | ⟨rest, _, ht⟩ | ⟨w, i, rest, _, _, ht⟩
    | ⟨w, r, rest, _, _, rfl⟩ := step_cases h
  · exact .keeps (engineTurn_unseen ht)
  · exact hostAccess_unseen hin ht (hr.imp_right fun hne he => hne (by rw [hin, he]; rfl))
  · exact absurd (by rw [hin]; rfl) hreset
  · exact .keeps (engineTurn_unseen (s := { s with inputs := rest }) ht)
  · obtain hu | hu := exec_unseen ht
    · exact .keeps hu
    · exact .accepts i hu
  · refine .keeps ?_
    unfold issueIllegal
    split <;> rfl

/-- Settles O60: acceptance adds marks, an unseen result reads free, and `UnseenStep` says what can end a mark. -/
theorem resultsAreFreeUntilSeen : Obligations.ResultsAreFreeUntilSeen := by
  unfold Obligations.ResultsAreFreeUntilSeen
  refine ⟨?marked, ?free, ?kept, ?seen, fun s rest => ⟨_, step_reset s rest, rfl⟩, ?allSeen⟩
  case marked =>
    intro i s t ha h
    rw [accepted_unseen ha h]
    cases i <;> simp [Unseen.after]
  case free => exact fun s a h4 hw h => hostAccess_read_free h4 hw rfl (readIsFree_of_unseen h4 hw h)
  case kept =>
    intro s t h hreset hr
    cases step_unseen h hreset hr with
    | keeps hu =>
      rw [hu]
      exact ⟨id, id, .inl, .inl⟩
    | accepts i hu =>
      obtain ⟨hdigest, hcipher, hl, hrt⟩ := s.unseen.after_keeps i
      rw [hu]
      exact ⟨hdigest, hcipher, .inl ∘ hl, .inl ∘ hrt⟩
    | storesL hb v hin hu =>
      rw [hu]
      exact ⟨id, id, fun _ => .inr ⟨hb, v, hin⟩, .inl⟩
    | storesR hb v hin hu =>
      rw [hu]
      exact ⟨id, id, .inl, fun _ => .inr ⟨hb, v, hin⟩⟩
  case seen =>
    intro s hb
    rw [hostAccess_read_status, unseenAfterRead_idle hb]
  case allSeen =>
    intro s r hb hi hu
    have hf := readIsFree_seen hb hi hu r
    exact ⟨hf, readValue_of_not_free hf⟩

end Sys2Proof.Machine
end

section
/-! PROOFS. A command in flight to its end: its steps, the host's accesses between them, and the wait that ends with it
(42_eks_bcrypt.md R152, R153, 70_reset_and_hazards.md R258, R259). -/

namespace Sys2Proof.Machine

/-- The steps left to a command that a CMD write has just put in flight (70_reset_and_hazards.md R259). -/
theorem accepted_remaining (i : Instr) (s : State) :
    (s.clearRecord.accept i).remaining = sequencerSteps i s.cost.toNat := by
  rw [accept_remaining, State.clearRecord_cost]

/-- Settles O47: the steps left at acceptance are R259's, and what is to come is what the whole command leaves. -/
theorem sequencerPerformsEveryCommand : Obligations.SequencerPerformsEveryCommand := by
  unfold Obligations.SequencerPerformsEveryCommand
  intro i s ha
  rw [hostWrite_cmd_encode ha, ← accepted_remaining]
  refine ⟨?_, fun k hk => ?_⟩
  · obtain ⟨t, ht, hbusy, _, _, hout⟩ := engineTurns_remaining (accept_inFlight ha) (by simp)
    obtain ⟨u, hu, hwhole⟩ := exec_accept_hideWork ha
    exact ⟨t, u, ht, hu, by rw [hout, accept_outcome, hwhole], hbusy⟩
  · obtain ⟨t, ht, hbusy, _⟩ := engineTurns_before (accept_inFlight ha) hk
    exact ⟨t, ht, hbusy⟩

theorem hostAccess_of_wf {acc : Access} (h : acc.Wf) (s : State) : ∃ t, hostAccess acc s = .next t := by
  cases acc with
  | read a width => exact ⟨s.hostRead a, by simp only [hostAccess, (accessRefusal_eq_none a width).2 h]⟩
  | write a width v => exact ⟨s.hostWrite (regAt a) v, by simp only [hostAccess, (accessRefusal_eq_none a width).2 h]⟩

/-- The last engine step of a command in flight leaves what was to come. -/
theorem engineTurn_last {s : State} (h : s.InFlight) (hb : s.status.busy = true) (hr : s.remaining = 1) :
    ∃ t, engineTurn s = .next t ∧ t.hideWork = s.outcome := by
  obtain ⟨t, ht, hrem, ⟨hfly, hbusy, _⟩ | ⟨_, _, _, hout⟩⟩ := engineTurn_progress h hb
  · have := remaining_pos hfly hbusy
    omega
  · exact ⟨t, ht, hout⟩

/-- An engine step that is not the last leaves the command in flight, with the same outcome. -/
theorem engineTurn_not_last {s : State} (h : s.InFlight) (hb : s.status.busy = true) (hr : 1 < s.remaining) :
    ∃ t, engineTurn s = .next t ∧ t.InFlight ∧ t.status.busy = true ∧ s.remaining = t.remaining + 1
      ∧ t.outcome = s.outcome := by
  obtain ⟨t, ht, hrem, ⟨hfly, hbusy, hout⟩ | ⟨hbusy, _⟩⟩ := engineTurn_progress h hb
  · exact ⟨t, ht, hfly, hbusy, hrem, hout⟩
  · rw [remaining_idle hbusy] at hrem
    omega

/-- A step whose input does not end the command leaves it in flight: the inputs after it play no part in the outcome. -/
theorem takeInput_between {s : State} {inp : Input} (h : s.InFlight) (hb : s.status.busy = true) (hi : inp.Between)
    (hr : [inp].count .engine < s.remaining) :
    ∃ t, takeInput inp s = .next t ∧ t.InFlight ∧ t.status.busy = true ∧ t.inputs = s.inputs
      ∧ s.remaining = t.remaining + [inp].count .engine ∧ t.outcome.hideHost = s.outcome.hideHost := by
  cases inp with
  | engine =>
    obtain ⟨t, ht, hfly, hbusy, hrem, hout⟩ := engineTurn_not_last h hb (by simpa using hr)
    exact ⟨t, ht, hfly, hbusy, engineTurn_inputs ht, by simpa using hrem, by rw [hout]⟩
  | access a =>
    obtain ⟨t, ht⟩ := hostAccess_of_wf hi s
    obtain ⟨hfly, hbusy, hrem, hout⟩ := hostAccess_inFlight h hb ht
    exact ⟨t, ht, hfly, hbusy, (hostAccess_init ht).2, by simp [hrem], hout⟩
  | reset => exact hi.elim
  | run w => exact hi.elim

/-- Whatever falls between its steps, a run ends with the outcome the command in flight had from the start. -/
theorem runSteps_between (ins : List Input) {s : State} (h : s.InFlight) (hb : s.status.busy = true)
    (hi : ∀ inp ∈ ins, inp.Between) (hr : ins.count .engine + 1 = s.remaining) :
    ∃ t, runSteps (ins.length + 1) { s with inputs := ins ++ [.engine] } = .next t
      ∧ t.hideWork.hideHost = s.outcome.hideHost := by
  induction ins generalizing s with
  | nil =>
    obtain ⟨hfly, hout⟩ := h.setInputs []
    obtain ⟨t, ht, hlast⟩ := engineTurn_last hfly hb hr.symm
    have hstep : step { s with inputs := [.engine] } = .next t := ht
    exact ⟨t, by simp only [List.length_nil, List.nil_append, runSteps, hstep, andThen], by rw [hlast, hout]⟩
  | cons inp rest ih =>
    obtain ⟨hfly, hset⟩ := h.setInputs (rest ++ [.engine])
    have hcount : (inp :: rest).count .engine = [inp].count .engine + rest.count .engine := by
      rw [← List.count_append]
      rfl
    obtain ⟨u, hu, hflyu, hbu, hin, hrem, hout⟩ :=
      takeInput_between hfly hb (hi inp List.mem_cons_self) (show [inp].count .engine < s.remaining by omega)
    have hrem : s.remaining = u.remaining + [inp].count .engine := hrem
    have hin : u.inputs = rest ++ [.engine] := hin
    obtain ⟨t, ht, hend⟩ := ih hflyu hbu (fun j hj => hi j (List.mem_cons_of_mem _ hj)) (by omega)
    have hstep : step { s with inputs := (inp :: rest) ++ [.engine] } = .next { u with inputs := rest ++ [.engine] } := by
      have hself : ({ u with inputs := rest ++ [.engine] } : State) = u := by rw [← hin]
      rw [hself]
      exact hu
    refine ⟨t, ?_, by rw [hend, hout, hset]⟩
    rw [List.length_cons, runSteps, hstep]
    exact ht

/-- Settles O48, from `runSteps_between` at acceptance. -/
theorem interleavingDoesNotChangeResults : Obligations.InterleavingDoesNotChangeResults := by
  unfold Obligations.InterleavingDoesNotChangeResults
  intro i s ins ha hi hcount
  rw [hostWrite_cmd_encode ha]
  rw [← accepted_remaining] at hcount
  obtain ⟨t, ht, hout⟩ := runSteps_between ins (accept_inFlight ha) (by simp) hi hcount
  obtain ⟨u, hu, hwhole⟩ := exec_accept_hideWork ha
  exact ⟨t, u, ht, hu, by rw [hout, accept_outcome, hwhole]⟩

/-- Settles O49: the steps left to the command are enough. -/
theorem commandInFlightCompletes : Obligations.CommandInFlightCompletes := by
  unfold Obligations.CommandInFlightCompletes
  intro s h hb
  obtain ⟨t, ht, hbusy, hdone, hphase, _⟩ := engineTurns_remaining (h.busy hb) hb
  exact ⟨_, t, ht, hbusy, hdone, hphase⟩

theorem engineTurns_inv (k : Nat) {s : State} (h : s.Inv) : ∃ t, engineTurns k s = .next t ∧ t.Inv := by
  induction k generalizing s with
  | zero => exact ⟨s, rfl, h⟩
  | succ k ih =>
    obtain ⟨u, hu⟩ := engineTurn_next h
    obtain ⟨t, ht, hinv⟩ := ih (engineTurn_inv h hu)
    exact ⟨t, by rw [engineTurns_succ hu, ht], hinv⟩

/-- The turns left take the engine to IDLE, whether a command is in flight or none is. -/
theorem engineTurns_remaining_idle {s : State} (h : s.Inv) :
    ∃ t, engineTurns s.remaining s = .next t ∧ t.status.busy = false ∧ t.seq.phase = .idle := by
  cases hb : s.status.busy with
  | false => exact ⟨s, engineTurns_idle _ hb, hb, h.idle hb⟩
  | true =>
    obtain ⟨t, ht, hbusy, _, hphase, _⟩ := engineTurns_remaining (h.busy hb) hb
    exact ⟨t, ht, hbusy, hphase⟩

/-- A wait is over in `t`: the last read was of STATUS, it showed BUSY = 0, and so every result has been seen. -/
def State.WaitOver (t : State) : Prop :=
  t.status.busy = false ∧ t.seq.phase = .idle ∧ t.reads.head? = some (0x008, t.status.word) ∧ t.unseen = .nothing

theorem hostRead_status_waitOver {s : State} (hb : s.status.busy = false) (hp : s.seq.phase = .idle) :
    (s.hostRead 0x008).WaitOver :=
  ⟨hb, hp, rfl, unseenAfterRead_idle hb⟩

theorem waitOn_ends (polls : List Nat) {s : State} (h : s.Inv) : ∃ t, waitOn polls s = .next t ∧ t.WaitOver := by
  have hread (u : State) : hostAccess (.read 0x008 4) u = .next (u.hostRead 0x008) :=
    hostAccess_read (by decide) (by decide) u
  induction polls generalizing s with
  | nil =>
    obtain ⟨u, hu, hbusy, hphase⟩ := engineTurns_remaining_idle h
    exact ⟨_, by simp only [waitOn, hu, andThen, hread], hostRead_status_waitOver hbusy hphase⟩
  | cons k rest ih =>
    cases hb : s.status.busy with
    | false =>
      refine ⟨_, ?_, hostRead_status_waitOver hb (h.idle hb)⟩
      simp [waitOn, hread, andThen, hb]
    | true =>
      obtain ⟨u, hu, hinv⟩ := engineTurns_inv k (hostAccess_inv h (hread s))
      obtain ⟨t, ht, hover⟩ := ih hinv
      refine ⟨t, ?_, hover⟩
      simp [waitOn, hread, andThen, hb, hu, ht]

/-- Settles O50: a poll that finds BUSY = 0 ends the wait, and a used-up schedule lets the engine finish. -/
theorem everyWaitEnds : Obligations.EveryWaitEnds := by
  unfold Obligations.EveryWaitEnds
  exact fun s polls h => waitOn_ends polls h

end Sys2Proof.Machine
end

section
/-! PROOFS. The block cipher and key expansion as functions: what they are one-to-one in, and which bytes, flags and earlier
states they do not depend on (40_blowfish.md R103, R104, 41_key_schedule.md R121 to R128, 42_eks_bcrypt.md R154 to R161). -/

namespace Sys2Proof.Machine

/-- A round undone: the left half comes back from the right one, and then F's exclusive or cancels (40_blowfish.md R102). -/
def Cipher.unround (c : Cipher) (i : Nat) (b : Word × Word) : Word × Word := (b.2 ^^^ c.pAt i, b.1 ^^^ c.f b.2)

theorem Cipher.round_bijective (c : Cipher) (i : Nat) : Function.Bijective (c.round i) :=
  Function.bijective_iff_has_inverse.2 ⟨c.unround i, fun b => by simp [Cipher.round, Cipher.unround],
    fun b => by simp [Cipher.round, Cipher.unround]⟩

theorem Cipher.whiten_bijective (c : Cipher) : Function.Bijective c.whiten :=
  Function.bijective_iff_has_inverse.2 ⟨fun b => (b.2 ^^^ c.pAt 16, b.1 ^^^ c.pAt 17),
    fun b => by simp [Cipher.whiten], fun b => by simp [Cipher.whiten]⟩

theorem forUp_bijective {α : Type} {f : Nat → α → α} (h : ∀ n, Function.Bijective (f n)) (n : Nat) :
    Function.Bijective (forUp f n) := by
  induction n with
  | zero => exact Function.bijective_id
  | succ n ih => exact (h n).comp ih

/-- Settles O36: sixteen rounds and the whitening, each with an inverse. -/
theorem encryptBlockIsABijection : Obligations.EncryptBlockIsABijection := by
  unfold Obligations.EncryptBlockIsABijection
  exact fun c => c.whiten_bijective.comp (forUp_bijective c.round_bijective Config.rounds)

/-- Settles O39: no later block writes the words of block `n` (`fill_flatWord`). -/
theorem fillWritesEachBlockInOrder : Obligations.FillWritesEachBlockInOrder := by
  unfold Obligations.FillWritesEachBlockInOrder
  exact ⟨fun salted salt c n hn => fill_flatWord salted salt _ (Nat.le_refl 521) hn, fun c n r _ => rfl⟩

theorem widen_zero (sx : Bool) : widen sx 0#8 = 0#32 := by
  revert sx
  decide

theorem getD_replicate_zero (n i : Nat) : (List.replicate n 0#8).getD i 0 = 0#8 := by
  rw [List.getD_eq_getElem?_getD]
  exact List.getElem?_getD_replicate_default_eq _ n i

theorem streamWord_zeros (n off : Nat) (sx : Bool) : (streamWord (List.replicate n 0#8) off sx).1 = 0#32 := by
  simp only [streamWord_eq, getD_replicate_zero, widen_zero]
  rfl

/-- Two fills under way that differ in the salt offset only. -/
def FillRun.SameBlock (q r : FillRun) : Prop := q.cipher = r.cipher ∧ q.bl = r.bl ∧ q.br = r.br

/-- A salt of zero bytes adds nothing to a block (41_key_schedule.md R128). -/
theorem fillBlock_zero_salt (n m : Nat) {q r : FillRun} (h : q.SameBlock r) :
    (fillBlock true (List.replicate m 0#8) n q).SameBlock (fillBlock false [] n r) := by
  obtain ⟨hc, hl, hr⟩ := h
  simp [FillRun.SameBlock, fillBlock, FillRun.store, FillRun.encrypt, FillRun.addSalt, streamWord_zeros, hc, hl, hr]

theorem fill_zero_salt (m : Nat) (c : Cipher) : c.fill true (List.replicate m 0#8) = c.fill false [] :=
  (forUp_induct
    (fun n (q : FillRun) => q.SameBlock (forUp (fillBlock false []) n ⟨c, 0#32, 0#32, 0⟩)) ⟨rfl, rfl, rfl⟩
    (fun n _ h => fillBlock_zero_salt n m h) Config.fillBlocks).1

/-- A key of zero bytes leaves P and S (41_key_schedule.md R128). -/
theorem keyXor_zero_key {n : Nat} (hn : 1 ≤ n) (sx : Bool) (c : Cipher) : c.keyXor (List.replicate n 0#8) sx = c := by
  have hp : (c.keyXor (List.replicate n 0#8) sx).p = c.p := Cipher.p_ext fun i hi => by
    rw [Cipher.keyXor_pAt _ sx c i (by simp; omega) hi, streamWord_zeros, BitVec.xor_zero]
  have hs : (c.keyXor (List.replicate n 0#8) sx).s = c.s := keyXor_s ..
  cases c
  cases hk : Cipher.keyXor (List.replicate n 0#8) sx _
  simp_all

/-- Settles O41: every stream word of zero bytes is 0. -/
theorem zeroBytesMixNothing : Obligations.ZeroBytesMixNothing := by
  unfold Obligations.ZeroBytesMixNothing
  exact ⟨fun key sx c => fill_zero_salt 16 (c.keyXor key sx), fun n sx c hn => keyXor_zero_key hn sx c⟩

/-- Two keys, each with its flag, that a key-XOR cannot tell apart expand alike. -/
theorem expand_congr_sx {key key' : List Byte} {x x' : Bool} (h : ∀ c : Cipher, c.keyXor key x = c.keyXor key' x') :
    (∀ c : Cipher, c.expandKey key x = c.expandKey key' x')
      ∧ (∀ (salt : List Byte) (c : Cipher), c.expandState salt key x = c.expandState salt key' x')
      ∧ (∀ (cost : Nat) (salt : List Byte), eksSetup cost salt key x = eksSetup cost salt key' x') := by
  have hkey : ∀ c : Cipher, c.expandKey key x = c.expandKey key' x' := fun c => by
    rw [Cipher.expandKey, Cipher.expandKey, h]
  have hstate : ∀ (salt : List Byte) (c : Cipher), c.expandState salt key x = c.expandState salt key' x' :=
    fun salt c => by rw [Cipher.expandState, Cipher.expandState, h]
  have hloop (salt : List Byte) : Cipher.eksIteration salt key x = Cipher.eksIteration salt key' x' :=
    funext fun c => by rw [Cipher.eksIteration, Cipher.eksIteration, hkey]
  exact ⟨hkey, hstate, fun cost salt => by rw [eksSetup, eksSetup, hstate, hloop]⟩

/-- A key-XOR with a key of low bytes does not show the flag (41_key_schedule.md R121). -/
theorem keyXor_sx_of_low {key : List Byte} (hne : key ≠ []) (hlow : ∀ b ∈ key, b < 0x80#8) (c : Cipher) :
    c.keyXor key true = c.keyXor key false := by
  have hpos := List.length_pos_of_ne_nil hne
  have hget (j : Nat) (hj : j < key.length) : key.getD j 0 < 0x80#8 := by
    rw [List.getD_eq_getElem key 0 hj]
    exact hlow _ (List.getElem_mem hj)
  refine Cipher.keyXor_congr c hne hne fun i _ => ?_
  rw [streamWord_sx_of_low (Nat.mod_lt _ hpos) fun t _ => hget _ (Nat.mod_lt _ hpos)]

/-- Settles O42: the key-XOR is all of an expansion that the flag reaches. -/
theorem signExtensionNeedsAHighKeyByte : Obligations.SignExtensionNeedsAHighKeyByte := by
  unfold Obligations.SignExtensionNeedsAHighKeyByte
  exact fun key hne hlow => expand_congr_sx (keyXor_sx_of_low hne hlow)

/-- Settles O43: CTEXT as it stands, and the digest block by block (`digest_block`). -/
theorem digestBlocksAreIndependent : Obligations.DigestBlocksAreIndependent := by
  unfold Obligations.DigestBlocksAreIndependent
  exact ⟨rfl, by decide, fun c j => digest_block c j⟩

/-- Two keys of one length that agree in their first 72 bytes act alike in a key-XOR (41_key_schedule.md R123). -/
theorem Cipher.keyXor_congr_take {key key' : List Byte} (hlen : key'.length = key.length)
    (htake : key'.take 72 = key.take 72) (sx : Bool) (c : Cipher) : c.keyXor key' sx = c.keyXor key sx := by
  by_cases h : 72 ≤ key.length
  · rw [Cipher.keyXor_take key sx c h, Cipher.keyXor_take key' sx c (by omega), htake]
  · rw [List.take_of_length_le (by omega), List.take_of_length_le (by omega)] at htake
    rw [htake]

/-- KEY with other bytes where no command reads it (10_state.md R36). -/
def State.KeyAgrees (s : State) (key : Vector Byte 73) : Prop :=
  ∀ j : Fin 73, j.val < s.keylen.toNat → j.val < 72 → key.get j = s.key.get j

theorem State.KeyAgrees.keyXor {s : State} {key : Vector Byte 73} (h : s.KeyAgrees key) (sx : Bool) (c : Cipher) :
    c.keyXor (State.keyBytes { s with key := key }) sx = c.keyXor s.keyBytes sx := by
  refine Cipher.keyXor_congr_take (by simp [State.keyBytes]) (List.ext_getElem (by simp [State.keyBytes]) ?_) sx c
  intro j hj _
  simp only [State.keyBytes, List.length_take, Vector.length_toList] at hj
  simp only [State.keyBytes, List.getElem_take, Vector.getElem_toList]
  exact h ⟨j, by omega⟩ (show j < s.keylen.toNat by omega) (show j < 72 by omega)

/-- The effect of a command does not show the unread key bytes. -/
theorem State.KeyAgrees.effectOf_setKey {s : State} {key : Vector Byte 73} (h : s.KeyAgrees key) (i : Instr) :
    effectOf i { s with key := key } = { effectOf i s with key := key } := by
  cases i with
  | nop | init | enc => rfl
  | expkey x =>
    obtain ⟨hkey, _⟩ := expand_congr_sx (h.keyXor x)
    simp only [effectOf, State.expandWithKey, hkey]
  | expsalt x => simp only [effectOf, State.expandWithSalt, State.saltBytes]
  | expstate x =>
    obtain ⟨_, hstate, _⟩ := expand_congr_sx (h.keyXor x)
    simp only [effectOf, State.expandWithBoth, State.saltBytes, hstate]
  | eks x =>
    obtain ⟨_, _, heks⟩ := expand_congr_sx (h.keyXor x)
    simp only [effectOf, State.runEks, State.saltBytes, State.costNat, heks]
  | bcrypt x =>
    obtain ⟨_, _, heks⟩ := expand_congr_sx (h.keyXor x)
    simp only [effectOf, State.runBcrypt, State.storeDigest, State.runEks, State.saltBytes,
      State.costNat, heks]

/-- An issue done whole does not show the unread key bytes, whether it is dropped, rejected or completed. -/
theorem State.KeyAgrees.wholeCommand_setKey {s : State} {key : Vector Byte 73} (h : s.KeyAgrees key) (i : Instr) :
    wholeCommand i (effectOf i) { s with key := key }
      = { wholeCommand i (effectOf i) s with key := key } := by
  have hcheck : issueCheck i { s with key := key } = issueCheck i s := issueCheck_congr i rfl rfl rfl
  unfold wholeCommand
  obtain ⟨hb, e⟩ | ⟨r, hb, hr, e⟩ | ⟨ha, e⟩ :=
    issueCommand_cases i (fun t => (effectOf i t).complete i) s
  · rw [e, issueCommand_busy i _ (by exact hb)]
    rfl
  · rw [e, issueCommand_reject _ (by exact hb) (hcheck.trans hr)]
    rfl
  · have ha' : State.Accepts { s with key := key } i := ha
    have haccept : State.accept i (State.clearRecord { s with key := key })
        = { s.clearRecord.accept i with key := key } := by cases i <;> rfl
    have hagrees : (s.clearRecord.accept i).KeyAgrees key := by
      simpa [State.KeyAgrees] using h
    rw [e, issueCommand_accept _ ha', haccept, hagrees.effectOf_setKey]
    rfl

/-- Settles O45: `KeyAgrees` is the statement's hypothesis. -/
theorem unreadKeyBytesDoNotMatter : Obligations.UnreadKeyBytesDoNotMatter := by
  unfold Obligations.UnreadKeyBytesDoNotMatter
  intro i s key h
  exact ⟨_, exec_eq i s, by rw [exec_eq, State.KeyAgrees.wholeCommand_setKey h]⟩

/-- The commands that load the ROM do not read P and S, nor INIT (40_blowfish.md R104, 42_eks_bcrypt.md R160). -/
theorem effectOf_load {i : Instr} (hi : i = .init ∨ needsCost i = true) (s : State) (c : Cipher) (st : Status) :
    (effectOf i { s with cipher := c, status := st }).cipher = (effectOf i s).cipher
      ∧ (effectOf i { s with cipher := c, status := st }).digest = (effectOf i s).digest := by
  cases i with
  | init => exact ⟨rfl, rfl⟩
  | eks x => simp [effectOf, State.keyBytes, State.saltBytes, State.costNat]
  | bcrypt x => simp [effectOf, State.keyBytes, State.saltBytes, State.costNat]
  | nop | enc | expkey x | expsalt x | expstate x => simp [needsCost] at hi

/-- Those commands need no INIT, and set it. -/
theorem load_init {i : Instr} (hi : i = .init ∨ needsCost i = true) : needsInit i = false ∧ setsInit i = true := by
  cases i with
  | init | eks x | bcrypt x => exact ⟨rfl, rfl⟩
  | nop | enc | expkey x | expsalt x | expstate x => simp [needsCost] at hi

/-- Settles O46: the load at the start of each of these commands overwrites P and S, and its completion sets INIT. -/
theorem loadsForgetTheEarlierCipherState : Obligations.LoadsForgetTheEarlierCipherState := by
  unfold Obligations.LoadsForgetTheEarlierCipherState
  intro i s c init hi ha
  obtain ⟨hneeds, hsets⟩ := load_init hi
  obtain ⟨hb, _, hkeylen, hcost⟩ := ha
  have ha : s.Accepts i := ⟨hb, by simp [hneeds], hkeylen, hcost⟩
  have ha' : State.Accepts { s with cipher := c, status := { s.status with init := init } } i :=
    ⟨hb, by simp [hneeds], hkeylen, hcost⟩
  obtain ⟨q, _, ht⟩ := exec_accept_seq ha
  obtain ⟨q', _, hu⟩ := exec_accept_seq ha'
  obtain ⟨hcipher, hdigest⟩ := effectOf_load hi s c { s.status with init := init }
  exact ⟨_, _, ht, hu, hcipher.symm, hdigest.symm, by simp only [hsets, Bool.or_true]⟩

end Sys2Proof.Machine
end

section
/-! PROOFS. The host software: the radix-64 codec, hash strings, and `hash` and `verify` on an IDLE engine
(44_host_protocol.md R190 to R207). -/

namespace Sys2Proof.Machine.Radix64

/-- Decoding fails exactly where a character has no index (44_host_protocol.md R197). -/
theorem mapM_index_eq_none (s : List Char) : s.mapM index = none ↔ ∃ c ∈ s, c ∉ alphabet := by
  induction s with
  | nil => simp
  | cons c s ih =>
    rw [List.mapM_cons, List.exists_mem_cons_iff, ← ih, ← index_eq_none]
    cases index c with
    | none => simp
    | some k => cases s.mapM index <;> simp

theorem length_of_mapM_index {s : List Char} {v : List (BitVec 6)} (h : s.mapM index = some v) :
    v.length = s.length := by
  induction s generalizing v with
  | nil => simp_all
  | cons c s ih =>
    rw [List.mapM_cons] at h
    obtain ⟨k, _, h⟩ := Option.bind_eq_some_iff.1 h
    obtain ⟨w, hw, h⟩ := Option.bind_eq_some_iff.1 h
    obtain rfl := Option.some.inj h
    simp [ih hw]

/-- Six bits an index, and whole bytes only (44_host_protocol.md R197). -/
theorem decodeIndices_length (v : List (BitVec 6)) : (decodeIndices v).length = 6 * v.length / 8 := by
  induction v using decodeIndices.induct with
  | case1 | case2 | case3 | case4 => simp [decodeIndices]
  | case5 v0 v1 v2 v3 rest ih =>
    simp only [decodeIndices, List.length_cons, ih]
    omega

theorem length_of_decode {s : List Char} {m : Nat} {d : List Byte} (h : decode s m = some d) :
    d.length = min m (6 * s.length / 8) := by
  obtain ⟨v, hv, rfl⟩ := Option.map_eq_some_iff.1 h
  rw [List.length_take, decodeIndices_length, length_of_mapM_index hv]

end Sys2Proof.Machine.Radix64

namespace Sys2Proof.Machine

/-- Settles O51: the round trip over the indices, and the two ways a decoding is bounded. -/
theorem radix64RoundTrip : Obligations.Radix64RoundTrip := by
  unfold Obligations.Radix64RoundTrip
  refine ⟨fun d => by rw [Radix64.decode_encode_take, List.take_length], fun s m => ?_, fun s m d h => ?_⟩
  · rw [Radix64.decode, Option.map_eq_none_iff, Radix64.mapM_index_eq_none]
  · rw [Radix64.length_of_decode h]
    exact Nat.min_le_left ..

/-- A formatted hash as the parser takes it apart: a tag, two digits, and the symbols after the third `$`. -/
theorem formatHash_eq (tag : Tag) (cost : Nat) (salt raw : List Byte) :
    formatHash tag cost salt raw
      = '$' :: (tag.text ++ '$' :: (costText cost ++ '$' :: (Radix64.encode salt ++ Radix64.encode (raw.take 23)))) := by
  simp only [formatHash, List.cons_append, List.append_assoc]

theorem formatHash_length {tag : Tag} {cost : Nat} {salt raw : List Byte} (hs : salt.length = 16) (hr : raw.length = 24) :
    (formatHash tag cost salt raw).length = tag.text.length + 58 := by
  simp only [formatHash_eq, costText, List.length_cons, List.length_append, List.length_nil, Radix64.encode_length, hs,
    List.length_take, hr]
  omega

/-- The text between the first two `$` is the tag (44_host_protocol.md R200, steps 1 to 3). -/
theorem parseHash_tag (tag : Tag) (rest : List Char) :
    parseHash ('$' :: (tag.text ++ '$' :: rest)) = parseCost tag rest := by
  cases tag <;> rfl

theorem digitValue_digitChar : ∀ d, d < 10 → digitValue (digitChar d) = some d := by decide

/-- Two digits and a `$` give the cost back (44_host_protocol.md R200, steps 4 and 5). -/
theorem parseCost_costText {cost : Nat} (h4 : 4 ≤ cost) (h31 : cost ≤ 31) (tag : Tag) (rest : List Char) :
    parseCost tag (costText cost ++ '$' :: rest) = parseRest tag cost rest := by
  have hcost : 10 * (cost / 10 % 10) + cost % 10 = cost := by omega
  have hrange : costInRange cost = true := decide_eq_true ⟨h4, h31⟩
  simp only [costText, List.cons_append, List.nil_append, parseCost,
    digitValue_digitChar _ (Nat.mod_lt _ (show 10 > 0 by decide)), hcost, hrange, if_true]

/-- Twenty-two symbols of salt, and 31 of digest (44_host_protocol.md R200, steps 6 to 8). -/
theorem parseRest_encode {salt raw : List Byte} (hs : salt.length = 16) (hr : raw.length = 24) (tag : Tag) (cost : Nat) :
    parseRest tag cost (Radix64.encode salt ++ Radix64.encode (raw.take 23)) = .ok ⟨tag, cost, salt, raw.take 23⟩ := by
  have hls : (Radix64.encode salt).length = 22 := by rw [Radix64.encode_length, hs]
  have hlr : (Radix64.encode (raw.take 23)).length = 31 := by rw [Radix64.encode_length, List.length_take, hr]; rfl
  rw [parseRest, if_pos (by rw [List.length_append, hls, hlr]; decide), List.take_left' hls, List.drop_left' hls,
    Radix64.decode_encode_take, Radix64.decode_encode_take, List.take_of_length_le (by omega : salt.length ≤ 16),
    List.take_take]
  rfl

theorem parseHash_formatHash {tag : Tag} {cost : Nat} {salt raw : List Byte} (h4 : 4 ≤ cost) (h31 : cost ≤ 31)
    (hs : salt.length = 16) (hr : raw.length = 24) :
    parseHash (formatHash tag cost salt raw) = .ok ⟨tag, cost, salt, raw.take 23⟩ := by
  rw [formatHash_eq, parseHash_tag, parseCost_costText h4 h31, parseRest_encode hs hr]

/-- Settles O53, from the length and the parse of the formatted string. -/
theorem formattedHashParsesBack : Obligations.FormattedHashParsesBack := by
  unfold Obligations.FormattedHashParsesBack
  intro tag cost salt raw h4 h31 hs hr
  refine ⟨?_, parseHash_formatHash h4 h31 hs hr⟩
  rw [formatHash_length hs hr]
  omega

/-- Settles O54: ten fixed strings, parsed. -/
theorem parseErrorKinds : Obligations.ParseErrorKinds := by
  unfold Obligations.ParseErrorKinds
  decide

theorem prepareKey_length (p : List Byte) : (prepareKey p).length = min p.length 72 + 1 := by
  simp [prepareKey, Config.passwordBytes, Nat.min_comm]

theorem hostWrites_append (a b : List (Nat × Word)) (s : State) : s.hostWrites (a ++ b) = (s.hostWrites a).hostWrites b :=
  List.foldl_append

/-- What the operand writes leave on an IDLE engine: COST, KEYLEN, KEY and SALT, and nothing else (44_host_protocol.md R181). -/
theorem hostWrites_operandWrites {e : State} {cost : Nat} {key salt : List Byte} (hb : e.status.busy = false)
    (hk : key.length ≤ 73) (hs : salt.length = 16) :
    ∃ (k : Vector Byte 73) (t : Vector Byte 16),
      e.hostWrites (operandWrites cost key salt)
          = { e with cost := BitVec.ofNat 8 cost, key := k, keylen := BitVec.ofNat 7 key.length, salt := t }
        ∧ (∀ j, (h : j < 73) → j < key.length → k[j] = key.getD j 0) ∧ t.toList = salt := by
  have hcost : e.hostWrite (regAt 0x00C) (BitVec.ofNat 32 cost) = { e with cost := BitVec.ofNat 8 cost } := by
    rw [show regAt 0x00C = .cost from rfl, hostWrite_idle hb (by decide), State.writeReg]
    congr 1
    apply BitVec.eq_of_toNat_eq
    simp [BitVec.extractLsb'_toNat]
  obtain ⟨k, hkey, hbytes⟩ := hostWrites_ldkey (s := { e with cost := BitVec.ofNat 8 cost }) key hb hk
  obtain ⟨t, hsalt, htl⟩ := hostWrites_ldsalt
    (s := { e with cost := BitVec.ofNat 8 cost, key := k, keylen := BitVec.ofNat 7 key.length }) salt hb hs
  refine ⟨k, t, ?_, hbytes, htl⟩
  have hfirst : e.hostWrites (operandWrites cost key salt)
      = ((e.hostWrite (regAt 0x00C) (BitVec.ofNat 32 cost)).hostWrites (ldkeyWrites key)).hostWrites (ldsaltWrites salt) := by
    rw [← hostWrites_append]
    rfl
  rw [hfirst, hcost, hkey, hsalt]

/-- An IDLE engine loaded with operands: what a command reads of it, and what stays (44_host_protocol.md R181). -/
theorem operandWrites_loaded {e : State} {cost : Nat} {key salt : List Byte} (hb : e.status.busy = false)
    (hc : cost < 256) (hk : key.length ≤ 73) (hs : salt.length = 16) :
    ∃ s, e.hostWrites (operandWrites cost key salt) = s ∧ s.keyBytes = key ∧ s.keylen.toNat = key.length
      ∧ s.saltBytes = salt ∧ s.cost.toNat = cost ∧ s.status = e.status ∧ s.cipher = e.cipher ∧ s.blkL = e.blkL
      ∧ s.blkR = e.blkR ∧ s.digest = e.digest ∧ s.seq = e.seq := by
  obtain ⟨k, t, hw, hbytes, htl⟩ := hostWrites_operandWrites (cost := cost) hb hk hs
  have hlen : (BitVec.ofNat 7 key.length).toNat = key.length := by
    rw [BitVec.toNat_ofNat, Nat.mod_eq_of_lt (by omega)]
  refine ⟨_, hw, ?_, hlen, htl, ?_, rfl, rfl, rfl, rfl, rfl, rfl⟩
  · apply List.ext_getElem
    · simp [State.keyBytes, hlen, hk]
    · intro j hj hj'
      simp [State.keyBytes, hbytes j (by omega) hj', hj']
  · rw [BitVec.toNat_ofNat, Nat.mod_eq_of_lt hc]

/-- Settles O55: the prepared key byte by byte, and the operand writes buffer by buffer. -/
theorem operandWritesLoadTheKeyAndSalt : Obligations.OperandWritesLoadTheKeyAndSalt := by
  unfold Obligations.OperandWritesLoadTheKeyAndSalt
  refine ⟨fun p => ⟨prepareKey_length p, by simp [prepareKey], ?_⟩,
    fun e cost key salt hb hc _ hk hs => operandWrites_loaded hb hc hk hs⟩
  have hlen : (p.take 72).length = min p.length 72 := by rw [List.length_take, Nat.min_comm]
  exact List.take_left' hlen

/-- BCRYPT run whole, and the STATUS read that ends its `run`: DIGEST holds the digest and may be read. -/
theorem runBcryptCommand_digest {x : Bool} {s : State} (ha : s.Accepts (.bcrypt x)) :
    (s.runBcryptCommand x).status.busy = false ∧ (s.runBcryptCommand x).unseen = .nothing
      ∧ (s.runBcryptCommand x).digest = (eksSetup s.costNat s.saltBytes s.keyBytes x).digest := by
  obtain ⟨t, he, hdone⟩ : ∃ t, wholeCommand (.bcrypt x) (State.runBcrypt x) s = t
      ∧ t.status.busy = false ∧ t.seq.phase = .idle
      ∧ t.digest = (eksSetup s.costNat s.saltBytes s.keyBytes x).digest := by
    refine ⟨_, issueCommand_accept _ ha, rfl, rfl, ?_⟩
    simp [State.keyBytes, State.saltBytes, State.costNat]
  obtain ⟨hbusy, hphase, hdigest⟩ := hdone
  obtain ⟨_, _, _, hunseen⟩ := hostRead_status_waitOver hbusy hphase
  rw [State.runBcryptCommand, he]
  exact ⟨hbusy, hunseen, hdigest⟩

/-- The 24 bytes read after a hash are the digest of the Eks schedule on its operands (44_host_protocol.md R203). -/
theorem readDigest_engineAfterHash {tag : Tag} {cost : Nat} {salt password : List Byte} {e : State}
    (hb : e.status.busy = false) (h4 : 4 ≤ cost) (h31 : cost ≤ 31) (hs : salt.length = 16) :
    (engineAfterHash tag cost salt password e).readDigest
      = (eksSetup cost salt (prepareKey password) tag.x).digest.toList.flatMap unbe32 := by
  have hlen := prepareKey_length password
  obtain ⟨s, hw, hkey, hkeylen, hsalt, hcost, hstatus, _⟩ :=
    operandWrites_loaded (e := e) (cost := cost) (key := prepareKey password) hb (by omega) (by omega) hs
  have ha : s.Accepts (.bcrypt tag.x) :=
    ⟨by rw [hstatus, hb], by simp [needsInit], fun _ => by omega, fun _ => by omega⟩
  obtain ⟨hbusy, hunseen, hdigest⟩ := runBcryptCommand_digest ha
  rw [engineAfterHash, hw, readDigest_eq hbusy (by rw [hunseen]; rfl), hdigest, hkey, hsalt, State.costNat, hcost]

/-- `hash` as a function of its operands alone. -/
theorem hashWith_eq {tag : Tag} {cost : Nat} {salt password : List Byte} {e : State} (hb : e.status.busy = false)
    (h4 : 4 ≤ cost) (h31 : cost ≤ 31) (hs : salt.length = 16) :
    hashWith tag cost salt password e
      = formatHash tag cost salt ((eksSetup cost salt (prepareKey password) tag.x).digest.toList.flatMap unbe32) := by
  rw [hashWith, readDigest_engineAfterHash hb h4 h31 hs]

/-- Settles O56, from the digest that the engine holds after the run. -/
theorem hashEncodesTheBcryptDigest : Obligations.HashEncodesTheBcryptDigest := by
  unfold Obligations.HashEncodesTheBcryptDigest
  exact fun tag cost salt password e hb h4 h31 hs => hashWith_eq hb h4 h31 hs

/-- Twenty-four bytes are read from DIGEST whatever the engine does (42_eks_bcrypt.md R157). -/
theorem readDigest_length (s : State) : s.readDigest.length = 24 := rfl

theorem verify_of_parse_ok {password : List Byte} {stored : List Char} {p : Parsed} (h : parseHash stored = .ok p)
    (e : State) :
    verify password stored e = if hashWith p.tag p.cost p.salt password e = stored then .matched else .noMatch := by
  simp only [verify, hashExisting, h]

/-- Settles O57: the stored string parses to the operands it was made from, and `hash` depends on nothing else. -/
theorem verifyMatchesItsOwnHash : Obligations.VerifyMatchesItsOwnHash := by
  unfold Obligations.VerifyMatchesItsOwnHash
  intro tag cost salt password e e' hb hb' h4 h31
  have hs : salt.toList.length = 16 := Vector.length_toList
  have hrange : costInRange cost = true := decide_eq_true ⟨h4, h31⟩
  have hparse : parseHash (hashWith tag cost salt.toList password e) = .ok _ :=
    parseHash_formatHash h4 h31 hs (readDigest_length _)
  refine ⟨hashWith tag cost salt.toList password e, by simp only [hashNew, hrange, if_true], ?_⟩
  rw [verify_of_parse_ok hparse, hashWith_eq hb' h4 h31 hs, hashWith_eq hb h4 h31 hs, if_pos rfl]

/-- The salt of a string that parses is 16 bytes: 22 symbols hold 16 whole bytes (44_host_protocol.md R200, step 7). -/
theorem parseRest_salt {tag : Tag} {cost : Nat} {rest : List Char} {p : Parsed} (h : parseRest tag cost rest = .ok p) :
    p.salt.length = 16 := by
  unfold parseRest at h
  split at h
  case isTrue hl =>
    split at h
    case h_1 salt digest hsalt _ =>
      obtain rfl := Except.ok.inj h
      rw [Radix64.length_of_decode hsalt, List.length_take]
      omega
    case h_2 => contradiction
  case isFalse => contradiction

theorem parseCost_salt {tag : Tag} {h : List Char} {p : Parsed} (hp : parseCost tag h = .ok p) : p.salt.length = 16 := by
  unfold parseCost at hp
  split at hp
  · split at hp
    · split at hp
      · exact parseRest_salt hp
      · contradiction
    · contradiction
  · contradiction

theorem parseHash_salt {h : List Char} {p : Parsed} (hp : parseHash h = .ok p) : p.salt.length = 16 := by
  unfold parseHash at hp
  split at hp
  · split at hp
    · split at hp
      · contradiction
      · split at hp
        · exact parseCost_salt hp
        · contradiction
    · contradiction
  · contradiction

/-- Settles O58: `verify` compares with a string of full length, and errs only where parsing does. -/
theorem verifyErrorsOnlyOnParsing : Obligations.VerifyErrorsOnlyOnParsing := by
  unfold Obligations.VerifyErrorsOnlyOnParsing
  intro password stored e
  refine ⟨fun k => ?_, fun p hp hshort => ?_⟩
  · cases hp : parseHash stored with
    | ok p =>
      rw [verify_of_parse_ok hp]
      split <;> simp
    | error k' => simp [verify, hashExisting, hp]
  · have hlen : (hashWith p.tag p.cost p.salt password e).length = p.tag.text.length + 58 :=
      formatHash_length (parseHash_salt hp) (readDigest_length _)
    rw [verify_of_parse_ok hp, if_neg]
    intro he
    rw [he] at hlen
    omega

/-- The prepared key and the password with its NUL agree in the 72 bytes that a key-XOR reads (44_host_protocol.md R191). -/
theorem keyXor_prepareKey (p : List Byte) (x : Bool) (c : Cipher) :
    c.keyXor (prepareKey p) x = c.keyXor ((p ++ [0x00#8]).take 72) x := by
  by_cases h : p.length < 72
  · have hp : p.take 72 = p := List.take_of_length_le (by omega)
    have hp' : (p ++ [0x00#8]).take 72 = p ++ [0x00#8] := List.take_of_length_le (by simp; omega)
    rw [prepareKey, Config.passwordBytes, hp, hp']
  · have hl : (p.take 72).length = 72 := by rw [List.length_take]; omega
    rw [prepareKey, Config.passwordBytes, Cipher.keyXor_append hl, List.take_append_of_le_length (by omega)]

/-- Settles O59: both passwords prepare to one key, and the 73rd byte of a prepared key is never read. -/
theorem passwordsAgreeOnSeventyTwoBytes : Obligations.PasswordsAgreeOnSeventyTwoBytes := by
  unfold Obligations.PasswordsAgreeOnSeventyTwoBytes
  refine ⟨fun tag cost salt p q e h => ?_, fun cost salt p x => ?_⟩
  · have hkey : prepareKey p = prepareKey q := by rw [prepareKey, prepareKey, Config.passwordBytes, h]
    rw [hashWith, hashWith, engineAfterHash, engineAfterHash, hkey]
  · obtain ⟨_, _, heks⟩ := expand_congr_sx (keyXor_prepareKey p x)
    exact heks cost salt

end Sys2Proof.Machine
end
